-- ==== Sys2Proof/Word.lean ====
section
/-! DEFINITION. The widths of the block's words (spec/10_state.md R23, spec/30_encoding.md R90). -/

namespace Sys2Proof

/-- One byte of `INFO` or `PHY`, one byte operand (R34, R92). -/
abbrev Byte := BitVec 8

/-- A command word, a response's data word, `STATUS`, `RES` (R90, R91, R23). -/
abbrev Word := BitVec 32

/-- The CRC register, table convention (R28). -/
abbrev Crc24 := BitVec 24

/-- The whitener's LFSR, bit `p` is the spec's `state[p]` (R31). -/
abbrev Wh7 := BitVec 7

end Sys2Proof
end

