-- ==== Sys2Proof/Syntax.lean ====
section
/-! DEFINITION. The 24 commands of spec/opcode_table.json (spec/30_encoding.md R92, R94), one constructor per row,
each operand at the width of its field; and the names an operand can stand for (R98). -/

namespace Sys2Proof

/-- The operand `path` of `CRC_RUN` and `ASSEMBLE` (R92 format P1): 0 bit-serial, 1 table. -/
inductive Path where
  | bitSerial
  | table
deriving DecidableEq, Repr

/-- The closed set of packet types (R98), in the order of their codes 0 to 24. -/
inductive PktType where
  | raw
  | discovery
  | ibeacon
  | advInd
  | advDirectInd
  | advNonconnInd
  | advScanInd
  | scanReq
  | scanRsp
  | connectReq
  | llData
  | llConnectionUpdateReq
  | llChannelMapReq
  | llTerminateInd
  | llEncReq
  | llEncRsp
  | llStartEncReq
  | llStartEncRsp
  | llUnknownRsp
  | llFeatureReq
  | llFeatureRsp
  | llPauseEncReq
  | llPauseEncRsp
  | llVersionInd
  | llRejectInd
deriving DecidableEq, Repr

/-- A command (R94). A `pkt_type` operand is its 5-bit code: the codes 25 to 31 name no type and are legal operands
(R96, R98). -/
inductive Instr where
  /-- `PKT_CLR` (R121) -/
  | pktClr
  /-- `SET_CHAN ch` (R122) -/
  | setChan (ch : BitVec 6)
  /-- `PUSH_INFO byte` (R123) -/
  | pushInfo (byte : Byte)
  /-- `RD_INFO idx` (R125) -/
  | rdInfo (idx : BitVec 6)
  /-- `RD_PHY idx` (R126) -/
  | rdPhy (idx : BitVec 6)
  /-- `RD_SAMPLE idx` (R127) -/
  | rdSample (idx : BitVec 11)
  /-- `RD_REG n` (R129) -/
  | rdReg (n : BitVec 4)
  /-- `CLR_STATUS` (R130) -/
  | clrStatus
  /-- `CRC_INIT v` (R141) -/
  | crcInit (v : BitVec 24)
  /-- `CRC_INIT_LFSR w` (R142) -/
  | crcInitLfsr (w : BitVec 24)
  /-- `CRC_BIT b` (R143) -/
  | crcBit (b : Bool)
  /-- `CRC_BYTE byte` (R146) -/
  | crcByte (byte : Byte)
  /-- `CRC_RUN path` (R151) -/
  | crcRun (path : Path)
  /-- `WH_SEED` (R160) -/
  | whSeed
  /-- `WH_BIT b` (R162) -/
  | whBit (b : Bool)
  /-- `WH_BYTE byte` (R164) -/
  | whByte (byte : Byte)
  /-- `WH_TBL37 idx, byte` (R168) -/
  | whTbl37 (idx : BitVec 6) (byte : Byte)
  /-- `HDR_ADV type, txAdd, rxAdd, len` (R181) -/
  | hdrAdv (pktType : BitVec 5) (txAdd : Bool) (rxAdd : Bool) (len : BitVec 8)
  /-- `HDR_DATA llid, nesn, sn, md, len` (R185) -/
  | hdrData (llid : BitVec 2) (nesn : Bool) (sn : Bool) (md : Bool) (len : BitVec 8)
  /-- `HOP_SCA hop, sca` (R187) -/
  | hopSca (hop : BitVec 5) (sca : BitVec 3)
  /-- `LL_OPCODE type` (R190) -/
  | llOpcode (pktType : BitVec 5)
  /-- `ASSEMBLE path` (R200) -/
  | assemble (path : Path)
  /-- `MOD` (R220) -/
  | mod
  /-- `CH_FREQ ch` (R240) -/
  | chFreq (ch : BitVec 8)
deriving DecidableEq, Repr

end Sys2Proof
end

