-- ==== Sys2Proof/WellFormed.lean ====
section
/-! DEFINITION. Which commands have a legal word. Every operand has the width of its field, so the one check left is
that of `RD_REG` (spec/30_encoding.md R95 (c)). -/

namespace Sys2Proof

/-- A command whose word the decoder accepts: `RD_REG n` only for the registers 0 to 10 (R95 (c), R23); every other
operand value is legal (R96: reserved VALUES are not illegal encodings). -/
def Instr.wellFormed : Instr → Bool
  | .pktClr => true
  | .setChan _ => true
  | .pushInfo _ => true
  | .rdInfo _ => true
  | .rdPhy _ => true
  | .rdSample _ => true
  | .rdReg n => decide (n.toNat ≤ 10)
  | .clrStatus => true
  | .crcInit _ => true
  | .crcInitLfsr _ => true
  | .crcBit _ => true
  | .crcByte _ => true
  | .crcRun _ => true
  | .whSeed => true
  | .whBit _ => true
  | .whByte _ => true
  | .whTbl37 _ _ => true
  | .hdrAdv _ _ _ _ => true
  | .hdrData _ _ _ _ _ => true
  | .hopSca _ _ => true
  | .llOpcode _ => true
  | .assemble _ => true
  | .mod => true
  | .chFreq _ => true

end Sys2Proof
end

