-- ==== Sys2Proof/Decode.lean ====
section
/-! DEFINITION. The decoder, total on 32-bit words and refusing by name (spec/30_encoding.md R90, R92, R94, R95), and
after it the encoder, written from the formats of R92 and the syntax table of R100. -/

namespace Sys2Proof

/-- Why a word is illegal, the three cases of R95 in their order (R260 steps 1 and 2). -/
inductive DecodeError where
  /-- R95 (a): `op` is none of the 24 values of R94 -/
  | unassignedOpcode (op : BitVec 8)
  /-- R95 (b): a reserved bit of the format of `op` is 1 -/
  | reservedBit (op : BitVec 8)
  /-- R95 (c): `RD_REG` with `n` in 11 to 15 -/
  | noSuchRegister (n : BitVec 4)
deriving DecidableEq, Repr

/-- `cmd[lo+n-1 : lo]`, an unsigned field of a command word (R92, R93). -/
def cmdField (w : BitVec 32) (lo n : Nat) : BitVec n := w.extractLsb' lo n

/-- The command, if the `n` reserved bits of its format from bit `lo` up are 0 (R90, R95 (b)). -/
def ifReservedZero (w : BitVec 32) (lo n : Nat) (i : Instr) : Except DecodeError Instr :=
  if cmdField w lo n = 0 then .ok i else .error (.reservedBit (cmdField w 24 8))

/-- The operand `path` (R92 format P1). -/
def pathOf (b : Bool) : Path := if b then .table else .bitSerial

/-- The decoder: the opcode map of R94 over the formats of R92. -/
def decode (w : BitVec 32) : Except DecodeError Instr :=
  match cmdField w 24 8 with
  | 0x10#8 => ifReservedZero w 0 24 .pktClr
  | 0x11#8 => ifReservedZero w 6 18 (.setChan (cmdField w 0 6))
  | 0x12#8 => ifReservedZero w 8 16 (.pushInfo (cmdField w 0 8))
  | 0x13#8 => ifReservedZero w 6 18 (.rdInfo (cmdField w 0 6))
  | 0x14#8 => ifReservedZero w 6 18 (.rdPhy (cmdField w 0 6))
  | 0x15#8 => ifReservedZero w 11 13 (.rdSample (cmdField w 0 11))
  | 0x16#8 =>
    if cmdField w 4 20 = 0 then
      if (cmdField w 0 4).toNat ≤ 10 then .ok (.rdReg (cmdField w 0 4))
      else .error (.noSuchRegister (cmdField w 0 4))
    else .error (.reservedBit (cmdField w 24 8))
  | 0x17#8 => ifReservedZero w 0 24 .clrStatus
  | 0x20#8 => .ok (.crcInit (cmdField w 0 24))
  | 0x21#8 => .ok (.crcInitLfsr (cmdField w 0 24))
  | 0x22#8 => ifReservedZero w 1 23 (.crcBit (w.getLsbD 0))
  | 0x23#8 => ifReservedZero w 8 16 (.crcByte (cmdField w 0 8))
  | 0x24#8 => ifReservedZero w 1 23 (.crcRun (pathOf (w.getLsbD 0)))
  | 0x30#8 => ifReservedZero w 0 24 .whSeed
  | 0x31#8 => ifReservedZero w 1 23 (.whBit (w.getLsbD 0))
  | 0x32#8 => ifReservedZero w 8 16 (.whByte (cmdField w 0 8))
  | 0x33#8 => ifReservedZero w 14 10 (.whTbl37 (cmdField w 8 6) (cmdField w 0 8))
  | 0x40#8 =>
    if w.getLsbD 7 then .error (.reservedBit (cmdField w 24 8))
    else ifReservedZero w 16 8
      (.hdrAdv (cmdField w 0 5) (w.getLsbD 5) (w.getLsbD 6) (cmdField w 8 8))
  | 0x41#8 =>
    if cmdField w 5 3 = 0 then
      ifReservedZero w 16 8
        (.hdrData (cmdField w 0 2) (w.getLsbD 2) (w.getLsbD 3) (w.getLsbD 4) (cmdField w 8 8))
    else .error (.reservedBit (cmdField w 24 8))
  | 0x42#8 => ifReservedZero w 8 16 (.hopSca (cmdField w 0 5) (cmdField w 5 3))
  | 0x43#8 => ifReservedZero w 5 19 (.llOpcode (cmdField w 0 5))
  | 0x50#8 => ifReservedZero w 1 23 (.assemble (pathOf (w.getLsbD 0)))
  | 0x60#8 => ifReservedZero w 0 24 .mod
  | 0x70#8 => ifReservedZero w 8 16 (.chFreq (cmdField w 0 8))
  | op => .error (.unassignedOpcode op)

/-- The word of `nbits` bits that opcode_table.json numbers as `w`: one 32-bit value with no byte order (R66). -/
def tableWord (nbits w : Nat) : BitVec 32 := BitVec.ofNat 32 (w % 2 ^ nbits)

/-- What the decoder reads from an instruction whose bits are `w` (none where it refuses). -/
def decodeTableWord (nbits w : Nat) : Option Instr :=
  match decode (tableWord nbits w) with
  | .ok i => some i
  | .error _ => none

/-- The opcode of a command (R94). -/
def Instr.opcode : Instr → BitVec 8
  | .pktClr => 0x10#8
  | .setChan _ => 0x11#8
  | .pushInfo _ => 0x12#8
  | .rdInfo _ => 0x13#8
  | .rdPhy _ => 0x14#8
  | .rdSample _ => 0x15#8
  | .rdReg _ => 0x16#8
  | .clrStatus => 0x17#8
  | .crcInit _ => 0x20#8
  | .crcInitLfsr _ => 0x21#8
  | .crcBit _ => 0x22#8
  | .crcByte _ => 0x23#8
  | .crcRun _ => 0x24#8
  | .whSeed => 0x30#8
  | .whBit _ => 0x31#8
  | .whByte _ => 0x32#8
  | .whTbl37 _ _ => 0x33#8
  | .hdrAdv _ _ _ _ => 0x40#8
  | .hdrData _ _ _ _ _ => 0x41#8
  | .hopSca _ _ => 0x42#8
  | .llOpcode _ => 0x43#8
  | .assemble _ => 0x50#8
  | .mod => 0x60#8
  | .chFreq _ => 0x70#8

/-- The bit of `path` (R92 format P1). -/
def Path.toBit : Path → Bool
  | .bitSerial => false
  | .table => true

/-- An operand placed at bit `lo` of a command word (R92, R100). -/
def placeField {n : Nat} (v : BitVec n) (lo : Nat) : BitVec 32 := v.setWidth 32 <<< lo

/-- The operands of a command at the places of their fields, every other bit 0 (R92, R100). -/
def Instr.operandArea : Instr → BitVec 32
  | .pktClr => 0#32
  | .setChan ch => placeField ch 0
  | .pushInfo byte => placeField byte 0
  | .rdInfo idx => placeField idx 0
  | .rdPhy idx => placeField idx 0
  | .rdSample idx => placeField idx 0
  | .rdReg n => placeField n 0
  | .clrStatus => 0#32
  | .crcInit v => placeField v 0
  | .crcInitLfsr w => placeField w 0
  | .crcBit b => placeField (BitVec.ofBool b) 0
  | .crcByte byte => placeField byte 0
  | .crcRun path => placeField (BitVec.ofBool path.toBit) 0
  | .whSeed => 0#32
  | .whBit b => placeField (BitVec.ofBool b) 0
  | .whByte byte => placeField byte 0
  | .whTbl37 idx byte => placeField idx 8 ||| placeField byte 0
  | .hdrAdv pktType txAdd rxAdd len =>
    placeField len 8 ||| placeField (BitVec.ofBool rxAdd) 6 ||| placeField (BitVec.ofBool txAdd) 5 |||
      placeField pktType 0
  | .hdrData llid nesn sn md len =>
    placeField len 8 ||| placeField (BitVec.ofBool md) 4 ||| placeField (BitVec.ofBool sn) 3 |||
      placeField (BitVec.ofBool nesn) 2 ||| placeField llid 0
  | .hopSca hop sca => placeField sca 5 ||| placeField hop 0
  | .llOpcode pktType => placeField pktType 0
  | .assemble path => placeField (BitVec.ofBool path.toBit) 0
  | .mod => 0#32
  | .chFreq ch => placeField ch 0

/-- The command word of a command (R90, R100): the opcode in the top byte, the operands below it. -/
def encode (i : Instr) : BitVec 32 := placeField i.opcode 24 ||| i.operandArea

end Sys2Proof
end

