-- ==== Sys2Proof/Config.lean ====
section
/-! DEFINITION. What an implementation fixes: the parameters the source fixes (spec/00_scope.md R7) and the type of
those it leaves open (R8). The defaults of the open ones are in Sys2Proof/Machine/Tables.lean. No value of this
hardware is unpredictable (spec/93_implementation_defined.md, end of part 2), so there is no free value. -/

namespace Sys2Proof

/-- `CHAN_MAX` (R7): the highest channel number. -/
abbrev chanMax : Nat := 39

/-- `LEAD_BYTES` (R7): the octets at the front of a packet that CRC and whitening skip. -/
abbrev leadBytes : Nat := 5

/-- `MAX_INFO_BYTE` (R7): the bound on `NUM_INFO_BYTE`. -/
abbrev maxInfoByte : Nat := 43

/-- `MAX_PHY_BYTE` (R7): the bound on the modulator's input in bytes. -/
abbrev maxPhyByte : Nat := 47

/-- `SETTLE` (R7): the zero samples on each side of the impulse train, and the samples beyond `4N` (R212, R221). -/
abbrev settle : Nat := 16

/-- `MAX_SAMPLE` (R7): 47 * 8 * 4 + 16 pairs. -/
abbrev maxSample : Nat := 1520

/-- The parameters the source leaves open (R8, `92_eei_decisions.md` "Parameters, in one place"). They are
configuration: no command writes them (R17). A machine carries its setting in `State.cfg` (log entry 5), so a claim
about every state is a claim about every setting. -/
structure Config where
  /-- `STRICT_RESERVED` (R258): true turns the two warnings into errors. -/
  strictReserved : Bool
  /-- `GAUSS_COEF[0..15]` (R214, R216). -/
  gaussCoef : Vector Int 16
  /-- `PHASE_BITS` (R210): the width of the phase accumulator. -/
  phaseBits : Nat
  /-- `AMP` (R223): the amplitude of the samples, which scales `COS_TAB` and `SIN_TAB` (R224; log entry 19). -/
  amp : Nat
  /-- `SAMPLE_BITS` (R223): the width of I and of Q. -/
  sampleBits : Nat
  /-- `COS_TAB` (R224), `2 ^ PHASE_BITS` entries. -/
  cosTab : List Int
  /-- `SIN_TAB` (R224), `2 ^ PHASE_BITS` entries. -/
  sinTab : List Int
  /-- `LL_OPCODE_TABLE` (R189): the opcodes of the `pkt_type` codes 11 to 24, in order. -/
  llOpcodeTable : Vector Byte 14
deriving DecidableEq, Repr

end Sys2Proof
end

