-- ==== Sys2Proof/Machine/Tables.lean ====
section
/-! DEFINITION. The constant tables of the block (spec/00_scope.md R8, R17) and the default setting of its parameters:
the CRC table (R148), the channel-37 whitening table (R167), the tap tables (R214, R216), the cosine and sine tables
(R224), the link-layer opcode table (R189). -/

namespace Sys2Proof

/-- R148: entries 0 to 31. -/
def crcTablePart0 : List (BitVec 24) :=
  [0x000000, 0x01B4C0, 0x036980, 0x02DD40, 0x06D300, 0x0767C0, 0x05BA80, 0x040E40,
   0x0DA600, 0x0C12C0, 0x0ECF80, 0x0F7B40, 0x0B7500, 0x0AC1C0, 0x081C80, 0x09A840,
   0x1B4C00, 0x1AF8C0, 0x182580, 0x199140, 0x1D9F00, 0x1C2BC0, 0x1EF680, 0x1F4240,
   0x16EA00, 0x175EC0, 0x158380, 0x143740, 0x103900, 0x118DC0, 0x135080, 0x12E440]

/-- R148: entries 32 to 63. -/
def crcTablePart1 : List (BitVec 24) :=
  [0x369800, 0x372CC0, 0x35F180, 0x344540, 0x304B00, 0x31FFC0, 0x332280, 0x329640,
   0x3B3E00, 0x3A8AC0, 0x385780, 0x39E340, 0x3DED00, 0x3C59C0, 0x3E8480, 0x3F3040,
   0x2DD400, 0x2C60C0, 0x2EBD80, 0x2F0940, 0x2B0700, 0x2AB3C0, 0x286E80, 0x29DA40,
   0x207200, 0x21C6C0, 0x231B80, 0x22AF40, 0x26A100, 0x2715C0, 0x25C880, 0x247C40]

/-- R148: entries 64 to 95. -/
def crcTablePart2 : List (BitVec 24) :=
  [0x6D3000, 0x6C84C0, 0x6E5980, 0x6FED40, 0x6BE300, 0x6A57C0, 0x688A80, 0x693E40,
   0x609600, 0x6122C0, 0x63FF80, 0x624B40, 0x664500, 0x67F1C0, 0x652C80, 0x649840,
   0x767C00, 0x77C8C0, 0x751580, 0x74A140, 0x70AF00, 0x711BC0, 0x73C680, 0x727240,
   0x7BDA00, 0x7A6EC0, 0x78B380, 0x790740, 0x7D0900, 0x7CBDC0, 0x7E6080, 0x7FD440]

/-- R148: entries 96 to 127. -/
def crcTablePart3 : List (BitVec 24) :=
  [0x5BA800, 0x5A1CC0, 0x58C180, 0x597540, 0x5D7B00, 0x5CCFC0, 0x5E1280, 0x5FA640,
   0x560E00, 0x57BAC0, 0x556780, 0x54D340, 0x50DD00, 0x5169C0, 0x53B480, 0x520040,
   0x40E400, 0x4150C0, 0x438D80, 0x423940, 0x463700, 0x4783C0, 0x455E80, 0x44EA40,
   0x4D4200, 0x4CF6C0, 0x4E2B80, 0x4F9F40, 0x4B9100, 0x4A25C0, 0x48F880, 0x494C40]

/-- R148: entries 128 to 159. -/
def crcTablePart4 : List (BitVec 24) :=
  [0xDA6000, 0xDBD4C0, 0xD90980, 0xD8BD40, 0xDCB300, 0xDD07C0, 0xDFDA80, 0xDE6E40,
   0xD7C600, 0xD672C0, 0xD4AF80, 0xD51B40, 0xD11500, 0xD0A1C0, 0xD27C80, 0xD3C840,
   0xC12C00, 0xC098C0, 0xC24580, 0xC3F140, 0xC7FF00, 0xC64BC0, 0xC49680, 0xC52240,
   0xCC8A00, 0xCD3EC0, 0xCFE380, 0xCE5740, 0xCA5900, 0xCBEDC0, 0xC93080, 0xC88440]

/-- R148: entries 160 to 191. -/
def crcTablePart5 : List (BitVec 24) :=
  [0xECF800, 0xED4CC0, 0xEF9180, 0xEE2540, 0xEA2B00, 0xEB9FC0, 0xE94280, 0xE8F640,
   0xE15E00, 0xE0EAC0, 0xE23780, 0xE38340, 0xE78D00, 0xE639C0, 0xE4E480, 0xE55040,
   0xF7B400, 0xF600C0, 0xF4DD80, 0xF56940, 0xF16700, 0xF0D3C0, 0xF20E80, 0xF3BA40,
   0xFA1200, 0xFBA6C0, 0xF97B80, 0xF8CF40, 0xFCC100, 0xFD75C0, 0xFFA880, 0xFE1C40]

/-- R148: entries 192 to 223. -/
def crcTablePart6 : List (BitVec 24) :=
  [0xB75000, 0xB6E4C0, 0xB43980, 0xB58D40, 0xB18300, 0xB037C0, 0xB2EA80, 0xB35E40,
   0xBAF600, 0xBB42C0, 0xB99F80, 0xB82B40, 0xBC2500, 0xBD91C0, 0xBF4C80, 0xBEF840,
   0xAC1C00, 0xADA8C0, 0xAF7580, 0xAEC140, 0xAACF00, 0xAB7BC0, 0xA9A680, 0xA81240,
   0xA1BA00, 0xA00EC0, 0xA2D380, 0xA36740, 0xA76900, 0xA6DDC0, 0xA40080, 0xA5B440]

/-- R148: entries 224 to 255. -/
def crcTablePart7 : List (BitVec 24) :=
  [0x81C800, 0x807CC0, 0x82A180, 0x831540, 0x871B00, 0x86AFC0, 0x847280, 0x85C640,
   0x8C6E00, 0x8DDAC0, 0x8F0780, 0x8EB340, 0x8ABD00, 0x8B09C0, 0x89D480, 0x886040,
   0x9A8400, 0x9B30C0, 0x99ED80, 0x985940, 0x9C5700, 0x9DE3C0, 0x9F3E80, 0x9E8A40,
   0x972200, 0x9696C0, 0x944B80, 0x95FF40, 0x91F100, 0x9045C0, 0x929880, 0x932C40]

/-- `CRC_TABLE[0..255]` (R148), the one table for which the two CRC paths agree (R147, R150; log entry 6). -/
def crcTable : List (BitVec 24) :=
  crcTablePart0 ++ crcTablePart1 ++ crcTablePart2 ++ crcTablePart3 ++
  crcTablePart4 ++ crcTablePart5 ++ crcTablePart6 ++ crcTablePart7

/-- `WH_TABLE37[0..41]` (R167), the keystream of channel 37 (R169; log entry 6). -/
def whTable37 : List (BitVec 8) :=
  [0x8D, 0xD2, 0x57, 0xA1, 0x3D, 0xA7, 0x66, 0xB0,
   0x75, 0x31, 0x11, 0x48, 0x96, 0x77, 0xF8, 0xE3,
   0x46, 0xE9, 0xAB, 0xD0, 0x9E, 0x53, 0x33, 0xD8,
   0xBA, 0x98, 0x08, 0x24, 0xCB, 0x3B, 0xFC, 0x71,
   0xA3, 0xF4, 0x55, 0x68, 0xCF, 0xA9, 0x19, 0x6C,
   0x5D, 0x4C]

/-- The default `GAUSS_COEF` (R214). -/
def gaussCoefDefault : Vector Int 16 :=
  #v[0, 0, 0, 0, 2, 11, 32, 53, 60, 53, 32, 11, 2, 0, 0, 0]

/-- The tap table of the second kind of symmetry, which a setting may hold instead (R216). -/
def gaussCoefAlternative : Vector Int 16 :=
  #v[0, 0, 0, 1, 5, 20, 44, 58, 58, 44, 20, 5, 1, 0, 0, 0]

/-- R224, the first quarter of the default `COS_TAB`: entries 0 to 63. -/
def cosQuarterPart0 : List Int :=
  [127, 127, 127, 127, 127, 127, 127, 127, 127, 127, 127, 127, 127, 127, 127, 126,
   126, 126, 126, 126, 126, 126, 126, 126, 126, 126, 125, 125, 125, 125, 125, 125,
   125, 124, 124, 124, 124, 124, 124, 123, 123, 123, 123, 123, 122, 122, 122, 122,
   122, 121, 121, 121, 121, 120, 120, 120, 120, 119, 119, 119, 118, 118, 118, 118]

/-- R224, the first quarter of the default `COS_TAB`: entries 64 to 127. -/
def cosQuarterPart1 : List Int :=
  [117, 117, 117, 116, 116, 116, 115, 115, 115, 114, 114, 114, 113, 113, 113, 112,
   112, 112, 111, 111, 111, 110, 110, 109, 109, 109, 108, 108, 107, 107, 106, 106,
   106, 105, 105, 104, 104, 103, 103, 102, 102, 102, 101, 101, 100, 100, 99, 99,
   98, 98, 97, 97, 96, 96, 95, 95, 94, 94, 93, 93, 92, 91, 91, 90]

/-- R224, the first quarter of the default `COS_TAB`: entries 128 to 191. -/
def cosQuarterPart2 : List Int :=
  [90, 89, 89, 88, 88, 87, 86, 86, 85, 85, 84, 84, 83, 82, 82, 81,
   81, 80, 79, 79, 78, 78, 77, 76, 76, 75, 74, 74, 73, 72, 72, 71,
   71, 70, 69, 69, 68, 67, 67, 66, 65, 65, 64, 63, 63, 62, 61, 61,
   60, 59, 58, 58, 57, 56, 56, 55, 54, 54, 53, 52, 51, 51, 50, 49]

/-- R224, the first quarter of the default `COS_TAB`: entries 192 to 255. -/
def cosQuarterPart3 : List Int :=
  [49, 48, 47, 46, 46, 45, 44, 44, 43, 42, 41, 41, 40, 39, 38, 38,
   37, 36, 35, 35, 34, 33, 32, 32, 31, 30, 29, 29, 28, 27, 26, 26,
   25, 24, 23, 22, 22, 21, 20, 19, 19, 18, 17, 16, 16, 15, 14, 13,
   12, 12, 11, 10, 9, 9, 8, 7, 6, 5, 5, 4, 3, 2, 2, 1]

/-- R224, the first quarter of the default `COS_TAB`: entries 256 to 256. -/
def cosQuarterPart4 : List Int :=
  [0]

/-- R224: `COS_TAB` for `p` in 0 to 256, as printed. -/
def cosQuarter : List Int :=
  cosQuarterPart0 ++ cosQuarterPart1 ++ cosQuarterPart2 ++ cosQuarterPart3 ++ cosQuarterPart4

/-- R224: `COS_TAB` for `p` in 0 to 512; `COS_TAB[p] = -COS_TAB[512 - p]` for `p` in 257 to 512. -/
def cosHalf : List Int := cosQuarter ++ (cosQuarter.take 256).reverse.map (fun v => -v)

/-- The default `COS_TAB` (R224); `COS_TAB[p] = COS_TAB[1024 - p]` for `p` in 513 to 1023. -/
def cosTabDefault : List Int := cosHalf ++ ((cosHalf.drop 1).take 511).reverse

/-- The default `SIN_TAB` (R224): `SIN_TAB[p] = COS_TAB[(p - 256) mod 1024]`. -/
def sinTabDefault : List Int := cosTabDefault.drop 768 ++ cosTabDefault.take 768

/-- The default `LL_OPCODE_TABLE` (R189), the opcodes of the `pkt_type` codes 11 to 24 in order. -/
def llOpcodeTableDefault : Vector (BitVec 8) 14 :=
  #v[0x00, 0x01, 0x02, 0x03, 0x04, 0x05, 0x06, 0x07, 0x08, 0x09, 0x0A, 0x0B, 0x0C, 0x0D]

/-- The default setting of every open parameter (R8). -/
def Config.default : Config where
  strictReserved := false
  gaussCoef := gaussCoefDefault
  phaseBits := 10
  amp := 127
  sampleBits := 8
  cosTab := cosTabDefault
  sinTab := sinTabDefault
  llOpcodeTable := llOpcodeTableDefault

end Sys2Proof
end

