-- ==== Sys2Proof/Machine/State.lean ====
section
/-! DEFINITION. The state of the block as plain data (spec/10_state.md R23, R34, R45, spec/30_encoding.md R102), the
reasons a step can stop, and the state after reset. -/

namespace Sys2Proof.Machine

/-- An I/Q pair of `SAMP` (R34, R225): two signed integers of `SAMPLE_BITS` bits. -/
structure Sample where
  i : Int
  q : Int
deriving DecidableEq, Repr

/-- A response (R91): what the port shows as `rsp_code` and `rsp_data` (R102). -/
structure Response where
  code : BitVec 8
  data : BitVec 32
deriving DecidableEq, Repr

/-- What the host does at the port (R102): it presents a command word, or it asserts `rst`. -/
inductive PortEvent where
  | command (w : BitVec 32)
  | reset
deriving DecidableEq, Repr

/-- The three buffers, each an address space of its own (R34, R60). -/
inductive BufferId where
  | info
  | phy
  | samp
deriving DecidableEq, Repr

/-- A buffer's contents (R34): index and value, the indices strictly rising (`Memory.wf`). An index that is not listed
has no value (R44; log entry 7). For the byte buffers an entry is a `Host.Cell`. -/
abbrev Memory (α : Type) := List (Nat × α)

/-- Why a run can stop. The spec gives no stop: its errors are responses (R255), and every command terminates (R266).
Each of these is raised only in a state that breaks `State.Inv` of Sys2Proof/Safety.lean, which no run reaches. -/
inductive Fault where
  /-- Raised by `RD_INFO`, `RD_PHY`, `RD_SAMPLE`, `CRC_RUN`, `ASSEMBLE` and `MOD` when an element their rule reads has no
  value (R44: "A model should give out-of-range elements no value"). Safe: the block goes on, the model stops. -/
  | unwrittenElement (buffer : BufferId) (idx : Nat)
  /-- Raised by the same commands when an element they read or write lies at or beyond the capacity of its buffer (R61:
  the index does not exist). Safe: the block has no such access. -/
  | noSuchElement (buffer : BufferId) (idx : Nat)
  /-- Raised by `MOD` when the setting's `COS_TAB` or `SIN_TAB` has no entry for a phase (R8: the tables have
  `2 ^ PHASE_BITS` entries). Safe: no legal setting lacks one. -/
  | configTable (idx : Nat)
deriving DecidableEq, Repr

/-- Why the model has no meaning for an instruction. -/
inductive Refusal where
  /-- Raised by an arm of `exec` that has no meaning yet; no arm raises it. Safe: the model stops. -/
  | notModelled (mnemonic : String)
deriving DecidableEq, Repr

/-- The state of the block: the eleven registers (R23), the three buffers (R34), the command port (R102), and the
setting of the parameters (R8, R17), which no step changes. -/
structure State where
  /-- `STATUS` (R25) -/
  status : BitVec 32
  /-- `LASTERR` (R23) -/
  lasterr : BitVec 8
  /-- `RES` (R27) -/
  res : BitVec 32
  /-- `CRC`, table convention (R28) -/
  crc : BitVec 24
  /-- `CRCINIT` (R30) -/
  crcInit : BitVec 24
  /-- `WH`, bit `p` is `state[p]` (R31) -/
  wh : BitVec 7
  /-- `CHAN` (R33) -/
  chan : BitVec 6
  /-- `NUM_INFO_BYTE` (R36) -/
  numInfoByte : BitVec 6
  /-- `NUM_PHY_BYTE` (R38) -/
  numPhyByte : BitVec 6
  /-- `NUM_PHY_SAMPLE` (R40) -/
  numPhySample : BitVec 11
  /-- `PHASE` (R41), the `PHASE_BITS`-bit value zero-extended (log entry 11) -/
  phase : BitVec 32
  /-- `INFO` (R34, R36) -/
  info : Memory (BitVec 8)
  /-- `PHY` (R34, R38) -/
  phy : Memory (BitVec 8)
  /-- `SAMP` (R34, R40) -/
  samp : Memory Sample
  /-- the response port: the response to the last command taken, none while `rsp_valid` is low (R102; log entry 2) -/
  rsp : Option Response
  /-- the command port and `rst`: what the host does next, oldest first (R102, R21; log entry 1) -/
  port : List PortEvent
  /-- the setting of the parameters (R8; log entry 5) -/
  cfg : Config
deriving DecidableEq, Repr

/-- The state after reset (R45, R281), the parameters at their defaults (R8), the buffers with no value in any element
(R44, R45), nothing at the port. -/
def State.reset : State where
  status := 0
  lasterr := 0
  res := 0
  crc := 0xAAAAAA
  crcInit := 0xAAAAAA
  wh := 0x53
  chan := 37
  numInfoByte := 0
  numPhyByte := 0
  numPhySample := 0
  phase := 0
  info := []
  phy := []
  samp := []
  rsp := none
  port := []
  cfg := Config.default

end Sys2Proof.Machine
end

