-- ==== Sys2Proof/Machine/Flags.lean ====
section
/-! DEFINITION. `STATUS` bits, errors and warnings with their codes and bits (spec/10_state.md R25,
spec/60_exceptions.md R250). -/

namespace Sys2Proof.Machine

/-- `v` with bit `i` set. -/
def setBit (v : BitVec 32) (i : Nat) : BitVec 32 := v ||| BitVec.twoPow 32 i

/-- `v` with bit `i` cleared. -/
def clearBit (v : BitVec 32) (i : Nat) : BitVec 32 := v &&& ~~~BitVec.twoPow 32 i

/-- `STATUS.ERR` (R25) -/
abbrev statusErr : Nat := 0

/-- `STATUS.WARN` (R25) -/
abbrev statusWarn : Nat := 1

/-- `STATUS.CRCAPP` (R25) -/
abbrev statusCrcApp : Nat := 2

/-- The errors (R250), codes 0x01 to 0x06. -/
inductive Err where
  | illegalCommand
  | payloadTooLarge
  | invalidChannel
  | indexOutOfRange
  | packetTooShort
  | tableChannelMismatch
deriving DecidableEq, Repr

/-- The warnings (R250), codes 0x81 and 0x82. -/
inductive Warning where
  | reservedPduType
  | reservedOpcode
deriving DecidableEq, Repr

/-- `code(E)` (R250) -/
def errCode : Err → BitVec 8
  | .illegalCommand => 0x01
  | .payloadTooLarge => 0x02
  | .invalidChannel => 0x03
  | .indexOutOfRange => 0x04
  | .packetTooShort => 0x05
  | .tableChannelMismatch => 0x06

/-- `bit(E)` (R250, R25) -/
def errBit : Err → Nat
  | .illegalCommand => 8
  | .payloadTooLarge => 9
  | .invalidChannel => 10
  | .indexOutOfRange => 11
  | .packetTooShort => 12
  | .tableChannelMismatch => 13

/-- `code(W)` (R250) -/
def warningCode : Warning → BitVec 8
  | .reservedPduType => 0x81
  | .reservedOpcode => 0x82

/-- `bit(W)` (R250, R25) -/
def warningBit : Warning → Nat
  | .reservedPduType => 16
  | .reservedOpcode => 17

/-- What `CLR_STATUS` leaves of `STATUS` (R130): bit 2, `CRCAPP`. -/
def clearSticky (status : BitVec 32) : BitVec 32 := status &&& 0x00000004#32

/-- `STATUS[2]` of a state (R25, R125). -/
def State.crcApp (s : State) : Bool := s.status.getLsbD statusCrcApp

end Sys2Proof.Machine
end

