-- ==== Sys2Proof/Machine/Operands.lean ====
section
/-! DEFINITION. Operand forms and the bit and byte views (spec/00_scope.md R9, R12, R13, spec/20_memory.md R63, R64,
spec/30_encoding.md R93, R98). -/

namespace Sys2Proof.Machine

/-- `zext_32(v)` (R9): every operand and result is widened with zeros (R93). -/
def zext32 {n : Nat} (v : BitVec n) : BitVec 32 := v.setWidth 32

/-- One bit as a 32-bit value (R9). -/
def bit32 (b : Bool) : BitVec 32 := if b then 1 else 0

/-- `intToBits(n, width)` (R12): element `i` is `n[i]`; the bits of `n` at and above `width` are dropped. -/
def intToBits (n width : Nat) : List Bool := (List.range width).map n.testBit

/-- The eight bits of a byte, least significant first (R13, R63). -/
def byteToBits (b : BitVec 8) : List Bool := intToBits b.toNat 8

/-- `bytesToBits` (R13, R35): element `8m + n` is bit `n` of byte `m`. -/
def bytesToBits (bs : List (BitVec 8)) : List Bool := bs.flatMap byteToBits

/-- The number whose bits, least significant first, are the sequence (R10, R13). -/
def bitsToNat : List Bool → Nat
  | [] => 0
  | b :: bs => (if b then 1 else 0) + 2 * bitsToNat bs

/-- Eight bits packed least significant first (R13). -/
def bitsToByte (bs : List Bool) : BitVec 8 := BitVec.ofNat 8 (bitsToNat bs)

/-- `bitsToBytes` (R13), the inverse of `bytesToBits` on sequences of a multiple of 8 bits. -/
def bitsToBytes : List Bool → List (BitVec 8)
  | b0 :: b1 :: b2 :: b3 :: b4 :: b5 :: b6 :: b7 :: rest =>
    bitsToByte [b0, b1, b2, b3, b4, b5, b6, b7] :: bitsToBytes rest
  | _ => []

/-- `rev24(v)` (R9): bit `k` is `v[23 - k]`. -/
def rev24 (v : BitVec 24) : BitVec 24 := v.reverse

/-- The three bytes of a CRC, low byte first (R64 (a), R29). -/
def crcToBytes (c : BitVec 24) : List (BitVec 8) :=
  [c.extractLsb' 0 8, c.extractLsb' 8 8, c.extractLsb' 16 8]

/-- `{ sext_16(q), sext_16(i) }` (R127): Q in the high half-word, I in the low. -/
def packSample (x : Sample) : BitVec 32 := BitVec.ofInt 16 x.q ++ BitVec.ofInt 16 x.i

/-- The packet type a code names (R98); the codes 25 to 31 name none. -/
def pktTypeOf (code : BitVec 5) : Option PktType :=
  [PktType.raw, .discovery, .ibeacon, .advInd, .advDirectInd, .advNonconnInd, .advScanInd, .scanReq, .scanRsp,
    .connectReq, .llData, .llConnectionUpdateReq, .llChannelMapReq, .llTerminateInd, .llEncReq, .llEncRsp,
    .llStartEncReq, .llStartEncRsp, .llUnknownRsp, .llFeatureReq, .llFeatureRsp, .llPauseEncReq, .llPauseEncRsp,
    .llVersionInd, .llRejectInd][code.toNat]?

end Sys2Proof.Machine
end

