-- ==== Sys2Proof/Machine/Ops.lean ====
section
/-! DEFINITION. The named operations over buffers and registers (spec/00_scope.md R11, spec/20_memory.md R61, R68):
reading and writing elements, answering a command (spec/30_encoding.md R91), raising an error and recording a warning
(spec/60_exceptions.md R255, R256, R258), acknowledging (R264), the command port and reset (R102, R280). -/

namespace Sys2Proof.Machine

/-- The capacity of a buffer in elements (R34, R61). -/
def capacity : BufferId → Nat
  | .info => 46
  | .phy => 47
  | .samp => maxSample

/-- The value listed at an index, none where no value stands (R44). -/
def Memory.read {α : Type} (m : Memory α) (idx : Nat) : Option α := m.lookup idx

/-- Consecutive values listed at the indices from `base` up. -/
def Memory.cellsFrom {α : Type} (base : Nat) : List α → Memory α
  | [] => []
  | v :: vs => (base, v) :: Memory.cellsFrom (base + 1) vs

/-- The contents after the values are written at the indices from `base` up, in rising order (R11, R134). -/
def Memory.write {α : Type} (m : Memory α) (base : Nat) (vs : List α) : Memory α :=
  m.filter (fun c => decide (c.1 < base)) ++
    (Memory.cellsFrom base vs ++ m.filter (fun c => decide (base + vs.length ≤ c.1)))

/-- The one canonical form: the indices strictly rising. -/
def Memory.wf {α : Type} : Memory α → Bool
  | [] => true
  | c :: rest => rest.all (fun d => decide (c.1 < d.1)) && Memory.wf rest

/-- Every index listed exists (R61). -/
def Memory.within {α : Type} (m : Memory α) (cap : Nat) : Bool := m.all (fun c => decide (c.1 < cap))

/-- `MemRead(B + idx, 1)` (R11): one element of a buffer. -/
def load {α : Type} (b : BufferId) (m : Memory α) (idx : Nat) : Except Fault α :=
  if idx < capacity b then
    match m.read idx with
    | some v => .ok v
    | none => .error (.unwrittenElement b idx)
  else .error (.noSuchElement b idx)

/-- `n` elements from index `base` up, in rising order (R69, R134). -/
def loadRange {α : Type} (b : BufferId) (m : Memory α) (base : Nat) : Nat → Except Fault (List α)
  | 0 => .ok []
  | n + 1 =>
    match load b m base with
    | .error f => .error f
    | .ok v =>
      match loadRange b m (base + 1) n with
      | .error f => .error f
      | .ok vs => .ok (v :: vs)

/-- `MemWrite(B + base, n, …)` (R11): the values written from index `base` up. -/
def store {α : Type} (b : BufferId) (m : Memory α) (base : Nat) (vs : List α) : Except Fault (Memory α) :=
  if base + vs.length ≤ capacity b then .ok (m.write base vs)
  else .error (.noSuchElement b (max base (capacity b)))

/-- The outcome of a command whose buffer access may stop. -/
def orStop {α : Type} (r : Except Fault α) (k : α → Host.Outcome State Fault Refusal) :
    Host.Outcome State Fault Refusal :=
  match r with
  | .ok a => k a
  | .error f => .fault f

/-- `respond data` with code 0x00 (R91): the command completed. -/
def State.respond (data : BitVec 32) (s : State) : State :=
  { s with rsp := some ⟨0x00#8, data⟩ }

/-- `RES <- r`, `respond RES` (R27). -/
def State.result (r : BitVec 32) (s : State) : State :=
  { s with res := r, rsp := some ⟨0x00#8, r⟩ }

/-- Abandoning a command (R255): `STATUS.ERR` and the condition's bit set, `LASTERR` the code, the response
(code, 0xFFFFFFFF), and nothing else changed. -/
def State.abandon (code : BitVec 8) (bit : Nat) (s : State) : State :=
  { s with
    status := setBit (setBit s.status statusErr) bit
    lasterr := code
    rsp := some ⟨code, 0xFFFFFFFF#32⟩ }

/-- `raise E` (R255, R250). The block has no saved pc, vector, mode or handler: the host reads the response. -/
def State.raise (e : Err) (s : State) : State := s.abandon (errCode e) (errBit e)

/-- `RES <- r`, `warn W`, `respond RES` with `STRICT_RESERVED = 0` (R256): the command completes in full. -/
def State.recordWarning (w : Warning) (r : BitVec 32) (s : State) : State :=
  { s with
    res := r
    status := setBit (setBit s.status statusWarn) (warningBit w)
    rsp := some ⟨warningCode w, r⟩ }

/-- `RES <- r`, `warn W`, `respond RES`: R256, or the rejection of R258 where `STRICT_RESERVED = 1`. -/
def State.warn (w : Warning) (r : BitVec 32) (s : State) : State :=
  if s.cfg.strictReserved then s.abandon (warningCode w) (warningBit w)
  else s.recordWarning w r

/-- The acknowledgement of errors and warnings (R264, R130): every sticky flag and `LASTERR` cleared, `CRCAPP` kept.
There is no trap return, because nothing was entered (R262). -/
def State.acknowledge (s : State) : State :=
  { s with status := clearSticky s.status, lasterr := 0 }

/-- `zext_32` of register `n` (R129, R23); the numbers 11 to 15 name no register. -/
def State.readReg (s : State) (n : BitVec 4) : Option (BitVec 32) :=
  [zext32 s.status, zext32 s.lasterr, zext32 s.res, zext32 s.crc, zext32 s.crcInit, zext32 s.wh, zext32 s.chan,
    zext32 s.numInfoByte, zext32 s.numPhyByte, zext32 s.numPhySample, s.phase][n.toNat]?

/-- Taking the next event of the port (R102): the oldest, and the state without it; none while the host presents
nothing. -/
def State.takeEvent (s : State) : Option (PortEvent × State) :=
  match s.port with
  | [] => none
  | e :: rest => some (e, { s with port := rest })

/-- The host presents a command word ahead of whatever it presents later (R102). -/
def State.presentCommand (s : State) (w : BitVec 32) : State :=
  { s with port := .command w :: s.port }

/-- `rst` (R102, R280): the state of R45; the parameters are no state (R17), and what the host presents next is the
host's (R21; log entry 4). -/
def State.applyReset (s : State) : State :=
  { State.reset with cfg := s.cfg, port := s.port }

end Sys2Proof.Machine
end

