-- ==== Sys2Proof/Machine/Crc.lean ====
section
/-! DEFINITION. The CRC-24 engine, both paths (spec/41_crc.md). -/

namespace Sys2Proof.Machine

/-- The positions of the LFSR that receive the feedback bit, as bits of `CRC` (R145): bit `23 - k` for `k` in
{0, 1, 3, 4, 6, 9, 10} (R143, `CRC_TAPS` of R7). -/
def crcFeedback : BitVec 24 := 0xDA6000#24

/-- `crc_bit(c, b)` (R140, R143) in the integer form of R145 (log entry 16). -/
def crcBit (c : BitVec 24) (b : Bool) : BitVec 24 :=
  (c >>> 1) ^^^ (if (c.getLsbD 0 ^^ b) then crcFeedback else 0)

/-- The LFSR view of `CRC` (R28): `state[p] = CRC[23 - p]`. -/
def lfsrState (c : BitVec 24) (p : Nat) : Bool := c.getLsbD (23 - p)

/-- `CRC_TABLE[i]` (R148). -/
def crcTableEntry (i : BitVec 8) : BitVec 24 := crcTable.getD i.toNat 0

/-- `crc_byte(c, x)` (R140, R146): one byte through the table, masked to 24 bits. -/
def crcByte (c : BitVec 24) (x : BitVec 8) : BitVec 24 :=
  (crcTableEntry (c.setWidth 8 ^^^ x) ^^^ (c >>> 8)) &&& 0xFFFFFF#24

/-- One byte through the bit-serial path, least significant bit first (R150, R151). -/
def crcByteSerial (c : BitVec 24) (x : BitVec 8) : BitVec 24 := (byteToBits x).foldl crcBit c

/-- One byte through the chosen path (R151, R200). -/
def crcStep : Path → BitVec 24 → BitVec 8 → BitVec 24
  | .bitSerial => crcByteSerial
  | .table => crcByte

/-- A byte sequence through the chosen path (R151, R200). -/
def crcOver (path : Path) (c : BitVec 24) (body : List (BitVec 8)) : BitVec 24 := body.foldl (crcStep path) c

/-- `CRC_INIT v` (R141). -/
def execCrcInit (v : BitVec 24) (s : State) : Host.Outcome State Fault Refusal :=
  .next (({ s with crcInit := v, crc := v } : State).respond 0)

/-- `CRC_INIT_LFSR w` (R142). -/
def execCrcInitLfsr (w : BitVec 24) (s : State) : Host.Outcome State Fault Refusal :=
  .next (({ s with crcInit := rev24 w, crc := rev24 w } : State).respond 0)

/-- `CRC_BIT b` (R143). -/
def execCrcBit (b : Bool) (s : State) : Host.Outcome State Fault Refusal :=
  .next (({ s with crc := crcBit s.crc b } : State).respond (zext32 (crcBit s.crc b)))

/-- `CRC_BYTE byte` (R146). -/
def execCrcByte (byte : Byte) (s : State) : Host.Outcome State Fault Refusal :=
  .next (({ s with crc := crcByte s.crc byte } : State).respond (zext32 (crcByte s.crc byte)))

/-- `CRC_RUN path` (R151): indices 5 to `NUM_INFO_BYTE - 1` of `INFO`, from `CRCINIT`; none for 5 bytes or fewer. -/
def execCrcRun (path : Path) (s : State) : Host.Outcome State Fault Refusal :=
  orStop (loadRange .info s.info leadBytes (s.numInfoByte.toNat - leadBytes)) fun body =>
    .next (({ s with crc := crcOver path s.crcInit body } : State).respond
      (zext32 (crcOver path s.crcInit body)))

end Sys2Proof.Machine
end

