-- ==== Sys2Proof/Machine/Whitener.lean ====
section
/-! DEFINITION. The whitener, LFSR and channel-37 table (spec/42_whitener.md). -/

namespace Sys2Proof.Machine

/-- `wh_seed(ch)` (R160): `[1, ch5, ch4, ch3, ch2, ch1, ch0]` from `state[0]` to `state[6]`. -/
def whSeed (ch : BitVec 6) : BitVec 7 :=
  BitVec.ofBoolListLE
    [true, ch.getLsbD 5, ch.getLsbD 4, ch.getLsbD 3, ch.getLsbD 2, ch.getLsbD 1, ch.getLsbD 0]

/-- `wh_step` (R161), the new state listed from `new[0]` to `new[6]`; it reads no data (R171). -/
def whStep (w : BitVec 7) : BitVec 7 :=
  BitVec.ofBoolListLE
    [w.getLsbD 6, w.getLsbD 0, w.getLsbD 1, w.getLsbD 2, (w.getLsbD 3 ^^ w.getLsbD 6), w.getLsbD 4, w.getLsbD 5]

/-- The output bit `state[6] XOR input_bit` (R162), from the state before the update. -/
def whOut (w : BitVec 7) (b : Bool) : Bool := w.getLsbD 6 ^^ b

/-- A bit sequence whitened in order (R162, R170): the output bits and the state after them. -/
def whitenBits : BitVec 7 → List Bool → List Bool × BitVec 7
  | w, [] => ([], w)
  | w, b :: bs => (whOut w b :: (whitenBits (whStep w) bs).1, (whitenBits (whStep w) bs).2)

/-- `wh_byte` (R164): eight bit steps, bit 0 of the byte first. -/
def whitenByte (w : BitVec 7) (x : BitVec 8) : BitVec 8 × BitVec 7 :=
  (bitsToByte (whitenBits w (byteToBits x)).1, (whitenBits w (byteToBits x)).2)

/-- Bytes whitened in order through the LFSR (R200 step 2, path 0). -/
def whitenBytes : BitVec 7 → List (BitVec 8) → List (BitVec 8) × BitVec 7
  | w, [] => ([], w)
  | w, x :: xs =>
    ((whitenByte w x).1 :: (whitenBytes (whitenByte w x).2 xs).1, (whitenBytes (whitenByte w x).2 xs).2)

/-- Bytes whitened in order through the channel-37 table (R200 step 2, path 1). -/
def whitenBytesTable (xs : List (BitVec 8)) : List (BitVec 8) := List.zipWith (· ^^^ ·) xs whTable37

/-- `WH_SEED` (R160). -/
def execWhSeed (s : State) : Host.Outcome State Fault Refusal :=
  .next (({ s with wh := whSeed s.chan } : State).respond (zext32 (whSeed s.chan)))

/-- `WH_BIT b` (R162). -/
def execWhBit (b : Bool) (s : State) : Host.Outcome State Fault Refusal :=
  .next (({ s with wh := whStep s.wh } : State).result (bit32 (whOut s.wh b)))

/-- `WH_BYTE byte` (R164). -/
def execWhByte (byte : Byte) (s : State) : Host.Outcome State Fault Refusal :=
  .next (({ s with wh := (whitenByte s.wh byte).2 } : State).result (zext32 (whitenByte s.wh byte).1))

/-- `WH_TBL37 idx, byte` (R168): the channel-37 keystream whatever `CHAN` holds; an index of 42 or more names no entry. -/
def execWhTbl37 (idx : BitVec 6) (byte : Byte) (s : State) : Host.Outcome State Fault Refusal :=
  match whTable37[idx.toNat]? with
  | none => .next (s.raise .indexOutOfRange)
  | some k => .next (s.result (zext32 (byte ^^^ k)))

end Sys2Proof.Machine
end

