-- ==== Sys2Proof/Machine/Assembler.lean ====
section
/-! DEFINITION. The packet assembler (spec/44_assembler.md). -/

namespace Sys2Proof.Machine

/-- Step 2 of R200: body and CRC whitened, with `WH` after it. Path 0 seeds and runs the LFSR; path 1 leaves `WH`
alone (R205). -/
def whitenRegion (path : Path) (s : State) (xs : List (BitVec 8)) : List (BitVec 8) × BitVec 7 :=
  match path with
  | .bitSerial => whitenBytes (whSeed s.chan) xs
  | .table => (whitenBytesTable xs, s.wh)

/-- `ASSEMBLE path` (R200 to R202): the CRC over `INFO[5 .. n-1]`, appended low byte first; body and CRC whitened into
`PHY` at the same offset; the lead bytes verbatim; the counts and `CRCAPP`. -/
def execAssemble (path : Path) (s : State) : Host.Outcome State Fault Refusal :=
  if s.numInfoByte.toNat < leadBytes then .next (s.raise .packetTooShort)
  else if path = .table ∧ s.chan ≠ 37 then .next (s.raise .tableChannelMismatch)
  else
    orStop (loadRange .info s.info 0 s.numInfoByte.toNat) fun bytes =>
      let crc := crcOver path s.crcInit (bytes.drop leadBytes)
      orStop (store .info s.info s.numInfoByte.toNat (crcToBytes crc)) fun info =>
        let region := whitenRegion path s (bytes.drop leadBytes ++ crcToBytes crc)
        orStop (store .phy s.phy 0 (bytes.take leadBytes ++ region.1)) fun phy =>
          .next (({ s with
            crc := crc
            wh := region.2
            info := info
            phy := phy
            numPhyByte := s.numInfoByte + 3
            status := setBit s.status statusCrcApp } : State).respond (zext32 (s.numInfoByte + 3)))

end Sys2Proof.Machine
end

