-- ==== Sys2Proof/Machine/Buffer.lean ====
section
/-! DEFINITION. Packet buffer and register commands (spec/40_buffer_commands.md). -/

namespace Sys2Proof.Machine

/-- `PKT_CLR` (R121): a fresh packet; the buffers are not erased, and every register but the counts and `CRCAPP` stays. -/
def execPktClr (s : State) : Host.Outcome State Fault Refusal :=
  .next (({ s with
    numInfoByte := 0
    numPhyByte := 0
    numPhySample := 0
    status := clearBit s.status statusCrcApp } : State).respond 0)

/-- `SET_CHAN ch` (R122): `WH` is not reseeded. -/
def execSetChan (ch : BitVec 6) (s : State) : Host.Outcome State Fault Refusal :=
  if chanMax < ch.toNat then .next (s.raise .invalidChannel)
  else .next (({ s with chan := ch } : State).respond 0)

/-- `PUSH_INFO byte` (R123). -/
def execPushInfo (byte : Byte) (s : State) : Host.Outcome State Fault Refusal :=
  if maxInfoByte ≤ s.numInfoByte.toNat then .next (s.raise .payloadTooLarge)
  else orStop (store .info s.info s.numInfoByte.toNat [byte]) fun info =>
    .next (({ s with
      info := info
      numInfoByte := s.numInfoByte + 1
      status := clearBit s.status statusCrcApp } : State).respond 0)

/-- The first index `RD_INFO` does not reach (R125): the CRC bytes count while `CRCAPP` is 1. -/
def infoLimit (s : State) : Nat := s.numInfoByte.toNat + (if s.crcApp then 3 else 0)

/-- `RD_INFO idx` (R125). -/
def execRdInfo (idx : BitVec 6) (s : State) : Host.Outcome State Fault Refusal :=
  if infoLimit s ≤ idx.toNat then .next (s.raise .indexOutOfRange)
  else orStop (load .info s.info idx.toNat) fun b => .next (s.respond (zext32 b))

/-- `RD_PHY idx` (R126). -/
def execRdPhy (idx : BitVec 6) (s : State) : Host.Outcome State Fault Refusal :=
  if s.numPhyByte.toNat ≤ idx.toNat then .next (s.raise .indexOutOfRange)
  else orStop (load .phy s.phy idx.toNat) fun b => .next (s.respond (zext32 b))

/-- `RD_SAMPLE idx` (R127): the read does not consume the sample (R42). -/
def execRdSample (idx : BitVec 11) (s : State) : Host.Outcome State Fault Refusal :=
  if s.numPhySample.toNat ≤ idx.toNat then .next (s.raise .indexOutOfRange)
  else orStop (load .samp s.samp idx.toNat) fun x => .next (s.respond (packSample x))

/-- `RD_REG n` (R129). The decoder already refuses the words with `n > 10` (R95 (c)); both raise the same error. -/
def execRdReg (n : BitVec 4) (s : State) : Host.Outcome State Fault Refusal :=
  match s.readReg n with
  | some v => .next (s.respond v)
  | none => .next (s.raise .illegalCommand)

/-- `CLR_STATUS` (R130). -/
def execClrStatus (s : State) : Host.Outcome State Fault Refusal :=
  .next (s.acknowledge.respond 0)

end Sys2Proof.Machine
end

