-- ==== Sys2Proof/Machine/ChanFreq.lean ====
section
/-! DEFINITION. The channel-to-frequency map (spec/46_chan_freq.md). -/

namespace Sys2Proof.Machine

/-- The centre frequency of a channel in hertz (R240), none for a channel above 39. -/
def chanFreq (ch : Nat) : Option Nat :=
  if ch = 37 then some 2402000000
  else if ch = 38 then some 2426000000
  else if ch = 39 then some 2480000000
  else if ch ≤ 10 then some (2404000000 + 2000000 * ch)
  else if ch ≤ 36 then some (2428000000 + 2000000 * (ch - 11))
  else none

/-- `CH_FREQ ch` (R240): it maps its operand, not `CHAN`. -/
def execChFreq (ch : BitVec 8) (s : State) : Host.Outcome State Fault Refusal :=
  match chanFreq ch.toNat with
  | some f => .next (s.result (BitVec.ofNat 32 f))
  | none => .next (s.raise .invalidChannel)

end Sys2Proof.Machine
end

