-- ==== Sys2Proof/Machine/Gfsk.lean ====
section
/-! DEFINITION. The GFSK modulator (spec/45_gfsk.md). The functions take any bit sequence, so that the rules can be
checked on sequences shorter than a byte (spec/95_test_vectors.md section 2.6). -/

namespace Sys2Proof.Machine

/-- The impulse of a bit and the zeros up to the next symbol (R212): 4 samples per symbol. -/
def symbolImpulse (b : Bool) : List Int := [if b then 1 else -1, 0, 0, 0]

/-- The impulse train `x` of `4N + 32` elements (R212). -/
def impulseTrain (bits : List Bool) : List Int :=
  List.replicate settle 0 ++ (bits.flatMap symbolImpulse ++ List.replicate settle 0)

/-- The sum of the products of two sequences, element by element, as far as the shorter goes. -/
def sumOfProducts (c x : List Int) : Int := (List.zipWith (· * ·) c x).sum

/-- The sums of the coefficients over the first `n` positions of `x`, one element further each time. -/
def slidingDot (c : List Int) : Nat → List Int → List Int
  | 0, _ => []
  | n + 1, x => sumOfProducts c x :: slidingDot c n x.tail

/-- `acc[0 .. 4N + 14]` (R213): the tap `C[j]` falls on `x[i + 15 - j]`, so the taps are taken last first
(log entry 17). -/
def phaseIncrements (cfg : Config) (bits : List Bool) : List Int :=
  slidingDot cfg.gaussCoef.toList.reverse (4 * bits.length + 15) (impulseTrain bits)

/-- The phases from `p` on (R218): each is the one before plus an increment, modulo `P`, non-negative (R9). -/
def phasesFrom (P p : Nat) : List Int → List Nat
  | [] => [p]
  | a :: rest => p :: phasesFrom P ((p + a) % P).toNat rest

/-- `phase[0 .. 4N + 15]` (R218): every `MOD` starts from 0. -/
def phaseSeq (cfg : Config) (bits : List Bool) : List Nat :=
  phasesFrom (2 ^ cfg.phaseBits) 0 (phaseIncrements cfg bits)

/-- `rnd` (R223): to the nearest integer, a tie going away from zero. -/
def rnd {K : Type} [Field K] [LinearOrder K] [FloorRing K] (v : K) : Int :=
  if 0 ≤ v then ⌊v + 1 / 2⌋ else -⌊-v + 1 / 2⌋

/-- `COS_TAB` as R224 determines it by `AMP` and `PHASE_BITS`: entry `p` of `P` is `rnd(AMP * cos(2 * pi * p / P))`. The
table is data of the setting (R8); this says which data is legal. -/
def isCosTab (amp phaseBits : Nat) (tab : List Int) : Prop :=
  tab.length = 2 ^ phaseBits ∧
    ∀ p : Nat, p < 2 ^ phaseBits → tab[p]? = some (rnd ((amp : ℝ) * Real.cos (2 * Real.pi * p / 2 ^ phaseBits)))

/-- `SIN_TAB` as R224 determines it: entry `p` of `P` is `rnd(AMP * sin(2 * pi * p / P))`. -/
def isSinTab (amp phaseBits : Nat) (tab : List Int) : Prop :=
  tab.length = 2 ^ phaseBits ∧
    ∀ p : Nat, p < 2 ^ phaseBits → tab[p]? = some (rnd ((amp : ℝ) * Real.sin (2 * Real.pi * p / 2 ^ phaseBits)))

/-- A value as a signed integer of `SAMPLE_BITS` bits (R225, R223; log entry 10). -/
def narrow (cfg : Config) (v : Int) : Int := v.bmod (2 ^ cfg.sampleBits)

/-- The sample of a phase (R225): `(COS_TAB[p], SIN_TAB[p])`. -/
def sampleAt (cfg : Config) (p : Nat) : Except Fault Sample :=
  match cfg.cosTab[p]?, cfg.sinTab[p]? with
  | some c, some d => .ok ⟨narrow cfg c, narrow cfg d⟩
  | _, _ => .error (.configTable p)

/-- The samples of a phase sequence, in order (R225). -/
def samplesOf (cfg : Config) : List Nat → Except Fault (List Sample)
  | [] => .ok []
  | p :: ps =>
    match sampleAt cfg p with
    | .error f => .error f
    | .ok x =>
      match samplesOf cfg ps with
      | .error f => .error f
      | .ok xs => .ok (x :: xs)

/-- `MOD` (R220): all of `PHY` modulated into `SAMP`; more than 376 bits raise `PayloadTooLarge` before any sample is
written. `4N + 16 = 32 * NUM_PHY_BYTE + 16` (R221). -/
def execMod (s : State) : Host.Outcome State Fault Refusal :=
  if 8 * maxPhyByte < 8 * s.numPhyByte.toNat then .next (s.raise .payloadTooLarge)
  else
    orStop (loadRange .phy s.phy 0 s.numPhyByte.toNat) fun bytes =>
      let phases := phaseSeq s.cfg (bytesToBits bytes)
      orStop (samplesOf s.cfg phases) fun xs =>
        orStop (store .samp s.samp 0 xs) fun samp =>
          let count := 32 * s.numPhyByte.toNat + settle
          .next (({ s with
            samp := samp
            phase := BitVec.ofNat 32 (phases.getLastD 0)
            numPhySample := BitVec.ofNat 11 count } : State).respond (BitVec.ofNat 32 count))

end Sys2Proof.Machine
end

