-- ==== Sys2Proof/Machine/Pdu.lean ====
section
/-! DEFINITION. The PDU header encoders (spec/43_pdu_builder.md). -/

namespace Sys2Proof.Machine

/-- `adv_type_code` (R182); 0xF for any other type and for a code that names no type (R98). -/
def advTypeCode : Option PktType → BitVec 4
  | some .advInd => 0
  | some .ibeacon => 0
  | some .advDirectInd => 1
  | some .advNonconnInd => 2
  | some .discovery => 2
  | some .scanReq => 3
  | some .scanRsp => 4
  | some .connectReq => 5
  | some .advScanInd => 6
  | _ => 0xF

/-- The advertising PDU header (R180, R181) as the 32-bit value of `RES`. -/
def advHeader (code : BitVec 4) (txAdd rxAdd : Bool) (len : BitVec 8) : BitVec 32 :=
  zext32 code ||| (bit32 txAdd <<< 6) ||| (bit32 rxAdd <<< 7) ||| (zext32 len <<< 8)

/-- The data-channel PDU header (R184, R185) as the 32-bit value of `RES`. -/
def dataHeader (llid : BitVec 2) (nesn sn md : Bool) (len : BitVec 8) : BitVec 32 :=
  zext32 llid ||| (bit32 nesn <<< 2) ||| (bit32 sn <<< 3) ||| (bit32 md <<< 4) ||| (zext32 len <<< 8)

/-- The hop and SCA octet (R187) as the 32-bit value of `RES`. -/
def hopScaOctet (hop : BitVec 5) (sca : BitVec 3) : BitVec 32 := zext32 hop ||| (zext32 sca <<< 5)

/-- `LL_OPCODE_TABLE[type]` for the control sub-types, the codes 11 to 24 (R189, R190). -/
def llOpcodeOf (cfg : Config) (code : BitVec 5) : Option (BitVec 8) :=
  if 11 ≤ code.toNat then cfg.llOpcodeTable.toList[code.toNat - 11]? else none

/-- `HDR_ADV type, txAdd, rxAdd, len` (R181): the length check before the type's warning (R260). -/
def execHdrAdv (pktType : BitVec 5) (txAdd rxAdd : Bool) (len : BitVec 8) (s : State) :
    Host.Outcome State Fault Refusal :=
  if maxInfoByte < len.toNat then .next (s.raise .payloadTooLarge)
  else if advTypeCode (pktTypeOf pktType) = 0xF then
    .next (s.warn .reservedPduType (advHeader (advTypeCode (pktTypeOf pktType)) txAdd rxAdd len))
  else .next (s.result (advHeader (advTypeCode (pktTypeOf pktType)) txAdd rxAdd len))

/-- `HDR_DATA llid, nesn, sn, md, len` (R185): the length field is 5 bits wide. -/
def execHdrData (llid : BitVec 2) (nesn sn md : Bool) (len : BitVec 8) (s : State) :
    Host.Outcome State Fault Refusal :=
  if 31 < len.toNat then .next (s.raise .payloadTooLarge)
  else .next (s.result (dataHeader llid nesn sn md len))

/-- `HOP_SCA hop, sca` (R187). -/
def execHopSca (hop : BitVec 5) (sca : BitVec 3) (s : State) : Host.Outcome State Fault Refusal :=
  .next (s.result (hopScaOctet hop sca))

/-- `LL_OPCODE type` (R190): 0xFF and a warning for a type that is no control sub-type. -/
def execLlOpcode (pktType : BitVec 5) (s : State) : Host.Outcome State Fault Refusal :=
  match llOpcodeOf s.cfg pktType with
  | some o => .next (s.result (zext32 o))
  | none => .next (s.warn .reservedOpcode 0x000000FF#32)

end Sys2Proof.Machine
end

