-- ==== Sys2Proof/Machine/Dispatch.lean ====
section
/-! DEFINITION. One arm per command (spec/30_encoding.md R94), in the order of spec/opcode_table.json. -/

namespace Sys2Proof.Machine

def exec (i : Instr) (s : State) : Host.Outcome State Fault Refusal :=
  match i with
  | .pktClr => Sys2Proof.Machine.execPktClr s
  | .setChan ch => Sys2Proof.Machine.execSetChan ch s
  | .pushInfo byte => Sys2Proof.Machine.execPushInfo byte s
  | .rdInfo idx => Sys2Proof.Machine.execRdInfo idx s
  | .rdPhy idx => Sys2Proof.Machine.execRdPhy idx s
  | .rdSample idx => Sys2Proof.Machine.execRdSample idx s
  | .rdReg n => Sys2Proof.Machine.execRdReg n s
  | .clrStatus => Sys2Proof.Machine.execClrStatus s
  | .crcInit v => Sys2Proof.Machine.execCrcInit v s
  | .crcInitLfsr w => Sys2Proof.Machine.execCrcInitLfsr w s
  | .crcBit b => Sys2Proof.Machine.execCrcBit b s
  | .crcByte byte => Sys2Proof.Machine.execCrcByte byte s
  | .crcRun path => Sys2Proof.Machine.execCrcRun path s
  | .whSeed => Sys2Proof.Machine.execWhSeed s
  | .whBit b => Sys2Proof.Machine.execWhBit b s
  | .whByte byte => Sys2Proof.Machine.execWhByte byte s
  | .whTbl37 idx byte => Sys2Proof.Machine.execWhTbl37 idx byte s
  | .hdrAdv pktType txAdd rxAdd len => Sys2Proof.Machine.execHdrAdv pktType txAdd rxAdd len s
  | .hdrData llid nesn sn md len => Sys2Proof.Machine.execHdrData llid nesn sn md len s
  | .hopSca hop sca => Sys2Proof.Machine.execHopSca hop sca s
  | .llOpcode pktType => Sys2Proof.Machine.execLlOpcode pktType s
  | .assemble path => Sys2Proof.Machine.execAssemble path s
  | .mod => Sys2Proof.Machine.execMod s
  | .chFreq ch => Sys2Proof.Machine.execChFreq ch s

end Sys2Proof.Machine
end

