-- ==== Sys2Proof/Machine/Step.lean ====
section
/-! DEFINITION. One step of the block: one command of the port from its word to its response (spec/20_memory.md R70,
spec/30_encoding.md R102). -/

namespace Sys2Proof.Machine

/-- One step. An illegal word raises `IllegalCommand`, before any command rule runs (R251); `rst` gives the state of
R45; while the host presents nothing the block waits (R21; log entry 3). -/
def step (s : State) : Host.Outcome State Fault Refusal :=
  match s.takeEvent with
  | none => .next s
  | some (.reset, t) => .next t.applyReset
  | some (.command w, t) =>
    match decode w with
    | .ok i => exec i t
    | .error _ => .next (t.raise .illegalCommand)

/-- `s` with the instruction that opcode_table.json numbers as `w` presented at the command port, so that the next step
takes it (log entry 1). -/
def State.withFetchWord (s : State) (nbits w : Nat) : State := s.presentCommand (tableWord nbits w)

end Sys2Proof.Machine
end

