-- ==== Sys2Proof/Safety.lean ====
section
/-! DEFINITION. What a legal setting of the parameters is (spec/92_eei_decisions.md, "Parameters, in one place"), the
invariant of the block's states (the invariants spec/10_state.md and spec/60_exceptions.md name), and the terms claims
are stated in. -/

namespace Sys2Proof.Machine

/-- A setting the spec allows (`92_eei_decisions.md`, "Parameters, in one place"). Any `GAUSS_COEF` of 16 integers is one
(R216). -/
structure ConfigWf (c : Config) : Prop where
  /-- `PHASE` fits the 32 bits `RD_REG` returns (R23; log entry 11) -/
  phaseBitsLe : c.phaseBits ≤ 32
  /-- `1 <= AMP <= 2^(SAMPLE_BITS-1) - 1` (R223) -/
  ampPos : 1 ≤ c.amp
  ampLt : c.amp + 1 ≤ 2 ^ (c.sampleBits - 1)
  /-- `SAMPLE_BITS <= 16` (R223) -/
  sampleBitsLe : c.sampleBits ≤ 16
  /-- `COS_TAB` and `SIN_TAB` are determined by `AMP` and `PHASE_BITS` (R224) -/
  cosTab : isCosTab c.amp c.phaseBits c.cosTab
  sinTab : isSinTab c.amp c.phaseBits c.sinTab
  /-- `LL_OPCODE_TABLE` is an injective map into 0x00 to 0x0D (R189) -/
  llOpcodeLe : ∀ o ∈ c.llOpcodeTable.toList, o.toNat ≤ 0x0D
  llOpcodeNodup : c.llOpcodeTable.toList.Nodup

/-- Every index below `n` holds a value. -/
def filledTo {α : Type} (m : Memory α) (n : Nat) : Prop := ∀ idx, idx < n → ∃ v, m.read idx = some v

/-- The bits of `STATUS` that R25 names; every other bit reads 0 (R24, S5). -/
def statusNamedBits : BitVec 32 := 0x00033F07#32

/-- Some error of R250 is recorded: one of `STATUS[13:8]` is set. -/
def someErrorFlag (status : BitVec 32) : Bool := decide (status &&& 0x00003F00#32 ≠ 0)

/-- Some warning of R250 is recorded: `STATUS[16]` or `STATUS[17]` is set. -/
def someWarningFlag (status : BitVec 32) : Bool := decide (status &&& 0x00030000#32 ≠ 0)

/-- The response codes of R250. -/
def responseCodes : List (BitVec 8) := [0x00, 0x01, 0x02, 0x03, 0x04, 0x05, 0x06, 0x81, 0x82]

/-- The invariant of the block's states. -/
structure State.Inv (s : State) : Prop where
  /-- the setting is one the spec allows (R8) -/
  cfgWf : ConfigWf s.cfg
  /-- the buffers keep their canonical form -/
  infoWf : s.info.wf = true
  phyWf : s.phy.wf = true
  sampWf : s.samp.wf = true
  /-- no element beyond a capacity (R61) -/
  infoWithin : s.info.within (capacity .info) = true
  phyWithin : s.phy.within (capacity .phy) = true
  sampWithin : s.samp.within (capacity .samp) = true
  /-- the bounds of the counts (R36, R38, R132 (d)) -/
  infoBound : s.numInfoByte.toNat ≤ 43
  phyBound : s.numPhyByte.toNat ≤ 46
  sampBound : s.numPhySample.toNat ≤ 1488
  /-- every element of the valid range holds a value (R36, R38, R40, R61) -/
  infoFilled : filledTo s.info (infoLimit s)
  phyFilled : filledTo s.phy s.numPhyByte.toNat
  sampFilled : filledTo s.samp s.numPhySample.toNat
  /-- samples lie in -AMP to +AMP (R132 (f)) -/
  sampRange : ∀ c ∈ s.samp, c.2.i.natAbs ≤ s.cfg.amp ∧ c.2.q.natAbs ≤ s.cfg.amp
  /-- `CHAN <= 39` (R33) -/
  chanBound : s.chan.toNat ≤ 39
  /-- `WH != 0` (R32) -/
  whNonzero : s.wh ≠ 0
  /-- `PHASE` is a `PHASE_BITS`-bit value (R41) -/
  phaseBound : s.phase.toNat < 2 ^ s.cfg.phaseBits
  /-- the unnamed bits of `STATUS` are 0 (R24, R25) -/
  statusReserved : s.status &&& ~~~statusNamedBits = 0
  /-- `ERR` is set together with an error's bit, which with `STRICT_RESERVED` may be a warning's (R25, R258) -/
  errFlag : s.status.getLsbD statusErr = (someErrorFlag s.status || (s.cfg.strictReserved && someWarningFlag s.status))
  /-- `WARN` is set together with a warning's bit, unless `STRICT_RESERVED` makes it an error (R25, R258) -/
  warnFlag : s.status.getLsbD statusWarn = (!s.cfg.strictReserved && someWarningFlag s.status)
  /-- `LASTERR` is 0 exactly while no error is recorded (R23) -/
  lasterrZero : s.lasterr = 0 ↔ s.status.getLsbD statusErr = false
  /-- `CRCAPP` says that the CRC stands behind at least the five lead bytes (R25, R201) -/
  crcAppLength : s.crcApp = true → 5 ≤ s.numInfoByte.toNat
  /-- the response's code is one of R250 -/
  rspCode : ∀ r, s.rsp = some r → r.code ∈ responseCodes

/-- Keystream byte `j` of a channel (R204): the `j`-th byte the whitener yields after seeding, with input 0 (R164). -/
def keystreamByte (ch : BitVec 6) (j : Nat) : BitVec 8 := (whitenByte (whStep^[8 * j] (whSeed ch)) 0).1

/-- The keystream `ASSEMBLE` uses on a path (R200 step 2): the LFSR's for `CHAN`, or the channel-37 table. -/
def pathKeystream (path : Path) (ch : BitVec 6) (j : Nat) : BitVec 8 :=
  match path with
  | .bitSerial => keystreamByte ch j
  | .table => whTable37.getD j 0

/-- The element `i` of the impulse train, by R212's own formula: 16 zeros, then for each bit one impulse followed by
three zeros, then zeros. -/
def impulseAt (bits : List Bool) (i : Nat) : Int :=
  if 16 ≤ i ∧ (i - 16) % 4 = 0 then
    match bits[(i - 16) / 4]? with
    | some true => 1
    | some false => -1
    | none => 0
  else 0

/-- `acc[i]` by R213's own formula: the sum over `j` in 0 to 15 of `C[j] * x[i + 15 - j]`. -/
def incrementAt (cfg : Config) (bits : List Bool) (i : Nat) : Int :=
  ((List.range 16).map fun j => cfg.gaussCoef.toList.getD j 0 * impulseAt bits (i + 15 - j)).sum

/-- The bytes at the indices from `base` up are the listed ones. -/
def holds {α : Type} (m : Memory α) (base : Nat) (vs : List α) : Prop :=
  ∀ k, k < vs.length → m.read (base + k) = vs[k]?

/-! The opcode table, as spec/opcode_table.json gives it, for the claims about the decoder. -/

/-- A row of spec/opcode_table.json (R94): a word is the command's when `word & mask = fixed`. -/
structure OpcodeRow where
  mnemonic : String
  fixed : BitVec 32
  mask : BitVec 32
deriving DecidableEq, Repr

/-- spec/opcode_table.json, row by row. -/
def opcodeRows : List OpcodeRow :=
  [⟨"PKT_CLR", 0x10000000#32, 0xFFFFFFFF#32⟩,
   ⟨"SET_CHAN", 0x11000000#32, 0xFFFFFFC0#32⟩,
   ⟨"PUSH_INFO", 0x12000000#32, 0xFFFFFF00#32⟩,
   ⟨"RD_INFO", 0x13000000#32, 0xFFFFFFC0#32⟩,
   ⟨"RD_PHY", 0x14000000#32, 0xFFFFFFC0#32⟩,
   ⟨"RD_SAMPLE", 0x15000000#32, 0xFFFFF800#32⟩,
   ⟨"RD_REG", 0x16000000#32, 0xFFFFFFF0#32⟩,
   ⟨"CLR_STATUS", 0x17000000#32, 0xFFFFFFFF#32⟩,
   ⟨"CRC_INIT", 0x20000000#32, 0xFF000000#32⟩,
   ⟨"CRC_INIT_LFSR", 0x21000000#32, 0xFF000000#32⟩,
   ⟨"CRC_BIT", 0x22000000#32, 0xFFFFFFFE#32⟩,
   ⟨"CRC_BYTE", 0x23000000#32, 0xFFFFFF00#32⟩,
   ⟨"CRC_RUN", 0x24000000#32, 0xFFFFFFFE#32⟩,
   ⟨"WH_SEED", 0x30000000#32, 0xFFFFFFFF#32⟩,
   ⟨"WH_BIT", 0x31000000#32, 0xFFFFFFFE#32⟩,
   ⟨"WH_BYTE", 0x32000000#32, 0xFFFFFF00#32⟩,
   ⟨"WH_TBL37", 0x33000000#32, 0xFFFFC000#32⟩,
   ⟨"HDR_ADV", 0x40000000#32, 0xFFFF0080#32⟩,
   ⟨"HDR_DATA", 0x41000000#32, 0xFFFF00E0#32⟩,
   ⟨"HOP_SCA", 0x42000000#32, 0xFFFFFF00#32⟩,
   ⟨"LL_OPCODE", 0x43000000#32, 0xFFFFFFE0#32⟩,
   ⟨"ASSEMBLE", 0x50000000#32, 0xFFFFFFFE#32⟩,
   ⟨"MOD", 0x60000000#32, 0xFFFFFFFF#32⟩,
   ⟨"CH_FREQ", 0x70000000#32, 0xFFFFFF00#32⟩]

/-- A word some row of the table matches (R94). -/
def inOpcodeMap (w : BitVec 32) : Bool := opcodeRows.any fun r => decide (w &&& r.mask = r.fixed)

/-- A word is illegal (R95): its opcode is unassigned or a reserved bit of its format is 1, so that no row of the table
matches it, or it is `RD_REG` with `n` in 11 to 15. -/
def illegalWord (w : BitVec 32) : Bool :=
  !inOpcodeMap w || (decide (w &&& 0xFFFFFFF0#32 = 0x16000000#32) && decide (11 ≤ (w &&& 0xF#32).toNat))

/-- The mnemonic of a command's row. -/
def mnemonicOf : Instr → String
  | .pktClr => "PKT_CLR"
  | .setChan _ => "SET_CHAN"
  | .pushInfo _ => "PUSH_INFO"
  | .rdInfo _ => "RD_INFO"
  | .rdPhy _ => "RD_PHY"
  | .rdSample _ => "RD_SAMPLE"
  | .rdReg _ => "RD_REG"
  | .clrStatus => "CLR_STATUS"
  | .crcInit _ => "CRC_INIT"
  | .crcInitLfsr _ => "CRC_INIT_LFSR"
  | .crcBit _ => "CRC_BIT"
  | .crcByte _ => "CRC_BYTE"
  | .crcRun _ => "CRC_RUN"
  | .whSeed => "WH_SEED"
  | .whBit _ => "WH_BIT"
  | .whByte _ => "WH_BYTE"
  | .whTbl37 _ _ => "WH_TBL37"
  | .hdrAdv _ _ _ _ => "HDR_ADV"
  | .hdrData _ _ _ _ _ => "HDR_DATA"
  | .hopSca _ _ => "HOP_SCA"
  | .llOpcode _ => "LL_OPCODE"
  | .assemble _ => "ASSEMBLE"
  | .mod => "MOD"
  | .chFreq _ => "CH_FREQ"

end Sys2Proof.Machine
end

