-- ==== Sys2Proof/Certificates/Slice0/Obligations.lean ====
section
/-! DEFINITION. The statements for the provers. Each command's statement gives its word (the syntax table of R100), the
next state it completes with, and where it raises; a record update says that every field it does not name is
unchanged. -/

open Sys2Proof Sys2Proof.Machine

/-! ## Packet buffer and register commands -/

/-- R121: `PKT_CLR` zeroes the three counts and `CRCAPP`, erases no buffer and leaves every other register. -/
def Obligations.PktClrStartsAFreshPacket : Prop :=
  decode 0x10000000#32 = .ok .pktClr ∧
    ∀ s : State, exec .pktClr s = .next
      { s with
        numInfoByte := 0
        numPhyByte := 0
        numPhySample := 0
        status := s.status &&& 0xFFFFFFFB#32
        rsp := some ⟨0x00#8, 0#32⟩ }

/-- R122: `SET_CHAN` writes `CHAN` alone for a channel up to 39 and raises `InvalidChannel` above it. -/
def Obligations.SetChanWritesChanUpTo39 : Prop :=
  ∀ ch : BitVec 6, decode (0x11000000#32 ||| ch.setWidth 32) = .ok (.setChan ch) ∧
    ∀ s : State,
      (ch.toNat ≤ 39 → exec (.setChan ch) s = .next { s with chan := ch, rsp := some ⟨0x00#8, 0#32⟩ }) ∧
      (40 ≤ ch.toNat → exec (.setChan ch) s = .next (s.raise .invalidChannel))

/-- R123: `PUSH_INFO` writes one byte at `INFO[NUM_INFO_BYTE]`, counts it and clears `CRCAPP`; the 44th raises
`PayloadTooLarge`. -/
def Obligations.PushInfoAppendsOneByte : Prop :=
  ∀ byte : Byte, decode (0x12000000#32 ||| byte.setWidth 32) = .ok (.pushInfo byte) ∧
    ∀ s : State,
      (s.numInfoByte.toNat ≤ 42 → ∃ t, exec (.pushInfo byte) s = .next t ∧
        t.info.read s.numInfoByte.toNat = some byte ∧
        (∀ a, a ≠ s.numInfoByte.toNat → t.info.read a = s.info.read a) ∧
        t = { s with
          info := t.info
          numInfoByte := s.numInfoByte + 1
          status := s.status &&& 0xFFFFFFFB#32
          rsp := some ⟨0x00#8, 0#32⟩ }) ∧
      (43 ≤ s.numInfoByte.toNat → exec (.pushInfo byte) s = .next (s.raise .payloadTooLarge))

/-- R125: `RD_INFO` answers the byte at an index below `NUM_INFO_BYTE`, plus 3 while `CRCAPP` is 1, and raises
`IndexOutOfRange` from there on. `NUM_INFO_BYTE <= 43` is the invariant of R36. -/
def Obligations.RdInfoAnswersTheByte : Prop :=
  ∀ idx : BitVec 6, decode (0x13000000#32 ||| idx.setWidth 32) = .ok (.rdInfo idx) ∧
    ∀ s : State,
      (∀ b, s.numInfoByte.toNat ≤ 43 →
        idx.toNat < s.numInfoByte.toNat + (if s.status.getLsbD 2 then 3 else 0) →
        s.info.read idx.toNat = some b →
        exec (.rdInfo idx) s = .next { s with rsp := some ⟨0x00#8, b.setWidth 32⟩ }) ∧
      (s.numInfoByte.toNat + (if s.status.getLsbD 2 then 3 else 0) ≤ idx.toNat →
        exec (.rdInfo idx) s = .next (s.raise .indexOutOfRange))

/-- R126: `RD_PHY` answers the byte at an index below `NUM_PHY_BYTE` and raises `IndexOutOfRange` from there on.
`NUM_PHY_BYTE <= 46` is R23's range. -/
def Obligations.RdPhyAnswersTheByte : Prop :=
  ∀ idx : BitVec 6, decode (0x14000000#32 ||| idx.setWidth 32) = .ok (.rdPhy idx) ∧
    ∀ s : State,
      (∀ b, s.numPhyByte.toNat ≤ 46 → idx.toNat < s.numPhyByte.toNat → s.phy.read idx.toNat = some b →
        exec (.rdPhy idx) s = .next { s with rsp := some ⟨0x00#8, b.setWidth 32⟩ }) ∧
      (s.numPhyByte.toNat ≤ idx.toNat → exec (.rdPhy idx) s = .next (s.raise .indexOutOfRange))

/-- R127: `RD_SAMPLE` answers Q in the high half-word and I in the low one, each as 16-bit two's complement, for an index
below `NUM_PHY_SAMPLE`, and raises `IndexOutOfRange` from there on. `NUM_PHY_SAMPLE <= 1520` is R23's range. -/
def Obligations.RdSampleAnswersThePair : Prop :=
  ∀ idx : BitVec 11, decode (0x15000000#32 ||| idx.setWidth 32) = .ok (.rdSample idx) ∧
    ∀ s : State,
      (∀ x, s.numPhySample.toNat ≤ 1520 → idx.toNat < s.numPhySample.toNat → s.samp.read idx.toNat = some x →
        ∃ d : BitVec 32, exec (.rdSample idx) s = .next { s with rsp := some ⟨0x00#8, d⟩ } ∧
          d.extractLsb' 16 16 = BitVec.ofInt 16 x.q ∧ d.extractLsb' 0 16 = BitVec.ofInt 16 x.i) ∧
      (s.numPhySample.toNat ≤ idx.toNat → exec (.rdSample idx) s = .next (s.raise .indexOutOfRange))

/-- R129: `RD_REG` answers each of the eleven registers zero-extended, changes nothing, and raises `IllegalCommand` for
the numbers 11 to 15. -/
def Obligations.RdRegAnswersEachRegister : Prop :=
  (∀ n : BitVec 4, n.toNat ≤ 10 → decode (0x16000000#32 ||| n.setWidth 32) = .ok (.rdReg n)) ∧
    ∀ s : State,
      (∀ (n : BitVec 4) (v : BitVec 32),
        (n, v) ∈ [(0#4, s.status), (1#4, s.lasterr.setWidth 32), (2#4, s.res), (3#4, s.crc.setWidth 32),
          (4#4, s.crcInit.setWidth 32), (5#4, s.wh.setWidth 32), (6#4, s.chan.setWidth 32),
          (7#4, s.numInfoByte.setWidth 32), (8#4, s.numPhyByte.setWidth 32), (9#4, s.numPhySample.setWidth 32),
          (10#4, s.phase)] →
        exec (.rdReg n) s = .next { s with rsp := some ⟨0x00#8, v⟩ }) ∧
      (∀ n : BitVec 4, 11 ≤ n.toNat → exec (.rdReg n) s = .next (s.raise .illegalCommand))

/-- R130: `CLR_STATUS` keeps `CRCAPP`, clears the rest of `STATUS` and `LASTERR`. -/
def Obligations.ClrStatusKeepsOnlyCrcApp : Prop :=
  decode 0x17000000#32 = .ok .clrStatus ∧
    ∀ s : State, exec .clrStatus s = .next
      { s with status := s.status &&& 0x00000004#32, lasterr := 0, rsp := some ⟨0x00#8, 0#32⟩ }

/-! ## CRC-24 engine -/

/-- R141: `CRC_INIT` loads both registers in the table convention. -/
def Obligations.CrcInitLoadsBothRegisters : Prop :=
  ∀ v : BitVec 24, decode (0x20000000#32 ||| v.setWidth 32) = .ok (.crcInit v) ∧
    ∀ s : State, exec (.crcInit v) s = .next { s with crcInit := v, crc := v, rsp := some ⟨0x00#8, 0#32⟩ }

/-- R142: `CRC_INIT_LFSR` loads both registers with the reversal of its operand, so that `state[p] = w[p]`. -/
def Obligations.CrcInitLfsrLoadsTheReversal : Prop :=
  ∀ w : BitVec 24, decode (0x21000000#32 ||| w.setWidth 32) = .ok (.crcInitLfsr w) ∧
    ∃ r : BitVec 24, (∀ k, k < 24 → r.getLsbD k = w.getLsbD (23 - k)) ∧ (∀ p, p < 24 → lfsrState r p = w.getLsbD p) ∧
      ∀ s : State, exec (.crcInitLfsr w) s = .next { s with crcInit := r, crc := r, rsp := some ⟨0x00#8, 0#32⟩ }

/-- R143: `CRC_BIT` on the LFSR view, position by position. -/
def Obligations.CrcBitIsTheLfsrStep : Prop :=
  ∀ b : Bool, decode (0x22000000#32 ||| (if b then 1#32 else 0#32)) = .ok (.crcBit b) ∧
    ∀ s : State, ∃ c : BitVec 24,
      exec (.crcBit b) s = .next { s with crc := c, rsp := some ⟨0x00#8, c.setWidth 32⟩ } ∧
      lfsrState c 0 = (lfsrState s.crc 23 ^^ b) ∧
      (∀ k, k ∈ [1, 3, 4, 6, 9, 10] → lfsrState c k = (lfsrState s.crc (k - 1) ^^ (lfsrState s.crc 23 ^^ b))) ∧
      (∀ k, k ∈ [2, 5, 7, 8] → lfsrState c k = lfsrState s.crc (k - 1)) ∧
      (∀ k, 11 ≤ k → k ≤ 23 → lfsrState c k = lfsrState s.crc (k - 1))

/-- R146: `CRC_BYTE` through the table. -/
def Obligations.CrcByteIsTheTableStep : Prop :=
  ∀ byte : Byte, decode (0x23000000#32 ||| byte.setWidth 32) = .ok (.crcByte byte) ∧
    ∀ s : State, ∃ e c : BitVec 24,
      crcTable[(s.crc ^^^ byte.setWidth 24).toNat % 256]? = some e ∧ c = e ^^^ (s.crc >>> 8) ∧
      exec (.crcByte byte) s = .next { s with crc := c, rsp := some ⟨0x00#8, c.setWidth 32⟩ }

/-- R147: the 256 entries of `CRC_TABLE` are the ones the generator gives. -/
def Obligations.CrcTableIsGenerated : Prop :=
  crcTable.length = 256 ∧
    ∀ i : BitVec 8, crcTable[i.toNat]? =
      some ((fun c : BitVec 24 => (c >>> 1) ^^^ (if c.getLsbD 0 then 0xDA6000#24 else 0#24))^[8] (i.setWidth 24))

/-- R149: the checkable properties of `CRC_TABLE`. -/
def Obligations.CrcTableIsLinear : Prop :=
  crcTableEntry 0 = 0 ∧ crcTableEntry 0x80 = 0xDA6000#24 ∧ crcTableEntry 1 = 0x01B4C0#24 ∧
    (∀ a b : BitVec 8, crcTableEntry (a ^^^ b) = crcTableEntry a ^^^ crcTableEntry b) ∧
    (∀ a : BitVec 8, (crcTableEntry a).extractLsb' 0 6 = 0#6)

/-- R150: eight bit-serial steps fed a byte least significant bit first equal the table step, hence the two paths agree on
every byte sequence, the empty one included, whose CRC is the initial value. -/
def Obligations.CrcPathsAgree : Prop :=
  (∀ (c : BitVec 24) (x : BitVec 8),
    crcByte c x =
      crcBit (crcBit (crcBit (crcBit (crcBit (crcBit (crcBit (crcBit c (x.getLsbD 0)) (x.getLsbD 1)) (x.getLsbD 2))
        (x.getLsbD 3)) (x.getLsbD 4)) (x.getLsbD 5)) (x.getLsbD 6)) (x.getLsbD 7)) ∧
    (∀ (c : BitVec 24) (body : List (BitVec 8)), crcOver .table c body = crcOver .bitSerial c body) ∧
    ∀ (path : Path) (c : BitVec 24), crcOver path c [] = c

/-- R151: `CRC_RUN` folds the path's step over `INFO[5 .. NUM_INFO_BYTE-1]` from `CRCINIT`, and writes `CRC` alone; both
paths leave the same `CRC`. The body is listed because R44 gives elements outside the valid range no value. -/
def Obligations.CrcRunCoversTheBody : Prop :=
  decode 0x24000000#32 = .ok (.crcRun .bitSerial) ∧ decode 0x24000001#32 = .ok (.crcRun .table) ∧
    ∀ (s : State) (body : List (BitVec 8)), s.numInfoByte.toNat ≤ 43 → body.length = s.numInfoByte.toNat - 5 →
      holds s.info 5 body →
      ∃ c : BitVec 24,
        c = body.foldl (fun r x => (bytesToBits [x]).foldl crcBit r) s.crcInit ∧ c = body.foldl crcByte s.crcInit ∧
        ∀ path, exec (.crcRun path) s = .next { s with crc := c, rsp := some ⟨0x00#8, c.setWidth 32⟩ }

/-! ## Whitener -/

/-- R160: `WH_SEED` loads `[1, ch5, ch4, ch3, ch2, ch1, ch0]` from `CHAN`. -/
def Obligations.WhSeedLoadsTheChannel : Prop :=
  decode 0x30000000#32 = .ok .whSeed ∧
    ∀ s : State, ∃ w : BitVec 7,
      exec .whSeed s = .next { s with wh := w, rsp := some ⟨0x00#8, w.setWidth 32⟩ } ∧
      w.getLsbD 0 = true ∧ ∀ p, 1 ≤ p → p ≤ 6 → w.getLsbD p = s.chan.getLsbD (6 - p)

/-- R162 and R161: `WH_BIT` outputs `state[6] XOR b` from the state before the update, and the update reads no data. -/
def Obligations.WhBitWhitensOneBit : Prop :=
  ∀ b : Bool, decode (0x31000000#32 ||| (if b then 1#32 else 0#32)) = .ok (.whBit b) ∧
    ∀ s : State, ∃ (w : BitVec 7) (r : BitVec 32),
      exec (.whBit b) s = .next { s with wh := w, res := r, rsp := some ⟨0x00#8, r⟩ } ∧
      r = (if s.wh.getLsbD 6 ^^ b then 1#32 else 0#32) ∧
      w.getLsbD 0 = s.wh.getLsbD 6 ∧ w.getLsbD 1 = s.wh.getLsbD 0 ∧ w.getLsbD 2 = s.wh.getLsbD 1 ∧
      w.getLsbD 3 = s.wh.getLsbD 2 ∧ w.getLsbD 4 = (s.wh.getLsbD 3 ^^ s.wh.getLsbD 6) ∧
      w.getLsbD 5 = s.wh.getLsbD 4 ∧ w.getLsbD 6 = s.wh.getLsbD 5

/-- R164: `WH_BYTE` is eight bit steps, bit 0 of the byte first. -/
def Obligations.WhByteIsEightBitSteps : Prop :=
  ∀ byte : Byte, decode (0x32000000#32 ||| byte.setWidth 32) = .ok (.whByte byte) ∧
    ∀ s : State, ∃ o : BitVec 8,
      (∀ n, n < 8 → o.getLsbD n = ((whStep^[n] s.wh).getLsbD 6 ^^ byte.getLsbD n)) ∧
      exec (.whByte byte) s = .next
        { s with wh := whStep^[8] s.wh, res := o.setWidth 32, rsp := some ⟨0x00#8, o.setWidth 32⟩ }

/-- R168: `WH_TBL37` reads and writes neither `WH` nor `CHAN`; an index of 42 or more raises `IndexOutOfRange`. -/
def Obligations.WhTbl37UsesTheTable : Prop :=
  ∀ (idx : BitVec 6) (byte : Byte),
    decode (0x33000000#32 ||| (idx.setWidth 32 <<< 8) ||| byte.setWidth 32) = .ok (.whTbl37 idx byte) ∧
    ∀ s : State,
      (∀ k, idx.toNat < 42 → whTable37[idx.toNat]? = some k →
        exec (.whTbl37 idx byte) s = .next
          { s with res := (byte ^^^ k).setWidth 32, rsp := some ⟨0x00#8, (byte ^^^ k).setWidth 32⟩ }) ∧
      (idx.toNat < 42 → ∃ k, whTable37[idx.toNat]? = some k) ∧
      (42 ≤ idx.toNat → exec (.whTbl37 idx byte) s = .next (s.raise .indexOutOfRange))

/-- R169: `8k` bit steps after the seed of channel 37, `WH_BYTE x` answers the byte that `WH_TBL37 k, x` answers, and
leaves the whitener `8(k+1)` steps after the seed. -/
def Obligations.WhitenerTableAgreesOnChannel37 : Prop :=
  ∀ (k : BitVec 6) (x : Byte) (s : State), k.toNat < 42 → s.wh = whStep^[8 * k.toNat] (whSeed 37#6) →
    ∃ t u, exec (.whByte x) s = .next t ∧ exec (.whTbl37 k x) s = .next u ∧ t.rsp = u.rsp ∧ t.res = u.res ∧
      t.wh = whStep^[8 * (k.toNat + 1)] (whSeed 37#6)

/-- R170: whitening is its own inverse, for every channel and every bit sequence. -/
def Obligations.WhiteningIsItsOwnInverse : Prop :=
  ∀ (ch : BitVec 6) (x : List Bool), (whitenBits (whSeed ch) (whitenBits (whSeed ch) x).1).1 = x

/-- R166 and R32: `wh_step` keeps a non-zero state non-zero and has period 127 on it. -/
def Obligations.WhStepHasPeriod127 : Prop :=
  ∀ w : BitVec 7, w ≠ 0 →
    whStep w ≠ 0 ∧ whStep^[127] w = w ∧ ∀ k, 0 < k → k < 127 → whStep^[k] w ≠ w

/-! ## PDU header encoders -/

/-- R181: `HDR_ADV` raises `PayloadTooLarge` for a length above 43; else it answers the header, with the
`ReservedPduType` warning for type code 0xF (R256), or the rejection where `STRICT_RESERVED = 1` (R258). -/
def Obligations.HdrAdvEncodesTheHeader : Prop :=
  ∀ (ty : BitVec 5) (tx rx : Bool) (len : BitVec 8),
    decode (0x40000000#32 ||| (len.setWidth 32 <<< 8) ||| (if rx then 0x40#32 else 0#32) |||
      (if tx then 0x20#32 else 0#32) ||| ty.setWidth 32) = .ok (.hdrAdv ty tx rx len) ∧
    ∀ s : State,
      (44 ≤ len.toNat → exec (.hdrAdv ty tx rx len) s = .next (s.raise .payloadTooLarge)) ∧
      (len.toNat ≤ 43 → ∃ h : BitVec 32,
        h.toNat = (advTypeCode (pktTypeOf ty)).toNat + 64 * tx.toNat + 128 * rx.toNat + 256 * len.toNat ∧
        (advTypeCode (pktTypeOf ty) ≠ 0xF#4 →
          exec (.hdrAdv ty tx rx len) s = .next { s with res := h, rsp := some ⟨0x00#8, h⟩ }) ∧
        (advTypeCode (pktTypeOf ty) = 0xF#4 → s.cfg.strictReserved = false →
          exec (.hdrAdv ty tx rx len) s = .next
            { s with res := h, status := s.status ||| 0x00010002#32, rsp := some ⟨0x81#8, h⟩ }) ∧
        (advTypeCode (pktTypeOf ty) = 0xF#4 → s.cfg.strictReserved = true →
          exec (.hdrAdv ty tx rx len) s = .next
            { s with
              status := s.status ||| 0x00010001#32
              lasterr := 0x81#8
              rsp := some ⟨0x81#8, 0xFFFFFFFF#32⟩ }))

/-- R182 with the codes of R98: which packet type has which advertising type code. -/
def Obligations.AdvTypeCodesAreTheMap : Prop :=
  ∀ ty : BitVec 5, advTypeCode (pktTypeOf ty) =
    if ty = 3#5 ∨ ty = 2#5 then 0#4
    else if ty = 4#5 then 1#4
    else if ty = 5#5 ∨ ty = 1#5 then 2#4
    else if ty = 7#5 then 3#4
    else if ty = 8#5 then 4#4
    else if ty = 9#5 then 5#4
    else if ty = 6#5 then 6#4
    else 0xF#4

/-- R185: `HDR_DATA` answers the header with the fields of R184, and raises `PayloadTooLarge` for a length above 31. -/
def Obligations.HdrDataEncodesTheHeader : Prop :=
  ∀ (llid : BitVec 2) (nesn sn md : Bool) (len : BitVec 8),
    decode (0x41000000#32 ||| (len.setWidth 32 <<< 8) ||| (if md then 0x10#32 else 0#32) |||
      (if sn then 0x8#32 else 0#32) ||| (if nesn then 0x4#32 else 0#32) ||| llid.setWidth 32) =
      .ok (.hdrData llid nesn sn md len) ∧
    ∀ s : State,
      (32 ≤ len.toNat → exec (.hdrData llid nesn sn md len) s = .next (s.raise .payloadTooLarge)) ∧
      (len.toNat ≤ 31 → ∃ d : BitVec 32,
        d.toNat = llid.toNat + 4 * nesn.toNat + 8 * sn.toNat + 16 * md.toNat + 256 * len.toNat ∧
        exec (.hdrData llid nesn sn md len) s = .next { s with res := d, rsp := some ⟨0x00#8, d⟩ })

/-- R187: `HOP_SCA` answers the octet with hop in bits 4:0 and sca in bits 7:5. -/
def Obligations.HopScaEncodesTheOctet : Prop :=
  ∀ (hop : BitVec 5) (sca : BitVec 3),
    decode (0x42000000#32 ||| (sca.setWidth 32 <<< 5) ||| hop.setWidth 32) = .ok (.hopSca hop sca) ∧
    ∀ s : State, ∃ o : BitVec 32, o.toNat = hop.toNat + 32 * sca.toNat ∧
      exec (.hopSca hop sca) s = .next { s with res := o, rsp := some ⟨0x00#8, o⟩ }

/-- R190: `LL_OPCODE` answers the table's opcode for the codes 11 to 24, and 0xFF with the `ReservedOpcode` warning
(R256), or the rejection where `STRICT_RESERVED = 1` (R258), for every other code. -/
def Obligations.LlOpcodeAnswersTheTable : Prop :=
  ∀ ty : BitVec 5, decode (0x43000000#32 ||| ty.setWidth 32) = .ok (.llOpcode ty) ∧
    ∀ s : State,
      (11 ≤ ty.toNat → ty.toNat ≤ 24 → ∃ o, s.cfg.llOpcodeTable.toList[ty.toNat - 11]? = some o ∧
        exec (.llOpcode ty) s = .next { s with res := o.setWidth 32, rsp := some ⟨0x00#8, o.setWidth 32⟩ }) ∧
      (ty.toNat ≤ 10 ∨ 25 ≤ ty.toNat →
        (s.cfg.strictReserved = false → exec (.llOpcode ty) s = .next
          { s with res := 0xFF#32, status := s.status ||| 0x00020002#32, rsp := some ⟨0x82#8, 0xFF#32⟩ }) ∧
        (s.cfg.strictReserved = true → exec (.llOpcode ty) s = .next
          { s with
            status := s.status ||| 0x00020001#32
            lasterr := 0x82#8
            rsp := some ⟨0x82#8, 0xFFFFFFFF#32⟩ }))

/-- R192: the fields are recovered from an encoded header: equal headers, octets or opcodes come from equal fields. -/
def Obligations.HeaderEncodersAreInjective : Prop :=
  (∀ (c c' : BitVec 4) (tx tx' rx rx' : Bool) (len len' : BitVec 8), len.toNat ≤ 43 → len'.toNat ≤ 43 →
    advHeader c tx rx len = advHeader c' tx' rx' len' → c = c' ∧ tx = tx' ∧ rx = rx' ∧ len = len') ∧
  (∀ (a a' : BitVec 2) (b b' c c' d d' : Bool) (len len' : BitVec 8), len.toNat ≤ 31 → len'.toNat ≤ 31 →
    dataHeader a b c d len = dataHeader a' b' c' d' len' → a = a' ∧ b = b' ∧ c = c' ∧ d = d' ∧ len = len') ∧
  (∀ (hop hop' : BitVec 5) (sca sca' : BitVec 3), hopScaOctet hop sca = hopScaOctet hop' sca' →
    hop = hop' ∧ sca = sca') ∧
  (∀ (cfg : Config) (ty ty' : BitVec 5) (o : BitVec 8), ConfigWf cfg → llOpcodeOf cfg ty = some o →
    llOpcodeOf cfg ty' = some o → ty = ty')

/-! ## Packet assembler -/

/-- R200 and R204: `ASSEMBLE` on a packet of 5 to 43 bytes, path 1 on channel 37 only: the CRC over `INFO[5 .. n-1]` stored
behind the packet low byte first; `PHY` the lead bytes, then body and CRC under the path's keystream; `WH` moved by path 0
alone; and nothing else changed. -/
def Obligations.AssembleBuildsThePacket : Prop :=
  decode 0x50000000#32 = .ok (.assemble .bitSerial) ∧ decode 0x50000001#32 = .ok (.assemble .table) ∧
    ∀ (path : Path) (s : State) (bytes : List (BitVec 8)), bytes.length = s.numInfoByte.toNat → 5 ≤ bytes.length →
      bytes.length ≤ 43 → holds s.info 0 bytes → (path = .table → s.chan = 37#6) →
      ∃ t, exec (.assemble path) s = .next t ∧
        t.crc = (bytes.drop 5).foldl (crcStep path) s.crcInit ∧
        t.info.read bytes.length = some (t.crc.extractLsb' 0 8) ∧
        t.info.read (bytes.length + 1) = some (t.crc.extractLsb' 8 8) ∧
        t.info.read (bytes.length + 2) = some (t.crc.extractLsb' 16 8) ∧
        (∀ a, a < bytes.length ∨ bytes.length + 3 ≤ a → t.info.read a = s.info.read a) ∧
        (∀ m, m < 5 → t.phy.read m = t.info.read m) ∧
        (∀ m b, 5 ≤ m → m < bytes.length + 3 → t.info.read m = some b →
          t.phy.read m = some (b ^^^ pathKeystream path s.chan (m - 5))) ∧
        (∀ a, bytes.length + 3 ≤ a → t.phy.read a = s.phy.read a) ∧
        t.wh = (match path with
          | .bitSerial => whStep^[8 * (bytes.length - 2)] (whSeed s.chan)
          | .table => s.wh) ∧
        t = { s with
          crc := t.crc
          wh := t.wh
          info := t.info
          phy := t.phy
          numPhyByte := s.numInfoByte + 3
          status := s.status ||| 0x00000004#32
          rsp := some ⟨0x00#8, BitVec.ofNat 32 (bytes.length + 3)⟩ }

/-- R201 and R202: `ASSEMBLE` with fewer than five bytes raises `PacketTooShort`, checked first; path 1 on another channel
than 37 raises `TableChannelMismatch`. -/
def Obligations.AssembleRefusesShortOrMismatched : Prop :=
  ∀ s : State,
    (∀ path, s.numInfoByte.toNat ≤ 4 → exec (.assemble path) s = .next (s.raise .packetTooShort)) ∧
    (5 ≤ s.numInfoByte.toNat → s.chan ≠ 37#6 → exec (.assemble .table) s = .next (s.raise .tableChannelMismatch))

/-- R205: on channel 37 the two paths leave states that differ in `WH` only: path 0 leaves it advanced by `8(n - 2)` steps
from the seed, path 1 as it was. The state keeps the block's invariant, so `INFO` holds the packet. -/
def Obligations.AssemblePathsAgreeOnChannel37 : Prop :=
  ∀ s : State, s.Inv → 5 ≤ s.numInfoByte.toNat → s.chan = 37#6 →
    ∃ t, exec (.assemble .bitSerial) s = .next t ∧ exec (.assemble .table) s = .next { t with wh := s.wh } ∧
      t.wh = whStep^[8 * (s.numInfoByte.toNat - 2)] (whSeed 37#6)

/-- R206: a second `ASSEMBLE` directly after the first answers the same response and leaves every register and buffer. -/
def Obligations.AssembleIsIdempotent : Prop :=
  ∀ (path : Path) (s t : State), exec (.assemble path) s = .next t → exec (.assemble path) t = .next t

/-! ## GFSK modulator -/

/-- R220, R221, R223, R224, R225: `MOD` writes one sample per phase of `phaseSeq` (the phases of R218, by the statement on the phase
recurrence), `(COS_TAB[p], SIN_TAB[p])`, which is `AMP` times cosine and sine of the phase's angle, rounded (R223); leaves
the last phase in `PHASE`, counts `4N + 16` samples; more than 376 bits raise `PayloadTooLarge`. The bytes are listed because R44 gives elements outside the valid range no value. -/
def Obligations.ModWritesTheSamples : Prop :=
  decode 0x60000000#32 = .ok .mod ∧
    ∀ s : State,
      (48 ≤ s.numPhyByte.toNat → exec .mod s = .next (s.raise .payloadTooLarge)) ∧
      (∀ bytes : List (BitVec 8), ConfigWf s.cfg → bytes.length = s.numPhyByte.toNat → bytes.length ≤ 47 →
        holds s.phy 0 bytes →
        ∃ t, exec .mod s = .next t ∧
          (∀ i, i < 32 * bytes.length + 16 → ∃ p c d, (phaseSeq s.cfg (bytesToBits bytes))[i]? = some p ∧
            s.cfg.cosTab[p]? = some c ∧ s.cfg.sinTab[p]? = some d ∧ t.samp.read i = some ⟨c, d⟩ ∧
            c = rnd ((s.cfg.amp : ℝ) * Real.cos (2 * Real.pi * p / 2 ^ s.cfg.phaseBits)) ∧
            d = rnd ((s.cfg.amp : ℝ) * Real.sin (2 * Real.pi * p / 2 ^ s.cfg.phaseBits))) ∧
          (∀ a, 32 * bytes.length + 16 ≤ a → t.samp.read a = s.samp.read a) ∧
          some t.phase.toNat = (phaseSeq s.cfg (bytesToBits bytes))[32 * bytes.length + 15]? ∧
          t = { s with
            samp := t.samp
            phase := t.phase
            numPhySample := BitVec.ofNat 11 (32 * bytes.length + 16)
            rsp := some ⟨0x00#8, BitVec.ofNat 32 (32 * bytes.length + 16)⟩ })

/-- R212, R213, R218: the phase sequence starts at 0 and each phase is the one before plus `acc[i]`, modulo `P`, with
`acc[i]` the sum of R213 over the impulse train of R212. -/
def Obligations.PhasesFollowTheRecurrence : Prop :=
  ∀ (cfg : Config) (bits : List Bool),
    (phaseSeq cfg bits)[0]? = some 0 ∧
    ∀ i, i < 4 * bits.length + 15 → ∃ p q, (phaseSeq cfg bits)[i]? = some p ∧ (phaseSeq cfg bits)[i + 1]? = some q ∧
      (q : Int) = (p + incrementAt cfg bits i) % (2 ^ cfg.phaseBits : Nat)

/-- R221: the number of samples depends on the bit count only. -/
def Obligations.SampleCountIsFixed : Prop :=
  ∀ (cfg : Config) (bits : List Bool), (phaseSeq cfg bits).length = 4 * bits.length + 16

/-- R219 (b): the final phase counts the ones and zeros, every impulse passing under every tap once; with the default taps
each bit turns the phase by 256. -/
def Obligations.FinalPhaseCountsTheBits : Prop :=
  (∀ (cfg : Config) (bits : List Bool),
    ((phaseSeq cfg bits).getLast? = some
      ((cfg.gaussCoef.toList.sum * ((bits.count true : Int) - bits.count false)) % (2 ^ cfg.phaseBits : Nat)).toNat)) ∧
  Config.default.gaussCoef.toList.sum = 256 ∧ Config.default.phaseBits = 10

/-- R226 (c): inverting every input bit negates the phase modulo `P`. -/
def Obligations.ComplementNegatesThePhase : Prop :=
  ∀ (cfg : Config) (bits : List Bool) (i p q : Nat), (phaseSeq cfg bits)[i]? = some p →
    (phaseSeq cfg (bits.map not))[i]? = some q → q = (2 ^ cfg.phaseBits - p) % 2 ^ cfg.phaseBits

/-- R226 (d), R219 (a): with the default taps the first six phases are 0 for every input. -/
def Obligations.FirstSixPhasesAreZero : Prop :=
  ∀ (bits : List Bool) (i : Nat), i < 6 → (phaseSeq Config.default bits)[i]? = some 0

/-- R223, R224: `rnd` answers a nearest integer and a tie goes away from zero; the default `COS_TAB` and `SIN_TAB` are
`rnd(127 * cos(2 * pi * p / 1024))` and `rnd(127 * sin(2 * pi * p / 1024))`, entry by entry. -/
def Obligations.DefaultTablesAreTheRoundedCosineAndSine : Prop :=
  (∀ v : ℝ, |v - rnd v| ≤ 1 / 2) ∧
    (∀ n : ℕ, rnd ((n : ℝ) + 1 / 2) = n + 1 ∧ rnd (-((n : ℝ) + 1 / 2)) = -(n + 1 : Int)) ∧
    Config.default.cosTab.length = 1024 ∧ Config.default.sinTab.length = 1024 ∧
    ∀ p : ℕ, p < 1024 →
      Config.default.cosTab[p]? = some (rnd (127 * Real.cos (2 * Real.pi * p / 1024))) ∧
      Config.default.sinTab[p]? = some (rnd (127 * Real.sin (2 * Real.pi * p / 1024)))

/-! ## Channel to frequency map -/

/-- R240: `CH_FREQ` maps its operand, writes `RES` and not `CHAN`, and raises `InvalidChannel` for 40 to 255. -/
def Obligations.ChFreqAnswersTheFrequency : Prop :=
  ∀ ch : BitVec 8, decode (0x70000000#32 ||| ch.setWidth 32) = .ok (.chFreq ch) ∧
    ∀ s : State,
      (ch.toNat ≤ 39 → ∃ f : BitVec 32,
        f.toNat = (if ch.toNat = 37 then 2402000000 else if ch.toNat = 38 then 2426000000
          else if ch.toNat = 39 then 2480000000 else if ch.toNat ≤ 10 then 2404000000 + 2000000 * ch.toNat
          else 2428000000 + 2000000 * (ch.toNat - 11)) ∧
        exec (.chFreq ch) s = .next { s with res := f, rsp := some ⟨0x00#8, f⟩ }) ∧
      (40 ≤ ch.toNat → exec (.chFreq ch) s = .next (s.raise .invalidChannel))

/-- R242: each of the 40 values 2402 MHz + 2 MHz * k is the frequency of exactly one channel. -/
def Obligations.FrequenciesAreEachUsedOnce : Prop :=
  ∀ k, k < 40 → ∃ ch, ch < 40 ∧ chanFreq ch = some (2402000000 + 2000000 * k) ∧
    ∀ ch', chanFreq ch' = some (2402000000 + 2000000 * k) → ch' = ch

/-! ## Errors, warnings, the step -/

/-- R255 with the codes and bits of R250: what raising an error does, and nothing else. -/
def Obligations.RaiseSetsFlagsAndAnswersAllOnes : Prop :=
  ∀ (e : Err) (s : State), ∃ (code : BitVec 8) (flags : BitVec 32),
    (e, code, flags) ∈ [(Err.illegalCommand, 0x01#8, 0x0101#32), (.payloadTooLarge, 0x02#8, 0x0201#32),
      (.invalidChannel, 0x03#8, 0x0401#32), (.indexOutOfRange, 0x04#8, 0x0801#32),
      (.packetTooShort, 0x05#8, 0x1001#32), (.tableChannelMismatch, 0x06#8, 0x2001#32)] ∧
    s.raise e = { s with
      status := s.status ||| flags
      lasterr := code
      rsp := some ⟨code, 0xFFFFFFFF#32⟩ }

/-- R256 and R258: a warning completes the command and writes no `LASTERR`; with `STRICT_RESERVED = 1` it is an error. -/
def Obligations.WarnCompletesOrRejects : Prop :=
  ∀ (w : Warning) (r : BitVec 32) (s : State), ∃ (code : BitVec 8) (flag : BitVec 32),
    (w, code, flag) ∈ [(Warning.reservedPduType, 0x81#8, 0x10000#32), (.reservedOpcode, 0x82#8, 0x20000#32)] ∧
    (s.cfg.strictReserved = false → s.warn w r =
      { s with res := r, status := s.status ||| 2#32 ||| flag, rsp := some ⟨code, r⟩ }) ∧
    (s.cfg.strictReserved = true → s.warn w r =
      { s with status := s.status ||| 1#32 ||| flag, lasterr := code, rsp := some ⟨code, 0xFFFFFFFF#32⟩ })

/-- R95: a word is illegal exactly when no row of the opcode table matches it or it is `RD_REG` of 11 to 15; the decoder
refuses exactly those, and a step on one raises `IllegalCommand`. -/
def Obligations.IllegalWordsRaiseIllegalCommand : Prop :=
  (∀ w : BitVec 32, illegalWord w = true ↔ ∃ e, decode w = .error e) ∧
    ∀ (s : State) (w : BitVec 32) (rest : List PortEvent), s.port = .command w :: rest → illegalWord w = true →
      step s = .next (({ s with port := rest } : State).raise .illegalCommand)

/-- A step takes the oldest command of the port and runs exactly the decoded command on the state without it. The port as
a list of what the host presents is the model's choice (log entry 1). -/
def Obligations.StepRunsTheDecodedCommand : Prop :=
  ∀ (s : State) (w : BitVec 32) (rest : List PortEvent) (i : Instr), s.port = .command w :: rest →
    decode w = .ok i → step s = exec i { s with port := rest }

/-- `rst` gives the registers of R45 and buffers without a value, keeps the parameters and what the host presents next
(log entry 4), and a block to which nothing is presented waits (log entry 3): the port as a list is the model's choice. -/
def Obligations.StepResetsOrWaits : Prop :=
  ∀ s : State,
    (∀ rest, s.port = .reset :: rest → step s = .next { State.reset with cfg := s.cfg, port := rest }) ∧
    (s.port = [] → step s = .next s)

/-- R45: every register after reset, and no element of a buffer readable. -/
def Obligations.ResetLeavesTheRegisters : Prop :=
  State.reset.status = 0 ∧ State.reset.lasterr = 0 ∧ State.reset.res = 0 ∧ State.reset.crc = 0xAAAAAA#24 ∧
    State.reset.crcInit = 0xAAAAAA#24 ∧ State.reset.chan = 37#6 ∧ State.reset.wh = 0x53#7 ∧
    State.reset.wh = whSeed 37#6 ∧ State.reset.numInfoByte = 0 ∧ State.reset.numPhyByte = 0 ∧
    State.reset.numPhySample = 0 ∧ State.reset.phase = 0 ∧
    (∀ idx, exec (.rdInfo idx) State.reset = .next (State.reset.raise .indexOutOfRange)) ∧
    (∀ idx, exec (.rdPhy idx) State.reset = .next (State.reset.raise .indexOutOfRange)) ∧
    (∀ idx, exec (.rdSample idx) State.reset = .next (State.reset.raise .indexOutOfRange))

/-- Every command's outcome, over all commands (R91, R250, R257): it completes with code 0x00 and no sticky flag or
`LASTERR` changed (but for `CLR_STATUS`), or is exactly an error, or exactly a warning, or exactly a strict rejection. -/
def Obligations.EveryCommandCompletesRaisesOrWarns : Prop :=
  ∀ (i : Instr) (s t : State), exec i s = .next t →
    ((∃ d, t.rsp = some ⟨0x00#8, d⟩) ∧
      (i ≠ .clrStatus → t.lasterr = s.lasterr ∧ t.status &&& 0xFFFFFFFB#32 = s.status &&& 0xFFFFFFFB#32)) ∨
    (∃ e, t = s.raise e) ∨
    (∃ w r, s.cfg.strictReserved = false ∧ t = s.recordWarning w r) ∨
    (∃ w, s.cfg.strictReserved = true ∧ t = s.abandon (warningCode w) (warningBit w))

/-- R25, R263: a flag, once set, stays set until `CLR_STATUS` or reset; `CRCAPP` is no sticky flag. -/
def Obligations.FlagsAreSticky : Prop :=
  ∀ (i : Instr) (s t : State) (b : Nat), exec i s = .next t → i ≠ .clrStatus → b ≠ 2 →
    s.status.getLsbD b = true → t.status.getLsbD b = true

/-- R23, column "Written by": no other command changes the register; the response and the flags of an error apart, no
command changes what it does not list. The parameters are written by none (R17). -/
def Obligations.RegistersHaveTheListedWriters : Prop :=
  ∀ (i : Instr) (s t : State), exec i s = .next t →
    (mnemonicOf i ∉ ["WH_BIT", "WH_BYTE", "WH_TBL37", "HDR_ADV", "HDR_DATA", "HOP_SCA", "LL_OPCODE", "CH_FREQ"] →
      t.res = s.res) ∧
    (mnemonicOf i ∉ ["CRC_INIT", "CRC_INIT_LFSR", "CRC_BIT", "CRC_BYTE", "CRC_RUN", "ASSEMBLE"] → t.crc = s.crc) ∧
    (mnemonicOf i ∉ ["CRC_INIT", "CRC_INIT_LFSR"] → t.crcInit = s.crcInit) ∧
    (mnemonicOf i ∉ ["WH_SEED", "WH_BIT", "WH_BYTE"] → i ≠ .assemble .bitSerial → t.wh = s.wh) ∧
    (mnemonicOf i ∉ ["SET_CHAN"] → t.chan = s.chan) ∧
    (mnemonicOf i ∉ ["PKT_CLR", "PUSH_INFO"] → t.numInfoByte = s.numInfoByte) ∧
    (mnemonicOf i ∉ ["PKT_CLR", "ASSEMBLE"] → t.numPhyByte = s.numPhyByte) ∧
    (mnemonicOf i ∉ ["PKT_CLR", "MOD"] → t.numPhySample = s.numPhySample) ∧
    (mnemonicOf i ∉ ["MOD"] → t.phase = s.phase) ∧
    (mnemonicOf i ∉ ["PKT_CLR", "PUSH_INFO", "ASSEMBLE"] → t.status.getLsbD 2 = s.status.getLsbD 2) ∧
    t.cfg = s.cfg ∧ t.port = s.port

/-- R34, R69, column "Written by": `INFO` is written by `PUSH_INFO` and `ASSEMBLE`, `PHY` by `ASSEMBLE`, `SAMP` by `MOD`;
every other command leaves every element as it reads. -/
def Obligations.BuffersHaveTheListedWriters : Prop :=
  ∀ (i : Instr) (s t : State), exec i s = .next t →
    (mnemonicOf i ∉ ["PUSH_INFO", "ASSEMBLE"] → ∀ a, t.info.read a = s.info.read a) ∧
    (mnemonicOf i ∉ ["ASSEMBLE"] → ∀ a, t.phy.read a = s.phy.read a) ∧
    (mnemonicOf i ∉ ["MOD"] → ∀ a, t.samp.read a = s.samp.read a)

/-! ## Encoding -/

/-- Decoding an encoded well-formed command gives it back, with every operand at every value its field admits (R90, R92,
R100). -/
def Obligations.DecodeAfterEncodeIsIdentity : Prop :=
  ∀ i : Instr, i.wellFormed = true → decode (encode i) = .ok i

/-- Every word the decoder accepts is the word of the command it reads, which is well-formed: no two words mean one command
and no bit of a word is dropped (R92, R95). -/
def Obligations.EncodeAfterDecodeIsIdentity : Prop :=
  ∀ (w : BitVec 32) (i : Instr), decode w = .ok i → encode i = w ∧ i.wellFormed = true

/-- Words of spec/95_test_vectors.md, at least one of every family of R94, decode to the commands they stand for. -/
def Obligations.VectorWordsDecode : Prop :=
  decode 0x11000026#32 = .ok (.setChan 38) ∧ decode 0x120000AA#32 = .ok (.pushInfo 0xAA) ∧
    decode 0x150005CF#32 = .ok (.rdSample 1487) ∧ decode 0x21555555#32 = .ok (.crcInitLfsr 0x555555) ∧
    decode 0x33000106#32 = .ok (.whTbl37 1 0x06) ∧ decode 0x40002523#32 = .ok (.hdrAdv 3 true false 37) ∧
    decode 0x41000207#32 = .ok (.hdrData 3 true false false 2) ∧ decode 0x420000A9#32 = .ok (.hopSca 9 5) ∧
    decode 0x50000001#32 = .ok (.assemble .table) ∧ decode 0x60000000#32 = .ok .mod ∧
    decode 0x70000027#32 = .ok (.chFreq 39) ∧
    decode 0x40000083#32 = .error (.reservedBit 0x40) ∧ decode 0x1600000B#32 = .error (.noSuchRegister 11) ∧
    decode 0x00000000#32 = .error (.unassignedOpcode 0x00)

/-! ## Bit order -/

/-- R15: packing the bits of a byte list gives the list back. -/
def Obligations.BytesSurviveTheBitView : Prop :=
  ∀ x : List (BitVec 8), bitsToBytes (bytesToBits x) = x

/-- R29: on-air bit `i` of a CRC is `CRC[i]`, the LFSR position `23 - i`; the CRC as bytes is little-endian; and the bytes,
expanded least significant bit first, are the on-air bits. -/
def Obligations.CrcBytesGoOnAirLeastBitFirst : Prop :=
  ∀ c : BitVec 24,
    (∀ i, i < 24 → (intToBits c.toNat 24)[i]? = some (c.getLsbD i) ∧ c.getLsbD i = lfsrState c (23 - i)) ∧
    (crcToBytes c).map BitVec.toNat = [c.toNat % 256, c.toNat / 256 % 256, c.toNat / 65536 % 256] ∧
    bytesToBits (crcToBytes c) = intToBits c.toNat 24

/-! ## The invariant -/

/-- The state after reset keeps the block's invariant. -/
def Obligations.ResetKeepsTheInvariant : Prop := State.reset.Inv

/-- Every step keeps the block's invariant (R24, R25, R32, R33, R36, R38, R40, R41, R44, R61). -/
def Obligations.StepKeepsTheInvariant : Prop :=
  ∀ s t : State, s.Inv → step s = .next t → t.Inv

/-- No step from a state that keeps the invariant stops: every command terminates and answers (R266), and no command is
asked for an element that has no value (R44). -/
def Obligations.NoStepStops : Prop := ∀ s : State, s.Inv → ∃ t, step s = .next t
end

