-- ==== Sys2Proof/Laws/Bits.lean ====
section
/-! SUPPORT. The laws of the bit views and of the whitener over sequences (spec/00_scope.md R12, R13,
spec/42_whitener.md R161, R162): lengths, elements, and the whitener's state after a sequence. -/

namespace Sys2Proof.Machine

@[simp] theorem length_intToBits (n width : Nat) : (intToBits n width).length = width := by simp [intToBits]

@[simp] theorem length_byteToBits (b : BitVec 8) : (byteToBits b).length = 8 := by simp [byteToBits]

@[simp] theorem length_bytesToBits (bs : List (BitVec 8)) : (bytesToBits bs).length = 8 * bs.length := by
  induction bs with
  | nil => rfl
  | cons b bs ih => simp [bytesToBits] at ih ⊢; omega

theorem bytesToBits_cons (b : BitVec 8) (bs : List (BitVec 8)) :
    bytesToBits (b :: bs) = byteToBits b ++ bytesToBits bs := rfl

@[simp] theorem length_crcToBytes (c : BitVec 24) : (crcToBytes c).length = 3 := rfl

/-- Bit `k` of the number a bit sequence packs to (R10, R13). -/
theorem testBit_bitsToNat (bs : List Bool) (k : Nat) : (bitsToNat bs).testBit k = bs.getD k false := by
  induction bs generalizing k with
  | nil => simp [bitsToNat]
  | cons b bs ih =>
    cases k with
    | zero => cases b <;> simp [bitsToNat, Nat.testBit_zero]
    | succ k =>
      rw [Nat.testBit_succ]
      have : ((if b then 1 else 0) + 2 * bitsToNat bs) / 2 = bitsToNat bs := by split <;> omega
      simp [bitsToNat, this, ih]

@[simp] theorem length_whitenBits (w : BitVec 7) (x : List Bool) : (whitenBits w x).1.length = x.length := by
  induction x generalizing w with
  | nil => rfl
  | cons b bs ih => simp [whitenBits, ih]

/-- The state after a sequence depends on its length alone (R171). -/
theorem whitenBits_state (w : BitVec 7) (x : List Bool) : (whitenBits w x).2 = whStep^[x.length] w := by
  induction x generalizing w with
  | nil => rfl
  | cons b bs ih => simp [whitenBits, ih]

/-- Output bit `n` of a sequence (R162). -/
theorem getElem?_whitenBits (w : BitVec 7) (x : List Bool) (n : Nat) :
    (whitenBits w x).1[n]? = x[n]?.map fun b => (whStep^[n] w).getLsbD 6 ^^ b := by
  induction x generalizing w n with
  | nil => simp [whitenBits]
  | cons b bs ih =>
    cases n with
    | zero => simp [whitenBits, whOut]
    | succ n => simp [whitenBits, ih]

@[simp] theorem length_whitenBytes (w : BitVec 7) (xs : List (BitVec 8)) : (whitenBytes w xs).1.length = xs.length := by
  induction xs generalizing w with
  | nil => rfl
  | cons b bs ih => simp [whitenBytes, ih]

/-- A byte through the channel-37 table, as far as the table reaches (R167). -/
@[simp] theorem length_whitenBytesTable (xs : List (BitVec 8)) :
    (whitenBytesTable xs).length = min xs.length 42 := by
  simp only [whitenBytesTable, List.length_zipWith]
  rfl

end Sys2Proof.Machine
end

