-- ==== Sys2Proof/Laws/Decode.lean ====
section
/-! SUPPORT. The laws of the fields of a command word: reading a field that was placed, and the fields of an encoded
command (spec/30_encoding.md R92). -/

namespace Sys2Proof

/-- A field reads the bits of the word from its lowest place up. -/
theorem getLsbD_cmdField (w : BitVec 32) (lo n k : Nat) (h : k < n) :
    (cmdField w lo n).getLsbD k = w.getLsbD (lo + k) := by
  simp [cmdField, h]

@[simp] theorem cmdField_zero (lo n : Nat) : cmdField 0#32 lo n = 0#n := by
  apply BitVec.eq_of_getLsbD_eq; intro k hk
  simp [cmdField]

@[simp] theorem cmdField_or (v w : BitVec 32) (lo n : Nat) :
    cmdField (v ||| w) lo n = cmdField v lo n ||| cmdField w lo n := by
  apply BitVec.eq_of_getLsbD_eq; intro k hk
  simp [cmdField, hk]

/-- The bits of a placed operand. -/
theorem getLsbD_placeField {n : Nat} (v : BitVec n) (lo k : Nat) (h : k < 32) :
    (placeField v lo).getLsbD k = (decide (lo ≤ k) && v.getLsbD (k - lo)) := by
  by_cases h2 : lo ≤ k <;> simp [placeField, h2, h]

/-- `getLsbD_placeField` in the form `simp` puts a literal bit position in. -/
theorem getElem_placeField {n : Nat} (v : BitVec n) (lo k : Nat) (h : k < 32) :
    (placeField v lo)[k] = (decide (lo ≤ k) && v.getLsbD (k - lo)) := by
  rw [← BitVec.getLsbD_eq_getElem, getLsbD_placeField v lo k h]

/-- A placed operand reads back from its field. -/
theorem cmdField_placeField {n : Nat} (v : BitVec n) (lo : Nat) (h : lo + n ≤ 32) :
    cmdField (placeField v lo) lo n = v := by
  apply BitVec.eq_of_getLsbD_eq; intro k hk
  rw [getLsbD_cmdField _ _ _ _ hk, getLsbD_placeField _ _ _ (by omega)]
  simp

/-- A placed operand leaves the fields beside its own at 0. -/
theorem cmdField_placeField_other {m : Nat} (v : BitVec m) (lo lo' n : Nat) (hn : lo' + n ≤ 32)
    (h : lo' + n ≤ lo ∨ lo + m ≤ lo') : cmdField (placeField v lo) lo' n = 0#n := by
  apply BitVec.eq_of_getLsbD_eq; intro k hk
  rw [getLsbD_cmdField _ _ _ _ hk, getLsbD_placeField _ _ _ (by omega)]
  rcases h with h | h
  · simp; omega
  · simp [BitVec.getLsbD_of_ge v (lo' + k - lo) (by omega)]

/-- The opcode of an encoded command is read back (R90). -/
theorem cmdField_encode_opcode (i : Instr) : cmdField (encode i) 24 8 = i.opcode := by
  have h : cmdField i.operandArea 24 8 = 0#8 := by
    cases i <;> simp [Instr.operandArea, cmdField_placeField_other]
  simp [encode, h, cmdField_placeField]

/-- Below the opcode an encoded command is its operand area. -/
theorem getLsbD_encode (i : Instr) (k : Nat) (h : k < 24) : (encode i).getLsbD k = i.operandArea.getLsbD k := by
  simp [encode, getLsbD_placeField i.opcode 24 k (by omega), Nat.not_le.mpr h]

/-- `getLsbD_encode` in the form `simp` puts a literal bit position in. -/
theorem getElem_encode (i : Instr) (k : Nat) (h : k < 24) : (encode i)[k] = i.operandArea[k] := by
  rw [← BitVec.getLsbD_eq_getElem, ← BitVec.getLsbD_eq_getElem, getLsbD_encode i k h]

theorem cmdField_encode (i : Instr) (lo n : Nat) (h : lo + n ≤ 24) :
    cmdField (encode i) lo n = cmdField i.operandArea lo n := by
  apply BitVec.eq_of_getLsbD_eq; intro k hk
  rw [getLsbD_cmdField _ _ _ _ hk, getLsbD_cmdField _ _ _ _ hk, getLsbD_encode _ _ (by omega)]

@[simp] theorem pathOf_toBit (p : Path) : pathOf p.toBit = p := by cases p <;> rfl

@[simp] theorem toBit_pathOf (b : Bool) : (pathOf b).toBit = b := by cases b <;> rfl

/-- Everything the reserved-bit check can answer (R95 (b)). -/
theorem ifReservedZero_eq_ok {w : BitVec 32} {lo n : Nat} {i j : Instr} :
    ifReservedZero w lo n i = .ok j ↔ cmdField w lo n = 0#n ∧ i = j := by
  simp only [ifReservedZero]
  split <;> simp_all

end Sys2Proof
end

