-- ==== Sys2Proof/Laws/Memory.lean ====
section
/-! SUPPORT. The laws of the buffers: what a read returns after a write, that every write keeps the canonical form and
the capacity, and everything `load`, `loadRange` and `store` can answer (spec/20_memory.md R61, R71). -/

namespace Sys2Proof.Machine

variable {α : Type}

@[simp] theorem Memory.read_nil (a : Nat) : Memory.read ([] : Memory α) a = none := rfl

theorem Memory.read_cons (k : Nat) (v : α) (m : Memory α) (a : Nat) :
    Memory.read ((k, v) :: m) a = if a = k then some v else Memory.read m a := by
  by_cases h : a = k
  · subst h; simp [Memory.read]
  · simp [Memory.read, List.lookup_cons, h, beq_eq_false_iff_ne.mpr h]

theorem Memory.read_append (m₁ m₂ : Memory α) (a : Nat) :
    Memory.read (m₁ ++ m₂) a = (Memory.read m₁ a).or (Memory.read m₂ a) := by
  induction m₁ with
  | nil => simp
  | cons c m ih =>
    obtain ⟨k, v⟩ := c
    simp only [List.cons_append, Memory.read_cons, ih]
    split <;> simp

theorem Memory.read_filter (p : Nat → Bool) (m : Memory α) (a : Nat) :
    Memory.read (m.filter fun c => p c.1) a = if p a then Memory.read m a else none := by
  induction m with
  | nil => simp
  | cons c m ih =>
    obtain ⟨k, v⟩ := c
    by_cases hk : p k <;> by_cases ha : a = k <;> simp_all [Memory.read_cons]

theorem Memory.read_cellsFrom (vs : List α) (base a : Nat) :
    Memory.read (Memory.cellsFrom base vs) a = if base ≤ a then vs[a - base]? else none := by
  induction vs generalizing base with
  | nil => simp [Memory.cellsFrom]
  | cons v vs ih =>
    simp only [Memory.cellsFrom, Memory.read_cons, ih]
    rcases Nat.lt_trichotomy a base with h | h | h
    · rw [if_neg (by omega), if_neg (by omega), if_neg (by omega)]
    · subst h; simp
    · rw [if_neg (by omega), if_pos (by omega), if_pos (by omega)]
      obtain ⟨d, hd⟩ : ∃ d, a - base = d + 1 := ⟨a - base - 1, by omega⟩
      rw [hd, show a - (base + 1) = d by omega]; simp

/-- A read after a write: the value written inside the range written, the old value everywhere else (R71). -/
theorem Memory.read_write (m : Memory α) (base : Nat) (vs : List α) (a : Nat) :
    (m.write base vs).read a = if base ≤ a ∧ a < base + vs.length then vs[a - base]? else m.read a := by
  have hlow := Memory.read_filter (fun k => decide (k < base)) m a
  have hhigh := Memory.read_filter (fun k => decide (base + vs.length ≤ k)) m a
  simp only [Memory.write, Memory.read_append, Memory.read_cellsFrom, hlow, hhigh, decide_eq_true_eq]
  by_cases h1 : a < base
  · rw [if_pos h1, if_neg (by omega), if_neg (by omega), if_neg (by omega)]
    simp
  · rw [if_neg h1, if_pos (by omega)]
    by_cases h2 : a < base + vs.length
    · rw [if_neg (by omega), if_pos ⟨by omega, h2⟩]
      simp
    · rw [if_pos (by omega), if_neg (by omega), List.getElem?_eq_none (by omega)]
      simp

theorem Memory.read_write_other (m : Memory α) (base : Nat) (vs : List α) (a : Nat)
    (h : a < base ∨ base + vs.length ≤ a) : (m.write base vs).read a = m.read a := by
  rw [Memory.read_write, if_neg (by omega)]

/-- The canonical form says that the indices are pairwise strictly rising. -/
theorem Memory.wf_iff (m : Memory α) : m.wf = true ↔ m.Pairwise fun c d => c.1 < d.1 := by
  induction m with
  | nil => simp [Memory.wf]
  | cons c m ih => simp [Memory.wf, ih, List.pairwise_cons]

theorem Memory.mem_cellsFrom {vs : List α} {base : Nat} {c : Nat × α} (h : c ∈ Memory.cellsFrom base vs) :
    base ≤ c.1 ∧ c.1 < base + vs.length ∧ c.2 ∈ vs := by
  induction vs generalizing base with
  | nil => simp [Memory.cellsFrom] at h
  | cons v vs ih =>
    simp only [Memory.cellsFrom, List.mem_cons] at h
    rcases h with rfl | h
    · simp
    · obtain ⟨h1, h2, h3⟩ := ih h
      exact ⟨by omega, by simp; omega, List.mem_cons_of_mem _ h3⟩

theorem Memory.pairwise_cellsFrom (vs : List α) (base : Nat) :
    (Memory.cellsFrom base vs).Pairwise fun c d => c.1 < d.1 := by
  induction vs generalizing base with
  | nil => simp [Memory.cellsFrom]
  | cons v vs ih =>
    refine List.pairwise_cons.mpr ⟨fun d hd => ?_, ih (base + 1)⟩
    have := Memory.mem_cellsFrom hd
    simp; omega

/-- Every write keeps the canonical form. -/
theorem Memory.wf_write {m : Memory α} (h : m.wf = true) (base : Nat) (vs : List α) :
    (m.write base vs).wf = true := by
  rw [Memory.wf_iff] at h ⊢
  refine List.pairwise_append.mpr ⟨h.filter _, List.pairwise_append.mpr
    ⟨Memory.pairwise_cellsFrom vs base, h.filter _, fun c hc d hd => ?_⟩, fun c hc d hd => ?_⟩
  · have h1 := Memory.mem_cellsFrom hc
    have h2 := (List.mem_filter.mp hd).2
    simp at h2; omega
  · have h1 := (List.mem_filter.mp hc).2
    rcases List.mem_append.mp hd with hd | hd
    · have h2 := Memory.mem_cellsFrom hd
      simp at h1; omega
    · have h2 := (List.mem_filter.mp hd).2
      simp at h1 h2; omega

/-- A listed element after a write is a value written or one listed before. -/
theorem Memory.mem_write {m : Memory α} {base : Nat} {vs : List α} {c : Nat × α} (h : c ∈ m.write base vs) :
    (c.2 ∈ vs ∧ base ≤ c.1 ∧ c.1 < base + vs.length) ∨ c ∈ m := by
  rcases List.mem_append.mp h with h | h
  · exact .inr (List.mem_of_mem_filter h)
  · rcases List.mem_append.mp h with h | h
    · have := Memory.mem_cellsFrom h
      exact .inl ⟨this.2.2, this.1, this.2.1⟩
    · exact .inr (List.mem_of_mem_filter h)

/-- A write inside the capacity lists no index beyond it. -/
theorem Memory.within_write {m : Memory α} {cap base : Nat} {vs : List α} (h : m.within cap = true)
    (hb : base + vs.length ≤ cap) : (m.write base vs).within cap = true := by
  simp only [Memory.within, List.all_eq_true, decide_eq_true_eq] at h ⊢
  intro c hc
  rcases Memory.mem_write hc with ⟨-, -, h2⟩ | hm
  · omega
  · exact h c hm

/-- What a read finds is listed. -/
theorem Memory.mem_of_read {m : Memory α} {a : Nat} {v : α} (h : m.read a = some v) : (a, v) ∈ m := by
  induction m with
  | nil => simp at h
  | cons c m ih =>
    obtain ⟨k, w⟩ := c
    rw [Memory.read_cons] at h
    split at h
    · simp_all
    · exact List.mem_cons_of_mem _ (ih h)

/-- Everything `load` can answer. -/
theorem load_eq_ok {b : BufferId} {m : Memory α} {idx : Nat} {v : α} :
    load b m idx = .ok v ↔ idx < capacity b ∧ m.read idx = some v := by
  simp only [load]
  split
  · cases h : m.read idx <;> simp_all
  · simp_all

/-- Everything `loadRange` can answer: the values at the indices `base` to `base + n - 1`, every one present. -/
theorem loadRange_eq_ok {b : BufferId} {m : Memory α} {base n : Nat} {vs : List α} :
    loadRange b m base n = .ok vs ↔
      vs.length = n ∧ ∀ k, k < n → base + k < capacity b ∧ m.read (base + k) = vs[k]? := by
  induction n generalizing base vs with
  | zero => cases vs <;> simp [loadRange]
  | succ n ih =>
    simp only [loadRange]
    constructor
    · intro h
      cases hl : load b m base with
      | error f => rw [hl] at h; cases h
      | ok v =>
        rw [hl] at h
        cases hr : loadRange b m (base + 1) n with
        | error f => simp [hr] at h
        | ok ws =>
          simp only [hr, Except.ok.injEq] at h
          subst h
          obtain ⟨h1, h2⟩ := ih.mp hr
          obtain ⟨h3, h4⟩ := load_eq_ok.mp hl
          refine ⟨by simp [h1], fun k hk => ?_⟩
          cases k with
          | zero => simpa using ⟨h3, h4⟩
          | succ k =>
            have := h2 k (by omega)
            rw [show base + (k + 1) = base + 1 + k by omega]
            simpa using this
    · rintro ⟨h1, h2⟩
      cases vs with
      | nil => simp at h1
      | cons v ws =>
        have h3 : load b m base = .ok v := load_eq_ok.mpr (by simpa using h2 0 (by omega))
        have h4 : loadRange b m (base + 1) n = .ok ws := ih.mpr ⟨by simpa using h1, fun k hk => by
          have := h2 (k + 1) (by omega)
          rw [show base + (k + 1) = base + 1 + k by omega] at this
          simpa using this⟩
        simp [h3, h4]

/-- A range whose every element holds a value is read. -/
theorem loadRange_ok_of_filled {b : BufferId} {m : Memory α} {base n : Nat} (hc : base + n ≤ capacity b)
    (hf : ∀ k, k < n → ∃ v, m.read (base + k) = some v) : ∃ vs, loadRange b m base n = .ok vs := by
  induction n generalizing base with
  | zero => exact ⟨[], rfl⟩
  | succ n ih =>
    obtain ⟨v, hv⟩ := hf 0 (by omega)
    obtain ⟨vs, hvs⟩ := ih (base := base + 1) (by omega) fun k hk => by
      obtain ⟨w, hw⟩ := hf (k + 1) (by omega)
      exact ⟨w, by rw [show base + 1 + k = base + (k + 1) by omega]; exact hw⟩
    have h3 : load b m base = .ok v := load_eq_ok.mpr ⟨by omega, by simpa using hv⟩
    exact ⟨v :: vs, by simp [loadRange, h3, hvs]⟩

/-- Everything `store` can answer. -/
theorem store_eq_ok {b : BufferId} {m m' : Memory α} {base : Nat} {vs : List α} :
    store b m base vs = .ok m' ↔ base + vs.length ≤ capacity b ∧ m' = m.write base vs := by
  simp only [store]
  split <;> simp_all [eq_comm]

end Sys2Proof.Machine
end

