-- ==== Sys2Proof/Laws/State.lean ====
section
/-! SUPPORT. What each named update of the state does to each field, one lemma per field per update, so that no proof
unfolds a record update; and what the operations over the state can answer. -/

namespace Sys2Proof.Machine

/-! R91: `respond data`. -/

@[simp] theorem State.respond_status (data : BitVec 32) (s : State) : (s.respond data).status = s.status := rfl
@[simp] theorem State.respond_lasterr (data : BitVec 32) (s : State) : (s.respond data).lasterr = s.lasterr := rfl
@[simp] theorem State.respond_res (data : BitVec 32) (s : State) : (s.respond data).res = s.res := rfl
@[simp] theorem State.respond_crc (data : BitVec 32) (s : State) : (s.respond data).crc = s.crc := rfl
@[simp] theorem State.respond_crcInit (data : BitVec 32) (s : State) : (s.respond data).crcInit = s.crcInit := rfl
@[simp] theorem State.respond_wh (data : BitVec 32) (s : State) : (s.respond data).wh = s.wh := rfl
@[simp] theorem State.respond_chan (data : BitVec 32) (s : State) : (s.respond data).chan = s.chan := rfl
@[simp] theorem State.respond_numInfoByte (data : BitVec 32) (s : State) : (s.respond data).numInfoByte = s.numInfoByte := rfl
@[simp] theorem State.respond_numPhyByte (data : BitVec 32) (s : State) : (s.respond data).numPhyByte = s.numPhyByte := rfl
@[simp] theorem State.respond_numPhySample (data : BitVec 32) (s : State) : (s.respond data).numPhySample = s.numPhySample := rfl
@[simp] theorem State.respond_phase (data : BitVec 32) (s : State) : (s.respond data).phase = s.phase := rfl
@[simp] theorem State.respond_info (data : BitVec 32) (s : State) : (s.respond data).info = s.info := rfl
@[simp] theorem State.respond_phy (data : BitVec 32) (s : State) : (s.respond data).phy = s.phy := rfl
@[simp] theorem State.respond_samp (data : BitVec 32) (s : State) : (s.respond data).samp = s.samp := rfl
@[simp] theorem State.respond_rsp (data : BitVec 32) (s : State) : (s.respond data).rsp = some ⟨0x00#8, data⟩ := rfl
@[simp] theorem State.respond_port (data : BitVec 32) (s : State) : (s.respond data).port = s.port := rfl
@[simp] theorem State.respond_cfg (data : BitVec 32) (s : State) : (s.respond data).cfg = s.cfg := rfl

/-! R27: `RES <- r`, `respond RES`. -/

@[simp] theorem State.result_status (r : BitVec 32) (s : State) : (s.result r).status = s.status := rfl
@[simp] theorem State.result_lasterr (r : BitVec 32) (s : State) : (s.result r).lasterr = s.lasterr := rfl
@[simp] theorem State.result_res (r : BitVec 32) (s : State) : (s.result r).res = r := rfl
@[simp] theorem State.result_crc (r : BitVec 32) (s : State) : (s.result r).crc = s.crc := rfl
@[simp] theorem State.result_crcInit (r : BitVec 32) (s : State) : (s.result r).crcInit = s.crcInit := rfl
@[simp] theorem State.result_wh (r : BitVec 32) (s : State) : (s.result r).wh = s.wh := rfl
@[simp] theorem State.result_chan (r : BitVec 32) (s : State) : (s.result r).chan = s.chan := rfl
@[simp] theorem State.result_numInfoByte (r : BitVec 32) (s : State) : (s.result r).numInfoByte = s.numInfoByte := rfl
@[simp] theorem State.result_numPhyByte (r : BitVec 32) (s : State) : (s.result r).numPhyByte = s.numPhyByte := rfl
@[simp] theorem State.result_numPhySample (r : BitVec 32) (s : State) : (s.result r).numPhySample = s.numPhySample := rfl
@[simp] theorem State.result_phase (r : BitVec 32) (s : State) : (s.result r).phase = s.phase := rfl
@[simp] theorem State.result_info (r : BitVec 32) (s : State) : (s.result r).info = s.info := rfl
@[simp] theorem State.result_phy (r : BitVec 32) (s : State) : (s.result r).phy = s.phy := rfl
@[simp] theorem State.result_samp (r : BitVec 32) (s : State) : (s.result r).samp = s.samp := rfl
@[simp] theorem State.result_rsp (r : BitVec 32) (s : State) : (s.result r).rsp = some ⟨0x00#8, r⟩ := rfl
@[simp] theorem State.result_port (r : BitVec 32) (s : State) : (s.result r).port = s.port := rfl
@[simp] theorem State.result_cfg (r : BitVec 32) (s : State) : (s.result r).cfg = s.cfg := rfl

/-! R255: a command abandoned. -/

@[simp] theorem State.abandon_status (code : BitVec 8) (bit : Nat) (s : State) : (s.abandon code bit).status = setBit (setBit s.status statusErr) bit := rfl
@[simp] theorem State.abandon_lasterr (code : BitVec 8) (bit : Nat) (s : State) : (s.abandon code bit).lasterr = code := rfl
@[simp] theorem State.abandon_res (code : BitVec 8) (bit : Nat) (s : State) : (s.abandon code bit).res = s.res := rfl
@[simp] theorem State.abandon_crc (code : BitVec 8) (bit : Nat) (s : State) : (s.abandon code bit).crc = s.crc := rfl
@[simp] theorem State.abandon_crcInit (code : BitVec 8) (bit : Nat) (s : State) : (s.abandon code bit).crcInit = s.crcInit := rfl
@[simp] theorem State.abandon_wh (code : BitVec 8) (bit : Nat) (s : State) : (s.abandon code bit).wh = s.wh := rfl
@[simp] theorem State.abandon_chan (code : BitVec 8) (bit : Nat) (s : State) : (s.abandon code bit).chan = s.chan := rfl
@[simp] theorem State.abandon_numInfoByte (code : BitVec 8) (bit : Nat) (s : State) : (s.abandon code bit).numInfoByte = s.numInfoByte := rfl
@[simp] theorem State.abandon_numPhyByte (code : BitVec 8) (bit : Nat) (s : State) : (s.abandon code bit).numPhyByte = s.numPhyByte := rfl
@[simp] theorem State.abandon_numPhySample (code : BitVec 8) (bit : Nat) (s : State) : (s.abandon code bit).numPhySample = s.numPhySample := rfl
@[simp] theorem State.abandon_phase (code : BitVec 8) (bit : Nat) (s : State) : (s.abandon code bit).phase = s.phase := rfl
@[simp] theorem State.abandon_info (code : BitVec 8) (bit : Nat) (s : State) : (s.abandon code bit).info = s.info := rfl
@[simp] theorem State.abandon_phy (code : BitVec 8) (bit : Nat) (s : State) : (s.abandon code bit).phy = s.phy := rfl
@[simp] theorem State.abandon_samp (code : BitVec 8) (bit : Nat) (s : State) : (s.abandon code bit).samp = s.samp := rfl
@[simp] theorem State.abandon_rsp (code : BitVec 8) (bit : Nat) (s : State) : (s.abandon code bit).rsp = some ⟨code, 0xFFFFFFFF#32⟩ := rfl
@[simp] theorem State.abandon_port (code : BitVec 8) (bit : Nat) (s : State) : (s.abandon code bit).port = s.port := rfl
@[simp] theorem State.abandon_cfg (code : BitVec 8) (bit : Nat) (s : State) : (s.abandon code bit).cfg = s.cfg := rfl

/-! R255: `raise e`. -/

@[simp] theorem State.raise_status (e : Err) (s : State) : (s.raise e).status = setBit (setBit s.status statusErr) (errBit e) := rfl
@[simp] theorem State.raise_lasterr (e : Err) (s : State) : (s.raise e).lasterr = errCode e := rfl
@[simp] theorem State.raise_res (e : Err) (s : State) : (s.raise e).res = s.res := rfl
@[simp] theorem State.raise_crc (e : Err) (s : State) : (s.raise e).crc = s.crc := rfl
@[simp] theorem State.raise_crcInit (e : Err) (s : State) : (s.raise e).crcInit = s.crcInit := rfl
@[simp] theorem State.raise_wh (e : Err) (s : State) : (s.raise e).wh = s.wh := rfl
@[simp] theorem State.raise_chan (e : Err) (s : State) : (s.raise e).chan = s.chan := rfl
@[simp] theorem State.raise_numInfoByte (e : Err) (s : State) : (s.raise e).numInfoByte = s.numInfoByte := rfl
@[simp] theorem State.raise_numPhyByte (e : Err) (s : State) : (s.raise e).numPhyByte = s.numPhyByte := rfl
@[simp] theorem State.raise_numPhySample (e : Err) (s : State) : (s.raise e).numPhySample = s.numPhySample := rfl
@[simp] theorem State.raise_phase (e : Err) (s : State) : (s.raise e).phase = s.phase := rfl
@[simp] theorem State.raise_info (e : Err) (s : State) : (s.raise e).info = s.info := rfl
@[simp] theorem State.raise_phy (e : Err) (s : State) : (s.raise e).phy = s.phy := rfl
@[simp] theorem State.raise_samp (e : Err) (s : State) : (s.raise e).samp = s.samp := rfl
@[simp] theorem State.raise_rsp (e : Err) (s : State) : (s.raise e).rsp = some ⟨errCode e, 0xFFFFFFFF#32⟩ := rfl
@[simp] theorem State.raise_port (e : Err) (s : State) : (s.raise e).port = s.port := rfl
@[simp] theorem State.raise_cfg (e : Err) (s : State) : (s.raise e).cfg = s.cfg := rfl

/-! R256: a warning recorded. -/

@[simp] theorem State.recordWarning_status (w : Warning) (r : BitVec 32) (s : State) : (s.recordWarning w r).status = setBit (setBit s.status statusWarn) (warningBit w) := rfl
@[simp] theorem State.recordWarning_lasterr (w : Warning) (r : BitVec 32) (s : State) : (s.recordWarning w r).lasterr = s.lasterr := rfl
@[simp] theorem State.recordWarning_res (w : Warning) (r : BitVec 32) (s : State) : (s.recordWarning w r).res = r := rfl
@[simp] theorem State.recordWarning_crc (w : Warning) (r : BitVec 32) (s : State) : (s.recordWarning w r).crc = s.crc := rfl
@[simp] theorem State.recordWarning_crcInit (w : Warning) (r : BitVec 32) (s : State) : (s.recordWarning w r).crcInit = s.crcInit := rfl
@[simp] theorem State.recordWarning_wh (w : Warning) (r : BitVec 32) (s : State) : (s.recordWarning w r).wh = s.wh := rfl
@[simp] theorem State.recordWarning_chan (w : Warning) (r : BitVec 32) (s : State) : (s.recordWarning w r).chan = s.chan := rfl
@[simp] theorem State.recordWarning_numInfoByte (w : Warning) (r : BitVec 32) (s : State) : (s.recordWarning w r).numInfoByte = s.numInfoByte := rfl
@[simp] theorem State.recordWarning_numPhyByte (w : Warning) (r : BitVec 32) (s : State) : (s.recordWarning w r).numPhyByte = s.numPhyByte := rfl
@[simp] theorem State.recordWarning_numPhySample (w : Warning) (r : BitVec 32) (s : State) : (s.recordWarning w r).numPhySample = s.numPhySample := rfl
@[simp] theorem State.recordWarning_phase (w : Warning) (r : BitVec 32) (s : State) : (s.recordWarning w r).phase = s.phase := rfl
@[simp] theorem State.recordWarning_info (w : Warning) (r : BitVec 32) (s : State) : (s.recordWarning w r).info = s.info := rfl
@[simp] theorem State.recordWarning_phy (w : Warning) (r : BitVec 32) (s : State) : (s.recordWarning w r).phy = s.phy := rfl
@[simp] theorem State.recordWarning_samp (w : Warning) (r : BitVec 32) (s : State) : (s.recordWarning w r).samp = s.samp := rfl
@[simp] theorem State.recordWarning_rsp (w : Warning) (r : BitVec 32) (s : State) : (s.recordWarning w r).rsp = some ⟨warningCode w, r⟩ := rfl
@[simp] theorem State.recordWarning_port (w : Warning) (r : BitVec 32) (s : State) : (s.recordWarning w r).port = s.port := rfl
@[simp] theorem State.recordWarning_cfg (w : Warning) (r : BitVec 32) (s : State) : (s.recordWarning w r).cfg = s.cfg := rfl

/-! R264: the acknowledgement. -/

@[simp] theorem State.acknowledge_status (s : State) : (s.acknowledge).status = clearSticky s.status := rfl
@[simp] theorem State.acknowledge_lasterr (s : State) : (s.acknowledge).lasterr = 0 := rfl
@[simp] theorem State.acknowledge_res (s : State) : (s.acknowledge).res = s.res := rfl
@[simp] theorem State.acknowledge_crc (s : State) : (s.acknowledge).crc = s.crc := rfl
@[simp] theorem State.acknowledge_crcInit (s : State) : (s.acknowledge).crcInit = s.crcInit := rfl
@[simp] theorem State.acknowledge_wh (s : State) : (s.acknowledge).wh = s.wh := rfl
@[simp] theorem State.acknowledge_chan (s : State) : (s.acknowledge).chan = s.chan := rfl
@[simp] theorem State.acknowledge_numInfoByte (s : State) : (s.acknowledge).numInfoByte = s.numInfoByte := rfl
@[simp] theorem State.acknowledge_numPhyByte (s : State) : (s.acknowledge).numPhyByte = s.numPhyByte := rfl
@[simp] theorem State.acknowledge_numPhySample (s : State) : (s.acknowledge).numPhySample = s.numPhySample := rfl
@[simp] theorem State.acknowledge_phase (s : State) : (s.acknowledge).phase = s.phase := rfl
@[simp] theorem State.acknowledge_info (s : State) : (s.acknowledge).info = s.info := rfl
@[simp] theorem State.acknowledge_phy (s : State) : (s.acknowledge).phy = s.phy := rfl
@[simp] theorem State.acknowledge_samp (s : State) : (s.acknowledge).samp = s.samp := rfl
@[simp] theorem State.acknowledge_rsp (s : State) : (s.acknowledge).rsp = s.rsp := rfl
@[simp] theorem State.acknowledge_port (s : State) : (s.acknowledge).port = s.port := rfl
@[simp] theorem State.acknowledge_cfg (s : State) : (s.acknowledge).cfg = s.cfg := rfl

/-! R102: a command presented. -/

@[simp] theorem State.presentCommand_status (s : State) (w : BitVec 32) : (s.presentCommand w).status = s.status := rfl
@[simp] theorem State.presentCommand_lasterr (s : State) (w : BitVec 32) : (s.presentCommand w).lasterr = s.lasterr := rfl
@[simp] theorem State.presentCommand_res (s : State) (w : BitVec 32) : (s.presentCommand w).res = s.res := rfl
@[simp] theorem State.presentCommand_crc (s : State) (w : BitVec 32) : (s.presentCommand w).crc = s.crc := rfl
@[simp] theorem State.presentCommand_crcInit (s : State) (w : BitVec 32) : (s.presentCommand w).crcInit = s.crcInit := rfl
@[simp] theorem State.presentCommand_wh (s : State) (w : BitVec 32) : (s.presentCommand w).wh = s.wh := rfl
@[simp] theorem State.presentCommand_chan (s : State) (w : BitVec 32) : (s.presentCommand w).chan = s.chan := rfl
@[simp] theorem State.presentCommand_numInfoByte (s : State) (w : BitVec 32) : (s.presentCommand w).numInfoByte = s.numInfoByte := rfl
@[simp] theorem State.presentCommand_numPhyByte (s : State) (w : BitVec 32) : (s.presentCommand w).numPhyByte = s.numPhyByte := rfl
@[simp] theorem State.presentCommand_numPhySample (s : State) (w : BitVec 32) : (s.presentCommand w).numPhySample = s.numPhySample := rfl
@[simp] theorem State.presentCommand_phase (s : State) (w : BitVec 32) : (s.presentCommand w).phase = s.phase := rfl
@[simp] theorem State.presentCommand_info (s : State) (w : BitVec 32) : (s.presentCommand w).info = s.info := rfl
@[simp] theorem State.presentCommand_phy (s : State) (w : BitVec 32) : (s.presentCommand w).phy = s.phy := rfl
@[simp] theorem State.presentCommand_samp (s : State) (w : BitVec 32) : (s.presentCommand w).samp = s.samp := rfl
@[simp] theorem State.presentCommand_rsp (s : State) (w : BitVec 32) : (s.presentCommand w).rsp = s.rsp := rfl
@[simp] theorem State.presentCommand_port (s : State) (w : BitVec 32) : (s.presentCommand w).port = .command w :: s.port := rfl
@[simp] theorem State.presentCommand_cfg (s : State) (w : BitVec 32) : (s.presentCommand w).cfg = s.cfg := rfl

/-! R280: reset. -/

@[simp] theorem State.applyReset_status (s : State) : (s.applyReset).status = State.reset.status := rfl
@[simp] theorem State.applyReset_lasterr (s : State) : (s.applyReset).lasterr = State.reset.lasterr := rfl
@[simp] theorem State.applyReset_res (s : State) : (s.applyReset).res = State.reset.res := rfl
@[simp] theorem State.applyReset_crc (s : State) : (s.applyReset).crc = State.reset.crc := rfl
@[simp] theorem State.applyReset_crcInit (s : State) : (s.applyReset).crcInit = State.reset.crcInit := rfl
@[simp] theorem State.applyReset_wh (s : State) : (s.applyReset).wh = State.reset.wh := rfl
@[simp] theorem State.applyReset_chan (s : State) : (s.applyReset).chan = State.reset.chan := rfl
@[simp] theorem State.applyReset_numInfoByte (s : State) : (s.applyReset).numInfoByte = State.reset.numInfoByte := rfl
@[simp] theorem State.applyReset_numPhyByte (s : State) : (s.applyReset).numPhyByte = State.reset.numPhyByte := rfl
@[simp] theorem State.applyReset_numPhySample (s : State) : (s.applyReset).numPhySample = State.reset.numPhySample := rfl
@[simp] theorem State.applyReset_phase (s : State) : (s.applyReset).phase = State.reset.phase := rfl
@[simp] theorem State.applyReset_info (s : State) : (s.applyReset).info = State.reset.info := rfl
@[simp] theorem State.applyReset_phy (s : State) : (s.applyReset).phy = State.reset.phy := rfl
@[simp] theorem State.applyReset_samp (s : State) : (s.applyReset).samp = State.reset.samp := rfl
@[simp] theorem State.applyReset_rsp (s : State) : (s.applyReset).rsp = State.reset.rsp := rfl
@[simp] theorem State.applyReset_port (s : State) : (s.applyReset).port = s.port := rfl
@[simp] theorem State.applyReset_cfg (s : State) : (s.applyReset).cfg = s.cfg := rfl

/-- With `STRICT_RESERVED` a warning is a rejection (R258). -/
theorem State.warn_strict (w : Warning) (r : BitVec 32) (s : State) (h : s.cfg.strictReserved = true) :
    s.warn w r = s.abandon (warningCode w) (warningBit w) := by simp [State.warn, h]

/-- Without `STRICT_RESERVED` a warning is recorded and the command completes (R256). -/
theorem State.warn_lenient (w : Warning) (r : BitVec 32) (s : State) (h : s.cfg.strictReserved = false) :
    s.warn w r = s.recordWarning w r := by simp [State.warn, h]

/-- Everything a warning can do: the two settings of R258. -/
theorem State.warn_cases (w : Warning) (r : BitVec 32) (s : State) :
    (s.cfg.strictReserved = true ∧ s.warn w r = s.abandon (warningCode w) (warningBit w)) ∨
      (s.cfg.strictReserved = false ∧ s.warn w r = s.recordWarning w r) := by
  cases h : s.cfg.strictReserved
  · exact .inr ⟨rfl, s.warn_lenient w r h⟩
  · exact .inl ⟨rfl, s.warn_strict w r h⟩

/-- Everything taking an event can answer (R102). -/
theorem State.takeEvent_cases (s : State) :
    (s.port = [] ∧ s.takeEvent = none) ∨
      ∃ e rest, s.port = e :: rest ∧ s.takeEvent = some (e, { s with port := rest }) := by
  cases h : s.port with
  | nil => exact .inl ⟨rfl, by simp [State.takeEvent, h]⟩
  | cons e rest => exact .inr ⟨e, rest, rfl, by simp [State.takeEvent, h]⟩

/-- A command presented is the next event taken (R102). -/
@[simp] theorem State.takeEvent_presentCommand (s : State) (w : BitVec 32) :
    (s.presentCommand w).takeEvent = some (.command w, s) := rfl

/-- A command whose buffer access may stop answers a next state exactly when the access succeeds and what follows does. -/
theorem orStop_eq_next {α : Type} {r : Except Fault α} {k : α → Host.Outcome State Fault Refusal} {t : State} :
    orStop r k = .next t ↔ ∃ a, r = .ok a ∧ k a = .next t := by
  cases r <;> simp [orStop]

@[simp] theorem orStop_ok {α : Type} (a : α) (k : α → Host.Outcome State Fault Refusal) :
    orStop (.ok a) k = k a := rfl

@[simp] theorem orStop_error {α : Type} (f : Fault) (k : α → Host.Outcome State Fault Refusal) :
    orStop (.error f) k = .fault f := rfl

/-- Everything a step can do: wait, reset, run the decoded command, refuse the word. -/
theorem step_cases (s : State) :
    (s.port = [] ∧ step s = .next s) ∨
      (∃ rest, s.port = .reset :: rest ∧ step s = .next ({ s with port := rest } : State).applyReset) ∨
      (∃ w rest i, s.port = .command w :: rest ∧ decode w = .ok i ∧ step s = exec i { s with port := rest }) ∨
      (∃ w rest e, s.port = .command w :: rest ∧ decode w = .error e ∧
        step s = .next (({ s with port := rest } : State).raise .illegalCommand)) := by
  rcases s.takeEvent_cases with ⟨hp, ht⟩ | ⟨e, rest, hp, ht⟩
  · exact .inl ⟨hp, by simp [step, ht]⟩
  · cases e with
    | reset => exact .inr (.inl ⟨rest, hp, by simp [step, ht]⟩)
    | command w =>
      cases hd : decode w with
      | ok i => exact .inr (.inr (.inl ⟨w, rest, i, hp, hd, by simp [step, ht, hd]⟩))
      | error e => exact .inr (.inr (.inr ⟨w, rest, e, hp, hd, by simp [step, ht, hd]⟩))

end Sys2Proof.Machine
end

