-- ==== Sys2Proof/Laws/Exec.lean ====
section
/-! SUPPORT. Everything a command with a check or a buffer access can do: if it answers a next state, which check
answered it or which values it read and wrote. The other commands answer one update of the state, by `rfl`. -/

namespace Sys2Proof.Machine

/-- Everything `SET_CHAN` can do (R122). -/
theorem execSetChan_cases {ch : BitVec 6} {s t : State} (h : execSetChan ch s = .next t) :
    (39 < ch.toNat ∧ t = s.raise .invalidChannel) ∨
      (ch.toNat ≤ 39 ∧ t = ({ s with chan := ch } : State).respond 0) := by
  unfold execSetChan chanMax at h
  split at h <;> cases h
  · exact .inl ⟨‹_›, rfl⟩
  · exact .inr ⟨by omega, rfl⟩

/-- Everything `PUSH_INFO` can do (R123). -/
theorem execPushInfo_cases {byte : Byte} {s t : State} (h : execPushInfo byte s = .next t) :
    (43 ≤ s.numInfoByte.toNat ∧ t = s.raise .payloadTooLarge) ∨
      (s.numInfoByte.toNat < 43 ∧
        t = ({ s with
          info := s.info.write s.numInfoByte.toNat [byte]
          numInfoByte := s.numInfoByte + 1
          status := clearBit s.status statusCrcApp } : State).respond 0) := by
  unfold execPushInfo maxInfoByte at h
  split at h
  · cases h; exact .inl ⟨‹_›, rfl⟩
  · obtain ⟨info, hs, h⟩ := orStop_eq_next.mp h
    obtain ⟨-, rfl⟩ := store_eq_ok.mp hs
    cases h
    exact .inr ⟨by omega, rfl⟩

/-- The valid range of `INFO` depends on `STATUS.CRCAPP` and the count alone (R125). -/
theorem infoLimit_congr {s t : State} (h1 : t.status = s.status) (h2 : t.numInfoByte = s.numInfoByte) :
    infoLimit t = infoLimit s := by
  have h3 : t.crcApp = s.crcApp := by unfold State.crcApp; rw [h1]
  unfold infoLimit
  rw [h2, h3]

/-- Everything `RD_INFO` can do (R125). -/
theorem execRdInfo_cases {idx : BitVec 6} {s t : State} (h : execRdInfo idx s = .next t) :
    (infoLimit s ≤ idx.toNat ∧ t = s.raise .indexOutOfRange) ∨
      ∃ b, idx.toNat < infoLimit s ∧ s.info.read idx.toNat = some b ∧ t = s.respond (zext32 b) := by
  unfold execRdInfo at h
  split at h
  · cases h; exact .inl ⟨‹_›, rfl⟩
  · obtain ⟨b, hl, h⟩ := orStop_eq_next.mp h
    cases h
    exact .inr ⟨b, by omega, (load_eq_ok.mp hl).2, rfl⟩

/-- Everything `RD_PHY` can do (R126). -/
theorem execRdPhy_cases {idx : BitVec 6} {s t : State} (h : execRdPhy idx s = .next t) :
    (s.numPhyByte.toNat ≤ idx.toNat ∧ t = s.raise .indexOutOfRange) ∨
      ∃ b, idx.toNat < s.numPhyByte.toNat ∧ s.phy.read idx.toNat = some b ∧ t = s.respond (zext32 b) := by
  unfold execRdPhy at h
  split at h
  · cases h; exact .inl ⟨‹_›, rfl⟩
  · obtain ⟨b, hl, h⟩ := orStop_eq_next.mp h
    cases h
    exact .inr ⟨b, by omega, (load_eq_ok.mp hl).2, rfl⟩

/-- Everything `RD_SAMPLE` can do (R127). -/
theorem execRdSample_cases {idx : BitVec 11} {s t : State} (h : execRdSample idx s = .next t) :
    (s.numPhySample.toNat ≤ idx.toNat ∧ t = s.raise .indexOutOfRange) ∨
      ∃ x, idx.toNat < s.numPhySample.toNat ∧ s.samp.read idx.toNat = some x ∧ t = s.respond (packSample x) := by
  unfold execRdSample at h
  split at h
  · cases h; exact .inl ⟨‹_›, rfl⟩
  · obtain ⟨x, hl, h⟩ := orStop_eq_next.mp h
    cases h
    exact .inr ⟨x, by omega, (load_eq_ok.mp hl).2, rfl⟩

/-- Everything `RD_REG` can do (R129). -/
theorem execRdReg_cases {n : BitVec 4} {s t : State} (h : execRdReg n s = .next t) :
    (s.readReg n = none ∧ t = s.raise .illegalCommand) ∨ ∃ v, s.readReg n = some v ∧ t = s.respond v := by
  unfold execRdReg at h
  split at h <;> cases h
  · exact .inr ⟨_, ‹_›, rfl⟩
  · exact .inl ⟨‹_›, rfl⟩

/-- Everything `CRC_RUN` can do (R151). -/
theorem execCrcRun_cases {path : Path} {s t : State} (h : execCrcRun path s = .next t) :
    ∃ body, loadRange .info s.info 5 (s.numInfoByte.toNat - 5) = .ok body ∧
      t = ({ s with crc := crcOver path s.crcInit body } : State).respond (zext32 (crcOver path s.crcInit body)) := by
  obtain ⟨body, hl, h⟩ := orStop_eq_next.mp h
  cases h
  exact ⟨body, hl, rfl⟩

/-- Everything `WH_TBL37` can do (R168). -/
theorem execWhTbl37_cases {idx : BitVec 6} {byte : Byte} {s t : State} (h : execWhTbl37 idx byte s = .next t) :
    (whTable37[idx.toNat]? = none ∧ t = s.raise .indexOutOfRange) ∨
      ∃ k, whTable37[idx.toNat]? = some k ∧ t = s.result (zext32 (byte ^^^ k)) := by
  unfold execWhTbl37 at h
  split at h <;> cases h
  · exact .inl ⟨‹_›, rfl⟩
  · exact .inr ⟨_, ‹_›, rfl⟩

/-- Everything `HDR_ADV` can do (R181). -/
theorem execHdrAdv_cases {ty : BitVec 5} {tx rx : Bool} {len : BitVec 8} {s t : State}
    (h : execHdrAdv ty tx rx len s = .next t) :
    (43 < len.toNat ∧ t = s.raise .payloadTooLarge) ∨
      (len.toNat ≤ 43 ∧ advTypeCode (pktTypeOf ty) = 0xF#4 ∧
        t = s.warn .reservedPduType (advHeader (advTypeCode (pktTypeOf ty)) tx rx len)) ∨
      (len.toNat ≤ 43 ∧ advTypeCode (pktTypeOf ty) ≠ 0xF#4 ∧
        t = s.result (advHeader (advTypeCode (pktTypeOf ty)) tx rx len)) := by
  unfold execHdrAdv maxInfoByte at h
  split at h
  · cases h; exact .inl ⟨‹_›, rfl⟩
  · split at h <;> cases h
    · exact .inr (.inl ⟨by omega, ‹_›, rfl⟩)
    · exact .inr (.inr ⟨by omega, ‹_›, rfl⟩)

/-- Everything `HDR_DATA` can do (R185). -/
theorem execHdrData_cases {llid : BitVec 2} {nesn sn md : Bool} {len : BitVec 8} {s t : State}
    (h : execHdrData llid nesn sn md len s = .next t) :
    (31 < len.toNat ∧ t = s.raise .payloadTooLarge) ∨
      (len.toNat ≤ 31 ∧ t = s.result (dataHeader llid nesn sn md len)) := by
  unfold execHdrData at h
  split at h <;> cases h
  · exact .inl ⟨‹_›, rfl⟩
  · exact .inr ⟨by omega, rfl⟩

/-- Everything `LL_OPCODE` can do (R190). -/
theorem execLlOpcode_cases {ty : BitVec 5} {s t : State} (h : execLlOpcode ty s = .next t) :
    (llOpcodeOf s.cfg ty = none ∧ t = s.warn .reservedOpcode 0xFF#32) ∨
      ∃ o, llOpcodeOf s.cfg ty = some o ∧ t = s.result (zext32 o) := by
  unfold execLlOpcode at h
  split at h <;> cases h
  · exact .inr ⟨_, ‹_›, rfl⟩
  · exact .inl ⟨‹_›, rfl⟩

/-- Everything `ASSEMBLE` can do (R200 to R202). -/
theorem execAssemble_cases {path : Path} {s t : State} (h : execAssemble path s = .next t) :
    (s.numInfoByte.toNat < 5 ∧ t = s.raise .packetTooShort) ∨
      (5 ≤ s.numInfoByte.toNat ∧ path = .table ∧ s.chan ≠ 37 ∧ t = s.raise .tableChannelMismatch) ∨
      (5 ≤ s.numInfoByte.toNat ∧ ¬(path = .table ∧ s.chan ≠ 37) ∧ ∃ (bytes : List (BitVec 8)) (crc : BitVec 24)
        (region : List (BitVec 8) × BitVec 7),
        loadRange .info s.info 0 s.numInfoByte.toNat = .ok bytes ∧
        crc = crcOver path s.crcInit (bytes.drop 5) ∧
        region = whitenRegion path s (bytes.drop 5 ++ crcToBytes crc) ∧
        s.numInfoByte.toNat + 3 ≤ capacity .info ∧ (bytes.take 5 ++ region.1).length ≤ capacity .phy ∧
        t = ({ s with
          crc := crc
          wh := region.2
          info := s.info.write s.numInfoByte.toNat (crcToBytes crc)
          phy := s.phy.write 0 (bytes.take 5 ++ region.1)
          numPhyByte := s.numInfoByte + 3
          status := setBit s.status statusCrcApp } : State).respond (zext32 (s.numInfoByte + 3))) := by
  unfold execAssemble at h
  split at h
  · cases h; exact .inl ⟨‹_›, rfl⟩
  · split at h
    · next h5 hm => cases h; exact .inr (.inl ⟨by simp only [leadBytes] at h5; omega, hm.1, hm.2, rfl⟩)
    · next h5 hm =>
      obtain ⟨bytes, hb, h⟩ := orStop_eq_next.mp h
      obtain ⟨info, hi, h⟩ := orStop_eq_next.mp h
      obtain ⟨phy, hp, h⟩ := orStop_eq_next.mp h
      obtain ⟨hi1, rfl⟩ := store_eq_ok.mp hi
      obtain ⟨hp1, rfl⟩ := store_eq_ok.mp hp
      cases h
      exact .inr (.inr ⟨by simp only [leadBytes] at h5; omega, hm, bytes, _, _, hb, rfl, rfl,
        hi1, by simpa using hp1, rfl⟩)

/-- Everything `MOD` can do (R220). -/
theorem execMod_cases {s t : State} (h : execMod s = .next t) :
    (47 < s.numPhyByte.toNat ∧ t = s.raise .payloadTooLarge) ∨
      (s.numPhyByte.toNat ≤ 47 ∧ ∃ (bytes : List (BitVec 8)) (xs : List Sample),
        loadRange .phy s.phy 0 s.numPhyByte.toNat = .ok bytes ∧
        samplesOf s.cfg (phaseSeq s.cfg (bytesToBits bytes)) = .ok xs ∧ xs.length ≤ capacity .samp ∧
        t = ({ s with
          samp := s.samp.write 0 xs
          phase := BitVec.ofNat 32 ((phaseSeq s.cfg (bytesToBits bytes)).getLastD 0)
          numPhySample := BitVec.ofNat 11 (32 * s.numPhyByte.toNat + 16) } : State).respond
            (BitVec.ofNat 32 (32 * s.numPhyByte.toNat + 16))) := by
  unfold execMod at h
  split at h
  · next hm => cases h; exact .inl ⟨by simp only [maxPhyByte] at hm; omega, rfl⟩
  · next hm =>
    obtain ⟨bytes, hb, h⟩ := orStop_eq_next.mp h
    obtain ⟨xs, hx, h⟩ := orStop_eq_next.mp h
    obtain ⟨samp, hs, h⟩ := orStop_eq_next.mp h
    obtain ⟨hs1, rfl⟩ := store_eq_ok.mp hs
    cases h
    exact .inr ⟨by simp only [maxPhyByte] at hm; omega, bytes, xs, hb, hx, by simpa using hs1, rfl⟩

/-- Everything `CH_FREQ` can do (R240). -/
theorem execChFreq_cases {ch : BitVec 8} {s t : State} (h : execChFreq ch s = .next t) :
    (chanFreq ch.toNat = none ∧ t = s.raise .invalidChannel) ∨
      ∃ f, chanFreq ch.toNat = some f ∧ t = s.result (BitVec.ofNat 32 f) := by
  unfold execChFreq at h
  split at h <;> cases h
  · exact .inr ⟨_, ‹_›, rfl⟩
  · exact .inl ⟨‹_›, rfl⟩

end Sys2Proof.Machine
end

