-- ==== Sys2Proof/Laws/Gfsk.lean ====
section
/-! SUPPORT. The laws of the modulator's sequences (spec/45_gfsk.md R212, R213, R218, R225): lengths, elements, bounds,
and everything `samplesOf` can answer. -/

namespace Sys2Proof.Machine

@[simp] theorem length_symbolImpulses (bits : List Bool) :
    (bits.flatMap symbolImpulse).length = 4 * bits.length := by
  induction bits with
  | nil => rfl
  | cons b bs ih => simp only [List.flatMap_cons, List.length_append, ih, List.length_cons]; simp [symbolImpulse]; omega

@[simp] theorem length_impulseTrain (bits : List Bool) : (impulseTrain bits).length = 4 * bits.length + 32 := by
  rw [impulseTrain, List.length_append, List.length_append, length_symbolImpulses]
  simp [settle]; omega

@[simp] theorem length_slidingDot (c : List Int) (n : Nat) (x : List Int) : (slidingDot c n x).length = n := by
  induction n generalizing x with
  | zero => rfl
  | succ n ih => simp [slidingDot, ih]

/-- The sum at position `i` is the one over the sequence from its element `i` on. -/
theorem getElem?_slidingDot (c : List Int) (n i : Nat) (x : List Int) (h : i < n) :
    (slidingDot c n x)[i]? = some (sumOfProducts c (x.drop i)) := by
  induction n generalizing i x with
  | zero => omega
  | succ n ih =>
    cases i with
    | zero => simp [slidingDot]
    | succ i => simp [slidingDot, ih i x.tail (by omega)]

@[simp] theorem length_phasesFrom (P p : Nat) (acc : List Int) : (phasesFrom P p acc).length = acc.length + 1 := by
  induction acc generalizing p with
  | nil => rfl
  | cons a rest ih => simp [phasesFrom, ih]

@[simp] theorem getElem?_phasesFrom_zero (P p : Nat) (acc : List Int) : (phasesFrom P p acc)[0]? = some p := by
  cases acc <;> rfl

/-- One increment of the recurrence. -/
theorem getElem?_phasesFrom_succ (P p i : Nat) (acc : List Int) (a : Int) (h : acc[i]? = some a) :
    ∃ q, (phasesFrom P p acc)[i]? = some q ∧ (phasesFrom P p acc)[i + 1]? = some ((q + a) % P).toNat := by
  induction acc generalizing p i with
  | nil => simp at h
  | cons b rest ih =>
    cases i with
    | zero =>
      simp only [List.getElem?_cons_zero, Option.some.injEq] at h
      subst h
      exact ⟨p, by simp [phasesFrom], by rw [phasesFrom, List.getElem?_cons_succ, getElem?_phasesFrom_zero]⟩
    | succ i => simpa [phasesFrom] using ih ((p + b) % P).toNat i (by simpa using h)

/-- Every phase is below the modulus (R218). -/
theorem lt_of_mem_phasesFrom {P p : Nat} {acc : List Int} (hP : 0 < P) (hp : p < P) :
    ∀ q ∈ phasesFrom P p acc, q < P := by
  induction acc generalizing p with
  | nil => simpa [phasesFrom] using hp
  | cons a rest ih =>
    have h : ((p + a) % P).toNat < P := by
      have := Int.emod_lt_of_pos (p + a) (show (0 : Int) < P by omega)
      omega
    simpa [phasesFrom] using ⟨hp, ih h⟩

/-- Everything `sampleAt` can answer. -/
theorem sampleAt_eq_ok {cfg : Config} {p : Nat} {x : Sample} :
    sampleAt cfg p = .ok x ↔ ∃ c d, cfg.cosTab[p]? = some c ∧ cfg.sinTab[p]? = some d ∧
      x = ⟨narrow cfg c, narrow cfg d⟩ := by
  unfold sampleAt
  split
  · next c d hc hd => simp [hc, hd, eq_comm]
  · next h =>
    constructor
    · intro h'; cases h'
    · rintro ⟨c, d, hc, hd, -⟩; exact absurd hd (h c d hc)

/-- Everything `samplesOf` can answer: the sample of each phase, in order. -/
theorem samplesOf_eq_ok {cfg : Config} {ps : List Nat} {xs : List Sample} :
    samplesOf cfg ps = .ok xs ↔ List.Forall₂ (fun p x => sampleAt cfg p = .ok x) ps xs := by
  induction ps generalizing xs with
  | nil => cases xs <;> simp [samplesOf]
  | cons p ps ih =>
    simp only [samplesOf]
    cases hx : sampleAt cfg p with
    | error f =>
      simp only [reduceCtorEq, false_iff]
      intro h
      cases h with
      | cons h1 h2 => rw [hx] at h1; cases h1
    | ok x =>
      cases hr : samplesOf cfg ps with
      | error f =>
        simp only [reduceCtorEq, false_iff]
        intro h
        cases h with
        | cons h1 h2 => rw [ih.mpr h2] at hr; cases hr
      | ok ys =>
        simp only [Except.ok.injEq]
        constructor
        · rintro rfl; exact .cons hx (ih.mp hr)
        · intro h
          cases h with
          | cons h1 h2 =>
            rw [hx] at h1; rw [ih.mpr h2] at hr
            cases h1; cases hr; rfl

/-- Where both tables have an entry for every phase, the samples are answered (R8, R225). -/
theorem samplesOf_ok {cfg : Config} {ps : List Nat} (hc : ∀ p ∈ ps, p < cfg.cosTab.length)
    (hs : ∀ p ∈ ps, p < cfg.sinTab.length) : ∃ xs, samplesOf cfg ps = .ok xs := by
  induction ps with
  | nil => exact ⟨[], rfl⟩
  | cons p ps ih =>
    obtain ⟨xs, hx⟩ := ih (fun q hq => hc q (List.mem_cons_of_mem _ hq)) (fun q hq => hs q (List.mem_cons_of_mem _ hq))
    have h1 := List.getElem?_eq_getElem (hc p List.mem_cons_self)
    have h2 := List.getElem?_eq_getElem (hs p List.mem_cons_self)
    exact ⟨_, by simp [samplesOf, sampleAt, h1, h2, hx]; rfl⟩

/-- A value of at most `amp` is a signed integer of `sampleBits` bits already (R223). -/
theorem narrow_eq {cfg : Config} {v : Int} (h1 : 1 ≤ cfg.amp) (h2 : cfg.amp + 1 ≤ 2 ^ (cfg.sampleBits - 1))
    (hv : v.natAbs ≤ cfg.amp) : narrow cfg v = v := by
  unfold narrow
  obtain ⟨n, hn⟩ : ∃ n, cfg.sampleBits = n + 1 := by
    cases h : cfg.sampleBits with
    | zero => rw [h] at h2; simp at h2; omega
    | succ n => exact ⟨n, rfl⟩
  rw [hn] at h2 ⊢
  simp only [Nat.add_sub_cancel] at h2
  have hp : 2 ^ (n + 1) = 2 * 2 ^ n := by rw [Nat.pow_succ]; omega
  rw [hp]
  generalize 2 ^ n = m at *
  apply Int.bmod_eq_of_le <;> omega

end Sys2Proof.Machine
end

