-- ==== Sys2Proof/Laws/PerInstr.lean ====
section
/-! SUPPORT. Per command: its word is the one its row of spec/opcode_table.json describes (spec/30_encoding.md R94). -/

namespace Sys2Proof.Laws.TableRow

open Sys2Proof Sys2Proof.Machine

/-- The command's word matches the row of its mnemonic: every bit the row fixes has the row's value. -/
def Statement (i : Instr) : Prop :=
  ∃ r ∈ opcodeRows, r.mnemonic = mnemonicOf i ∧ encode i &&& r.mask = r.fixed

/-- A placed operand under a mask with no bit in its field is 0. -/
theorem operand_unmasked {n : Nat} (v : BitVec n) (lo : Nat) (mask : BitVec 32)
    (h : ∀ k, k < n → mask.getLsbD (lo + k) = false) : placeField v lo &&& mask = 0#32 := by
  refine BitVec.eq_of_getLsbD_eq fun k hk => ?_
  rw [BitVec.getLsbD_and, getLsbD_placeField _ _ _ hk]
  by_cases hlo : lo ≤ k
  · by_cases hn : k - lo < n
    · have := h (k - lo) hn
      rw [show lo + (k - lo) = k by omega] at this
      simp [this]
    · simp [BitVec.getLsbD_of_ge v (k - lo) (by omega)]
  · simp [hlo]

/-- Adding bits the mask does not see leaves the masked word. -/
theorem masked_or {v w m f : BitVec 32} (hv : v &&& m = f) (hw : w &&& m = 0#32) : (v ||| w) &&& m = f := by
  rw [BitVec.and_comm, BitVec.and_or_distrib_left, BitVec.and_comm m v, hv, BitVec.and_comm m w, hw, BitVec.or_zero]

theorem pktClr : Statement .pktClr :=
  ⟨⟨"PKT_CLR", 0x10000000#32, 0xFFFFFFFF#32⟩, by simp [opcodeRows], rfl,
    rfl⟩

theorem setChan (ch : BitVec 6) : Statement (.setChan ch) :=
  ⟨⟨"SET_CHAN", 0x11000000#32, 0xFFFFFFC0#32⟩, by simp [opcodeRows], rfl,
    masked_or (show placeField 0x11#8 24 &&& 0xFFFFFFC0#32 = 0x11000000#32 by decide) (by
      exact operand_unmasked _ _ _ (by decide))⟩

theorem pushInfo (byte : Byte) : Statement (.pushInfo byte) :=
  ⟨⟨"PUSH_INFO", 0x12000000#32, 0xFFFFFF00#32⟩, by simp [opcodeRows], rfl,
    masked_or (show placeField 0x12#8 24 &&& 0xFFFFFF00#32 = 0x12000000#32 by decide) (by
      exact operand_unmasked _ _ _ (by decide))⟩

theorem rdInfo (idx : BitVec 6) : Statement (.rdInfo idx) :=
  ⟨⟨"RD_INFO", 0x13000000#32, 0xFFFFFFC0#32⟩, by simp [opcodeRows], rfl,
    masked_or (show placeField 0x13#8 24 &&& 0xFFFFFFC0#32 = 0x13000000#32 by decide) (by
      exact operand_unmasked _ _ _ (by decide))⟩

theorem rdPhy (idx : BitVec 6) : Statement (.rdPhy idx) :=
  ⟨⟨"RD_PHY", 0x14000000#32, 0xFFFFFFC0#32⟩, by simp [opcodeRows], rfl,
    masked_or (show placeField 0x14#8 24 &&& 0xFFFFFFC0#32 = 0x14000000#32 by decide) (by
      exact operand_unmasked _ _ _ (by decide))⟩

theorem rdSample (idx : BitVec 11) : Statement (.rdSample idx) :=
  ⟨⟨"RD_SAMPLE", 0x15000000#32, 0xFFFFF800#32⟩, by simp [opcodeRows], rfl,
    masked_or (show placeField 0x15#8 24 &&& 0xFFFFF800#32 = 0x15000000#32 by decide) (by
      exact operand_unmasked _ _ _ (by decide))⟩

theorem rdReg (n : BitVec 4) : Statement (.rdReg n) :=
  ⟨⟨"RD_REG", 0x16000000#32, 0xFFFFFFF0#32⟩, by simp [opcodeRows], rfl,
    masked_or (show placeField 0x16#8 24 &&& 0xFFFFFFF0#32 = 0x16000000#32 by decide) (by
      exact operand_unmasked _ _ _ (by decide))⟩

theorem clrStatus : Statement .clrStatus :=
  ⟨⟨"CLR_STATUS", 0x17000000#32, 0xFFFFFFFF#32⟩, by simp [opcodeRows], rfl,
    rfl⟩

theorem crcInit (v : BitVec 24) : Statement (.crcInit v) :=
  ⟨⟨"CRC_INIT", 0x20000000#32, 0xFF000000#32⟩, by simp [opcodeRows], rfl,
    masked_or (show placeField 0x20#8 24 &&& 0xFF000000#32 = 0x20000000#32 by decide) (by
      exact operand_unmasked _ _ _ (by decide))⟩

theorem crcInitLfsr (w : BitVec 24) : Statement (.crcInitLfsr w) :=
  ⟨⟨"CRC_INIT_LFSR", 0x21000000#32, 0xFF000000#32⟩, by simp [opcodeRows], rfl,
    masked_or (show placeField 0x21#8 24 &&& 0xFF000000#32 = 0x21000000#32 by decide) (by
      exact operand_unmasked _ _ _ (by decide))⟩

theorem crcBit (b : Bool) : Statement (.crcBit b) :=
  ⟨⟨"CRC_BIT", 0x22000000#32, 0xFFFFFFFE#32⟩, by simp [opcodeRows], rfl,
    masked_or (show placeField 0x22#8 24 &&& 0xFFFFFFFE#32 = 0x22000000#32 by decide) (by
      exact operand_unmasked _ _ _ (by decide))⟩

theorem crcByte (byte : Byte) : Statement (.crcByte byte) :=
  ⟨⟨"CRC_BYTE", 0x23000000#32, 0xFFFFFF00#32⟩, by simp [opcodeRows], rfl,
    masked_or (show placeField 0x23#8 24 &&& 0xFFFFFF00#32 = 0x23000000#32 by decide) (by
      exact operand_unmasked _ _ _ (by decide))⟩

theorem crcRun (path : Path) : Statement (.crcRun path) :=
  ⟨⟨"CRC_RUN", 0x24000000#32, 0xFFFFFFFE#32⟩, by simp [opcodeRows], rfl,
    masked_or (show placeField 0x24#8 24 &&& 0xFFFFFFFE#32 = 0x24000000#32 by decide) (by
      exact operand_unmasked _ _ _ (by decide))⟩

theorem whSeed : Statement .whSeed :=
  ⟨⟨"WH_SEED", 0x30000000#32, 0xFFFFFFFF#32⟩, by simp [opcodeRows], rfl,
    rfl⟩

theorem whBit (b : Bool) : Statement (.whBit b) :=
  ⟨⟨"WH_BIT", 0x31000000#32, 0xFFFFFFFE#32⟩, by simp [opcodeRows], rfl,
    masked_or (show placeField 0x31#8 24 &&& 0xFFFFFFFE#32 = 0x31000000#32 by decide) (by
      exact operand_unmasked _ _ _ (by decide))⟩

theorem whByte (byte : Byte) : Statement (.whByte byte) :=
  ⟨⟨"WH_BYTE", 0x32000000#32, 0xFFFFFF00#32⟩, by simp [opcodeRows], rfl,
    masked_or (show placeField 0x32#8 24 &&& 0xFFFFFF00#32 = 0x32000000#32 by decide) (by
      exact operand_unmasked _ _ _ (by decide))⟩

theorem whTbl37 (idx : BitVec 6) (byte : Byte) : Statement (.whTbl37 idx byte) :=
  ⟨⟨"WH_TBL37", 0x33000000#32, 0xFFFFC000#32⟩, by simp [opcodeRows], rfl,
    masked_or (show placeField 0x33#8 24 &&& 0xFFFFC000#32 = 0x33000000#32 by decide) (by
      repeat first | apply masked_or | exact operand_unmasked _ _ _ (by decide))⟩

theorem hdrAdv (pktType : BitVec 5) (txAdd : Bool) (rxAdd : Bool) (len : BitVec 8) : Statement (.hdrAdv pktType txAdd rxAdd len) :=
  ⟨⟨"HDR_ADV", 0x40000000#32, 0xFFFF0080#32⟩, by simp [opcodeRows], rfl,
    masked_or (show placeField 0x40#8 24 &&& 0xFFFF0080#32 = 0x40000000#32 by decide) (by
      repeat first | apply masked_or | exact operand_unmasked _ _ _ (by decide))⟩

theorem hdrData (llid : BitVec 2) (nesn : Bool) (sn : Bool) (md : Bool) (len : BitVec 8) : Statement (.hdrData llid nesn sn md len) :=
  ⟨⟨"HDR_DATA", 0x41000000#32, 0xFFFF00E0#32⟩, by simp [opcodeRows], rfl,
    masked_or (show placeField 0x41#8 24 &&& 0xFFFF00E0#32 = 0x41000000#32 by decide) (by
      repeat first | apply masked_or | exact operand_unmasked _ _ _ (by decide))⟩

theorem hopSca (hop : BitVec 5) (sca : BitVec 3) : Statement (.hopSca hop sca) :=
  ⟨⟨"HOP_SCA", 0x42000000#32, 0xFFFFFF00#32⟩, by simp [opcodeRows], rfl,
    masked_or (show placeField 0x42#8 24 &&& 0xFFFFFF00#32 = 0x42000000#32 by decide) (by
      repeat first | apply masked_or | exact operand_unmasked _ _ _ (by decide))⟩

theorem llOpcode (pktType : BitVec 5) : Statement (.llOpcode pktType) :=
  ⟨⟨"LL_OPCODE", 0x43000000#32, 0xFFFFFFE0#32⟩, by simp [opcodeRows], rfl,
    masked_or (show placeField 0x43#8 24 &&& 0xFFFFFFE0#32 = 0x43000000#32 by decide) (by
      exact operand_unmasked _ _ _ (by decide))⟩

theorem assemble (path : Path) : Statement (.assemble path) :=
  ⟨⟨"ASSEMBLE", 0x50000000#32, 0xFFFFFFFE#32⟩, by simp [opcodeRows], rfl,
    masked_or (show placeField 0x50#8 24 &&& 0xFFFFFFFE#32 = 0x50000000#32 by decide) (by
      exact operand_unmasked _ _ _ (by decide))⟩

theorem mod : Statement .mod :=
  ⟨⟨"MOD", 0x60000000#32, 0xFFFFFFFF#32⟩, by simp [opcodeRows], rfl,
    rfl⟩

theorem chFreq (ch : BitVec 8) : Statement (.chFreq ch) :=
  ⟨⟨"CH_FREQ", 0x70000000#32, 0xFFFFFF00#32⟩, by simp [opcodeRows], rfl,
    masked_or (show placeField 0x70#8 24 &&& 0xFFFFFF00#32 = 0x70000000#32 by decide) (by
      exact operand_unmasked _ _ _ (by decide))⟩

end Sys2Proof.Laws.TableRow
end

