-- ==== Sys2Proof/Laws/Samples.lean ====
section
/-! SUPPORT. The rounding of R223, and how close the default tables of R224 stand to the real cosine and sine: fixed-point
approximations of `cos(r * pi / 512)` and `sin(r * pi / 512)` in the first quarter, each with an error bound, evaluated once
against the table, and the three other quarters by the addition formulas. -/

namespace Sys2Proof.Machine

/-! ## Rounding -/

/-- The integer strictly nearer than one half is the rounded value (R223). -/
theorem rnd_eq {v : ℝ} {n : Int} (h : |v - n| < 1 / 2) : rnd v = n := by
  rw [abs_lt] at h
  unfold rnd
  split
  · rw [Int.floor_eq_iff]; constructor <;> linarith
  · have : ⌊-v + 1 / 2⌋ = -n := by rw [Int.floor_eq_iff]; push_cast; constructor <;> linarith
    rw [this, neg_neg]

/-- Rounding leaves an integer as it is (R223). -/
theorem rnd_intCast (n : Int) : rnd (n : ℝ) = n := rnd_eq (by simp)

/-- Rounding does not leave an interval with integer ends around 0 (R223). -/
theorem natAbs_rnd_le {v : ℝ} {m : Nat} (h : |v| ≤ m) : (rnd v).natAbs ≤ m := by
  rw [abs_le] at h
  have key : -(m : Int) ≤ rnd v ∧ rnd v ≤ m := by
    unfold rnd
    split
    · next h0 =>
      refine ⟨by have : (0 : Int) ≤ ⌊v + 1 / 2⌋ := Int.floor_nonneg.mpr (by linarith); omega, ?_⟩
      have : ⌊v + 1 / 2⌋ < (m : Int) + 1 := Int.floor_lt.mpr (by push_cast; linarith)
      omega
    · next h0 =>
      have h1 : (0 : Int) ≤ ⌊-v + 1 / 2⌋ := Int.floor_nonneg.mpr (by linarith)
      have h2 : ⌊-v + 1 / 2⌋ < (m : Int) + 1 := Int.floor_lt.mpr (by push_cast; linarith)
      omega
  omega

/-- Every entry of a legal `COS_TAB` lies in `-AMP` to `AMP` (R224). -/
theorem natAbs_le_of_isCosTab {amp bits : Nat} {tab : List Int} (h : isCosTab amp bits tab) :
    ∀ v ∈ tab, v.natAbs ≤ amp := by
  intro v hv
  obtain ⟨p, hp, rfl⟩ := List.mem_iff_getElem.mp hv
  have h1 := h.2 p (h.1 ▸ hp)
  rw [List.getElem?_eq_getElem hp, Option.some.injEq] at h1
  rw [h1]
  refine natAbs_rnd_le ?_
  rw [abs_mul, abs_of_nonneg (Nat.cast_nonneg amp)]
  exact mul_le_of_le_one_right (Nat.cast_nonneg amp) (Real.abs_cos_le_one _)

/-- Every entry of a legal `SIN_TAB` lies in `-AMP` to `AMP` (R224). -/
theorem natAbs_le_of_isSinTab {amp bits : Nat} {tab : List Int} (h : isSinTab amp bits tab) :
    ∀ v ∈ tab, v.natAbs ≤ amp := by
  intro v hv
  obtain ⟨p, hp, rfl⟩ := List.mem_iff_getElem.mp hv
  have h1 := h.2 p (h.1 ▸ hp)
  rw [List.getElem?_eq_getElem hp, Option.some.injEq] at h1
  rw [h1]
  refine natAbs_rnd_le ?_
  rw [abs_mul, abs_of_nonneg (Nat.cast_nonneg amp)]
  exact mul_le_of_le_one_right (Nat.cast_nonneg amp) (Real.abs_sin_le_one _)

/-! ## One step of the fixed-point turn -/

/-- `cos(pi / 512)` in units of `2^-40`. -/
def stepCos : Nat := 1099490929780
/-- `sin(pi / 512)` in units of `2^-40`. -/
def stepSin : Nat := 6746476518

theorem stepCos_close : |(stepCos : ℝ) / 2 ^ 40 - Real.cos (Real.pi / 512)| ≤ 160 / 2 ^ 40 := by
  have h1 := Real.pi_gt_d20
  have h2 := Real.pi_lt_d20
  have h := Real.cos_bound (x := Real.pi / 512) (by rw [abs_of_pos (by positivity)]; linarith)
  rw [abs_of_pos (show 0 < Real.pi / 512 by positivity)] at h
  have h3 : (Real.pi / 512) ^ 4 ≤ (3.15 / 512) ^ 4 := by gcongr; linarith
  have h4 : (Real.pi / 512) ^ 2 ≤ (3.14159265358979323847 / 512) ^ 2 := by gcongr
  have h5 : (3.14159265358979323846 / 512) ^ 2 ≤ (Real.pi / 512) ^ 2 := by gcongr
  rw [abs_le] at h ⊢
  norm_num [stepCos] at h h3 h4 h5 ⊢
  constructor <;> linarith [h.1, h.2]

theorem stepSin_close : |(stepSin : ℝ) / 2 ^ 40 - Real.sin (Real.pi / 512)| ≤ 160 / 2 ^ 40 := by
  have h1 := Real.pi_gt_d20
  have h2 := Real.pi_lt_d20
  have h := Real.sin_bound (x := Real.pi / 512) (by rw [abs_of_pos (by positivity)]; linarith)
  rw [abs_of_pos (show 0 < Real.pi / 512 by positivity)] at h
  have h3 : (Real.pi / 512) ^ 5 ≤ (3.15 / 512) ^ 5 := by gcongr; linarith
  have h4 : (Real.pi / 512) ^ 3 ≤ (3.14159265358979323847 / 512) ^ 3 := by gcongr
  have h5 : (3.14159265358979323846 / 512) ^ 3 ≤ (Real.pi / 512) ^ 3 := by gcongr
  rw [abs_le] at h ⊢
  norm_num [stepSin] at h h3 h4 h5 ⊢
  constructor <;> linarith [h.1, h.2]

/-- `C` and `S` approximate the cosine and sine of an angle within `N`, in units of `2^-40`. -/
def Near (C S N : Nat) (x : ℝ) : Prop :=
  |(C : ℝ) / 2 ^ 40 - Real.cos x| ≤ (N : ℝ) / 2 ^ 40 ∧ |(S : ℝ) / 2 ^ 40 - Real.sin x| ≤ (N : ℝ) / 2 ^ 40

/-- A quotient of naturals stands less than 1 below the real quotient. -/
theorem natDiv_close (a : Nat) : |((a / 2 ^ 40 : Nat) : ℝ) - (a : ℝ) / 2 ^ 40| ≤ 1 := by
  have h1 : ((a / 2 ^ 40 : Nat) : ℝ) ≤ (a : ℝ) / 2 ^ 40 := by exact_mod_cast Nat.cast_div_le (α := ℝ) (m := a) (n := 2 ^ 40)
  have h2 : (a : ℝ) / 2 ^ 40 < ((a / 2 ^ 40 : Nat) : ℝ) + 1 := by
    rw [div_lt_iff₀ (by positivity)]
    have := Nat.lt_div_mul_add (a := a) (b := 2 ^ 40) (by positivity)
    have h3 : a < (a / 2 ^ 40 + 1) * 2 ^ 40 := by omega
    exact_mod_cast h3
  rw [abs_le]; constructor <;> linarith

/-- The real estimate behind `near_turn`: a product of two near pairs, the step's pair within `d`. -/
theorem sub_mul_close {p q u v A B a b e d : ℝ} (hp : |p - u| ≤ e) (hq : |q - v| ≤ e) (hA : |A - a| ≤ d) (hB : |B - b| ≤ d)
    (hu : |u| ≤ 1) (hv : |v| ≤ 1) (hA0 : 0 ≤ A) (hB0 : 0 ≤ B) :
    |p * A - q * B - (u * a - v * b)| ≤ e * (A + B) + 2 * d := by
  have h1 : |(p - u) * A| ≤ e * A := by rw [abs_mul, abs_of_nonneg hA0]; gcongr
  have h2 : |(q - v) * B| ≤ e * B := by rw [abs_mul, abs_of_nonneg hB0]; gcongr
  have h3 : |u * (A - a)| ≤ 1 * d := by rw [abs_mul]; gcongr
  have h4 : |v * (B - b)| ≤ 1 * d := by rw [abs_mul]; gcongr
  rw [abs_le] at *
  constructor <;> nlinarith [h1.1, h1.2, h2.1, h2.2, h3.1, h3.2, h4.1, h4.2]

/-- One turn by `pi / 512`: the error grows by the factor `cos + sin` of the step and by 322 units. -/
theorem near_turn {C S N : Nat} {x : ℝ} (h : Near C S N x) (hs : S * stepSin ≤ C * stepCos) :
    Near ((C * stepCos - S * stepSin) / 2 ^ 40) ((S * stepCos + C * stepSin) / 2 ^ 40)
      (N * (stepCos + stepSin) / 2 ^ 40 + 322) (x + Real.pi / 512) := by
  obtain ⟨hc, hs'⟩ := h
  have d1 := natDiv_close (C * stepCos - S * stepSin)
  have d2 := natDiv_close (S * stepCos + C * stepSin)
  have d3 := natDiv_close (N * (stepCos + stepSin))
  have e1 := sub_mul_close hc hs' stepCos_close stepSin_close (Real.abs_cos_le_one x) (Real.abs_sin_le_one x)
    (by positivity) (by positivity)
  have e2 := sub_mul_close hs' (by rw [← neg_sub_neg, neg_neg, neg_neg, abs_sub_comm]; exact hc : |-((C : ℝ) / 2 ^ 40) - -Real.cos x| ≤ (N : ℝ) / 2 ^ 40)
    stepCos_close stepSin_close (Real.abs_sin_le_one x) (by rw [abs_neg]; exact Real.abs_cos_le_one x)
    (by positivity) (by positivity)
  rw [Nat.cast_sub hs] at d1
  unfold Near
  rw [Real.cos_add, Real.sin_add]
  generalize Real.cos (Real.pi / 512) = a at *
  generalize Real.sin (Real.pi / 512) = b at *
  generalize Real.cos x = u at *
  generalize Real.sin x = v at *
  push_cast at d1 d2 d3 e1 e2 ⊢
  rw [abs_le] at d1 d2 d3 e1 e2 ⊢
  rw [abs_le]
  constructor <;> constructor <;> linarith [d1.1, d1.2, d2.1, d2.2, d3.1, d3.2, e1.1, e1.2, e2.1, e2.2]

/-! ## The first quarter, evaluated against the table -/

/-- The table's value `t` is the only integer within one half of `127 * C / 2^40`, the error `N` allowed for. -/
def fits (C N : Nat) (t : Nat) : Bool :=
  Nat.blt (254 * (C + N)) ((2 * t + 1) * 2 ^ 40) && Nat.blt (2 * t * 2 ^ 40 + 254 * N) (254 * C + 2 ^ 40)

/-- `fits` for the cosine and the sine values from an angle on, turn by turn. -/
def fitsFrom : List (Nat × Nat) → Nat → Nat → Nat → Bool
  | [], _, _, _ => true
  | (t, u) :: rest, C, S, N =>
    fits C N t && (fits S N u && (Nat.ble (S * stepSin) (C * stepCos) &&
      fitsFrom rest ((C * stepCos - S * stepSin) / 2 ^ 40) ((S * stepCos + C * stepSin) / 2 ^ 40)
        (N * (stepCos + stepSin) / 2 ^ 40 + 322)))

theorem close_of_fits {C N t : Nat} {y : ℝ} (hy : |(C : ℝ) / 2 ^ 40 - y| ≤ (N : ℝ) / 2 ^ 40) (h : fits C N t = true) :
    |127 * y - t| < 1 / 2 := by
  simp only [fits, Bool.and_eq_true, Nat.blt_eq] at h
  have h1 : (254 * (C + N) : ℝ) < (2 * t + 1) * 2 ^ 40 := by exact_mod_cast h.1
  have h2 : (2 * t * 2 ^ 40 + 254 * N : ℝ) < 254 * C + 2 ^ 40 := by exact_mod_cast h.2
  rw [abs_le] at hy
  rw [abs_lt]
  constructor <;> linarith [hy.1, hy.2]

theorem close_of_fitsFrom {l : List (Nat × Nat)} {C S N : Nat} {x : ℝ} (hn : Near C S N x)
    (h : fitsFrom l C S N = true) {r t u : Nat} (hr : l[r]? = some (t, u)) :
    |127 * Real.cos (x + r * (Real.pi / 512)) - t| < 1 / 2 ∧ |127 * Real.sin (x + r * (Real.pi / 512)) - u| < 1 / 2 := by
  induction l generalizing C S N x r with
  | nil => simp at hr
  | cons c rest ih =>
    obtain ⟨t', u'⟩ := c
    simp only [fitsFrom, Bool.and_eq_true, Nat.ble_eq] at h
    obtain ⟨h1, h2, h3, h4⟩ := h
    cases r with
    | zero =>
      simp only [List.getElem?_cons_zero, Option.some.injEq, Prod.mk.injEq] at hr
      obtain ⟨rfl, rfl⟩ := hr
      rw [Nat.cast_zero, zero_mul, add_zero]
      exact ⟨close_of_fits hn.1 h1, close_of_fits hn.2 h2⟩
    | succ r =>
      rw [show x + ((r + 1 : Nat) : ℝ) * (Real.pi / 512) = x + Real.pi / 512 + r * (Real.pi / 512) by push_cast; ring]
      exact ih (near_turn hn h3) h4 (by simpa using hr)

/-- The first quarter of the default tables, as pairs. -/
def firstQuarter : List (Nat × Nat) :=
  List.zip ((cosTabDefault.take 256).map Int.toNat) ((sinTabDefault.take 256).map Int.toNat)

theorem firstQuarter_fits : fitsFrom firstQuarter (2 ^ 40) 0 0 = true := by decide +kernel

theorem firstQuarter_close {r t u : Nat} (h : firstQuarter[r]? = some (t, u)) :
    |127 * Real.cos (r * (Real.pi / 512)) - t| < 1 / 2 ∧ |127 * Real.sin (r * (Real.pi / 512)) - u| < 1 / 2 := by
  have h0 : Near (2 ^ 40) 0 0 0 := by constructor <;> norm_num
  have h := close_of_fitsFrom h0 firstQuarter_fits h
  rwa [zero_add] at h

/-! ## The whole tables -/

/-- The four quarters of a table of cosines in terms of the first quarter's cosines `t` and sines `u`: `t`, `-u`, `-t`, `u`
(R224). -/
def cosTurns (l : List (Nat × Nat)) : List Int :=
  l.map (fun x => (x.1 : Int)) ++ (l.map (fun x => -(x.2 : Int)) ++ (l.map (fun x => -(x.1 : Int)) ++
    l.map (fun x => (x.2 : Int))))

/-- The same for a table of sines: `u`, `t`, `-u`, `-t` (R224). -/
def sinTurns (l : List (Nat × Nat)) : List Int :=
  l.map (fun x => (x.2 : Int)) ++ (l.map (fun x => (x.1 : Int)) ++ (l.map (fun x => -(x.2 : Int)) ++
    l.map (fun x => -(x.1 : Int))))

theorem cosTurns_getElem {l : List (Nat × Nat)} (hl : l.length = 256) {r t u : Nat} (h : l[r]? = some (t, u)) :
    (cosTurns l)[256 * 0 + r]? = some (t : Int) ∧ (cosTurns l)[256 * 1 + r]? = some (-u : Int) ∧
      (cosTurns l)[256 * 2 + r]? = some (-t : Int) ∧ (cosTurns l)[256 * 3 + r]? = some (u : Int) := by
  obtain ⟨hr, -⟩ := List.getElem?_eq_some_iff.mp h
  rw [hl] at hr
  refine ⟨?_, ?_, ?_, ?_⟩ <;>
    (unfold cosTurns
     simp only [List.getElem?_append, List.length_map, hl, List.getElem?_map]
     repeat (first | rw [if_pos (by omega)] | rw [if_neg (by omega)])
     simp only [Nat.mul_zero, Nat.zero_add, h, Option.map_some,
       show 256 * 1 + r - 256 = r by omega, show 256 * 2 + r - 256 - 256 = r by omega,
       show 256 * 3 + r - 256 - 256 - 256 = r by omega])

theorem sinTurns_getElem {l : List (Nat × Nat)} (hl : l.length = 256) {r t u : Nat} (h : l[r]? = some (t, u)) :
    (sinTurns l)[256 * 0 + r]? = some (u : Int) ∧ (sinTurns l)[256 * 1 + r]? = some (t : Int) ∧
      (sinTurns l)[256 * 2 + r]? = some (-u : Int) ∧ (sinTurns l)[256 * 3 + r]? = some (-t : Int) := by
  obtain ⟨hr, -⟩ := List.getElem?_eq_some_iff.mp h
  rw [hl] at hr
  refine ⟨?_, ?_, ?_, ?_⟩ <;>
    (unfold sinTurns
     simp only [List.getElem?_append, List.length_map, hl, List.getElem?_map]
     repeat (first | rw [if_pos (by omega)] | rw [if_neg (by omega)])
     simp only [Nat.mul_zero, Nat.zero_add, h, Option.map_some,
       show 256 * 1 + r - 256 = r by omega, show 256 * 2 + r - 256 - 256 = r by omega,
       show 256 * 3 + r - 256 - 256 - 256 = r by omega])

theorem cosTabDefault_eq : cosTabDefault = cosTurns firstQuarter := by decide +kernel

theorem sinTabDefault_eq : sinTabDefault = sinTurns firstQuarter := by decide +kernel

theorem length_firstQuarter : firstQuarter.length = 256 := by decide +kernel

/-- Every entry of the default tables is the one integer within one half of `127` times cosine and sine of its phase's
angle (R224; `rnd_eq` turns this into the rounded value). -/
theorem defaultTables_close (p : Nat) (hp : p < 1024) : ∃ c d : Int, cosTabDefault[p]? = some c ∧ sinTabDefault[p]? = some d ∧
    |127 * Real.cos (2 * Real.pi * p / 1024) - c| < 1 / 2 ∧ |127 * Real.sin (2 * Real.pi * p / 1024) - d| < 1 / 2 := by
  obtain ⟨q, r, hq, hr, rfl⟩ : ∃ q r, q < 4 ∧ r < 256 ∧ p = 256 * q + r :=
    ⟨p / 256, p % 256, by omega, by omega, by omega⟩
  obtain ⟨⟨t, u⟩, h⟩ : ∃ x, firstQuarter[r]? = some x :=
    ⟨_, List.getElem?_eq_getElem (by rw [length_firstQuarter]; exact hr)⟩
  obtain ⟨hc, hs⟩ := firstQuarter_close h
  rw [cosTabDefault_eq, sinTabDefault_eq]
  obtain ⟨c0, c1, c2, c3⟩ := cosTurns_getElem length_firstQuarter h
  obtain ⟨s0, s1, s2, s3⟩ := sinTurns_getElem length_firstQuarter h
  interval_cases q
  · refine ⟨t, u, c0, s0, ?_⟩
    rw [show 2 * Real.pi * ((256 * 0 + r : Nat) : ℝ) / 1024 = r * (Real.pi / 512) by push_cast; ring]
    exact ⟨by exact_mod_cast hc, by exact_mod_cast hs⟩
  · refine ⟨-u, t, c1, s1, ?_⟩
    rw [show 2 * Real.pi * ((256 * 1 + r : Nat) : ℝ) / 1024 = r * (Real.pi / 512) + Real.pi / 2 by push_cast; ring,
      Real.cos_add_pi_div_two, Real.sin_add_pi_div_two]
    rw [abs_lt] at hc hs ⊢
    rw [abs_lt]
    push_cast
    exact ⟨⟨by linarith [hs.2], by linarith [hs.1]⟩, hc⟩
  · refine ⟨-t, -u, c2, s2, ?_⟩
    rw [show 2 * Real.pi * ((256 * 2 + r : Nat) : ℝ) / 1024 = r * (Real.pi / 512) + Real.pi by push_cast; ring,
      Real.cos_add_pi, Real.sin_add_pi]
    rw [abs_lt] at hc hs ⊢
    rw [abs_lt]
    push_cast
    exact ⟨⟨by linarith [hc.2], by linarith [hc.1]⟩, by linarith [hs.2], by linarith [hs.1]⟩
  · refine ⟨u, -t, c3, s3, ?_⟩
    rw [show 2 * Real.pi * ((256 * 3 + r : Nat) : ℝ) / 1024 = r * (Real.pi / 512) + Real.pi / 2 + Real.pi by push_cast; ring,
      Real.cos_add_pi, Real.sin_add_pi, Real.cos_add_pi_div_two, Real.sin_add_pi_div_two]
    rw [abs_lt] at hc hs ⊢
    rw [abs_lt]
    push_cast
    exact ⟨⟨by linarith [hs.1], by linarith [hs.2]⟩, by linarith [hc.2], by linarith [hc.1]⟩

end Sys2Proof.Machine
end

