-- ==== Sys2Proof/Tests/Slice0.lean ====
section
/-! SUPPORT. The model's own tests: the ill-formed terms, every command's decoding from a word written out by the formats
of spec/30_encoding.md R92 and R94, single steps with the responses of spec/95_test_vectors.md (the vector is named in the
comment), and for every statement with hypotheses a state and operands that meet them. -/

open Sys2Proof Sys2Proof.Machine

namespace Sys2Proof.Tests

-- one theorem after the other: the kernel evaluations below would each hold a thread while waiting for the one before
set_option Elab.async false

/-! ## Helpers -/

/-- A field of the next state, if there is one. -/
def after {β : Type} (o : Host.Outcome State Fault Refusal) (f : State → β) : Option β :=
  match o with
  | .next t => some (f t)
  | .fault _ => none
  | .refused _ => none

/-- The response of a step on a word presented. -/
def answer (s : State) (w : Nat) : Option (Option Response) := after (step (s.withFetchWord 32 w)) State.rsp

/-- A response of code 0x00. -/
def ok (d : BitVec 32) : Option (Option Response) := some (some ⟨0x00#8, d⟩)

/-- An error's response (R255). -/
def err (c : BitVec 8) : Option (Option Response) := some (some ⟨c, 0xFFFFFFFF#32⟩)

/-- The state after reset with the given bytes pushed. -/
def packet (bytes : List (BitVec 8)) : State :=
  { State.reset with info := Memory.cellsFrom 0 bytes, numInfoByte := BitVec.ofNat 6 bytes.length }

/-- The state after reset with the given on-air bytes. -/
def onAir (bytes : List (BitVec 8)) : State :=
  { State.reset with phy := Memory.cellsFrom 0 bytes, numPhyByte := BitVec.ofNat 6 bytes.length }

/-- The bytes 0, 1, 2, … -/
def rising (n : Nat) : List (BitVec 8) := (List.range n).map (BitVec.ofNat 8)

/-- The thirteen bytes of program 1. -/
def program1Bytes : List (BitVec 8) := [0xAA, 0xD6, 0xBE, 0x89, 0x8E, 0x02, 0x06, 0x06, 0x05, 0x04, 0x03, 0x02, 0x01]

/-- The five lead bytes alone, as program 4 pushes them. -/
def leadOnly : State := packet [0xAA, 0xD6, 0xBE, 0x89, 0x8E]

/-- The state after reset with `STRICT_RESERVED = 1`. -/
def strict : State := { State.reset with cfg := { Config.default with strictReserved := true } }

/-- A setting with four phases, at the angles 0, 90, 180 and 270 degrees. -/
def fourPhases : Config :=
  { Config.default with phaseBits := 2, cosTab := [127, 0, -127, 0], sinTab := [0, 127, 0, -127] }

/-- A state under that setting. -/
def withFourPhases (s : State) : State := { s with cfg := fourPhases }

/-! ## WellFormed (R95 (c)) -/

theorem test_wellFormed_refuses_11 : (Instr.rdReg 11).wellFormed = false := by decide
theorem test_wellFormed_refuses_15 : (Instr.rdReg 15).wellFormed = false := by decide
theorem test_wellFormed_accepts_10 : (Instr.rdReg 10).wellFormed = true := by decide

/-! ## Decoding: each word is written out from R92's formats and R94's opcode -/

-- N: op
theorem test_decode_pktClr : decode 0b00010000_000000000000000000000000#32 = .ok .pktClr := by decide
-- C6: op, 18 zeros, ch
theorem test_decode_setChan : decode 0b00010001_000000000000000000_100110#32 = .ok (.setChan 38) := by decide
-- B: op, 16 zeros, byte
theorem test_decode_pushInfo : decode 0b00010010_0000000000000000_10101010#32 = .ok (.pushInfo 0xAA) := by decide
-- I6: op, 18 zeros, idx
theorem test_decode_rdInfo : decode 0b00010011_000000000000000000_001101#32 = .ok (.rdInfo 13) := by decide
theorem test_decode_rdPhy : decode 0b00010100_000000000000000000_101101#32 = .ok (.rdPhy 45) := by decide
-- I11: op, 13 zeros, idx
theorem test_decode_rdSample : decode 0b00010101_0000000000000_10111001111#32 = .ok (.rdSample 1487) := by decide
-- R4: op, 20 zeros, n
theorem test_decode_rdReg : decode 0b00010110_00000000000000000000_1010#32 = .ok (.rdReg 10) := by decide
theorem test_decode_clrStatus : decode 0b00010111_000000000000000000000000#32 = .ok .clrStatus := by decide
-- V24: op, v
theorem test_decode_crcInit : decode 0b00100000_000100100011010001010110#32 = .ok (.crcInit 0x123456) := by decide
theorem test_decode_crcInitLfsr : decode 0b00100001_010101010101010101010101#32 = .ok (.crcInitLfsr 0x555555) := by decide
-- B1: op, 23 zeros, b
theorem test_decode_crcBit : decode 0b00100010_00000000000000000000000_1#32 = .ok (.crcBit true) := by decide
theorem test_decode_crcByte : decode 0b00100011_0000000000000000_00110001#32 = .ok (.crcByte 0x31) := by decide
-- P1: op, 23 zeros, path
theorem test_decode_crcRun : decode 0b00100100_00000000000000000000000_1#32 = .ok (.crcRun .table) := by decide
theorem test_decode_whSeed : decode 0b00110000_000000000000000000000000#32 = .ok .whSeed := by decide
theorem test_decode_whBit : decode 0b00110001_00000000000000000000000_0#32 = .ok (.whBit false) := by decide
theorem test_decode_whByte : decode 0b00110010_0000000000000000_00000010#32 = .ok (.whByte 0x02) := by decide
-- XB: op, 10 zeros, idx, byte
theorem test_decode_whTbl37 : decode 0b00110011_0000000000_101001_00000110#32 = .ok (.whTbl37 41 0x06) := by decide
-- HA: op, 8 zeros, len, 0, rxAdd, txAdd, type
theorem test_decode_hdrAdv : decode 0b01000000_00000000_00100101_0_0_1_00011#32 = .ok (.hdrAdv 3 true false 37) := by decide
-- HD: op, 8 zeros, len, 000, md, sn, nesn, llid
theorem test_decode_hdrData :
    decode 0b01000001_00000000_00000010_000_1_0_1_10#32 = .ok (.hdrData 2 true false true 2) := by decide
-- HS: op, 16 zeros, sca, hop
theorem test_decode_hopSca : decode 0b01000010_0000000000000000_101_01001#32 = .ok (.hopSca 9 5) := by decide
-- T5: op, 19 zeros, type
theorem test_decode_llOpcode : decode 0b01000011_0000000000000000000_01101#32 = .ok (.llOpcode 13) := by decide
theorem test_decode_assemble : decode 0b01010000_00000000000000000000000_0#32 = .ok (.assemble .bitSerial) := by decide
theorem test_decode_mod : decode 0b01100000_000000000000000000000000#32 = .ok .mod := by decide
-- C8: op, 16 zeros, ch
theorem test_decode_chFreq : decode 0b01110000_0000000000000000_11111111#32 = .ok (.chFreq 255) := by decide

-- R95 (a): the all-zero word; V-BUF-1 and V-HDR-2, V-HDR-3, V-EXC-4: reserved bits; R95 (c): register 11
theorem test_decode_zero_word : decode 0x00000000#32 = .error (.unassignedOpcode 0x00) := by decide
theorem test_decode_reserved_bit_0 : decode 0x10000001#32 = .error (.reservedBit 0x10) := by decide
theorem test_decode_reserved_bit_7 : decode 0x40000083#32 = .error (.reservedBit 0x40) := by decide
theorem test_decode_reserved_bit_16 : decode 0x40010003#32 = .error (.reservedBit 0x40) := by decide
theorem test_decode_reserved_bit_5 : decode 0x41000020#32 = .error (.reservedBit 0x41) := by decide
theorem test_decode_reserved_before_range : decode 0x11000068#32 = .error (.reservedBit 0x11) := by decide
theorem test_decode_register_11 : decode 0x1600000B#32 = .error (.noSuchRegister 11) := by decide

theorem test_decodeTableWord : decodeTableWord 32 0x33000106 = some (.whTbl37 1 0x06) := by decide
theorem test_decodeTableWord_refuses : decodeTableWord 32 0x16000010 = none := by decide
theorem test_encode_hdrAdv : encode (.hdrAdv 3 true false 37) = 0x40002523#32 := by decide

/-! ## Single steps, with the responses of 95_test_vectors.md -/

-- R121: a fresh packet keeps the CRC initial value
theorem test_pktClr : after (exec .pktClr leadOnly) (fun t => (t.numInfoByte, t.crcInit, t.info == leadOnly.info)) =
    some (0, 0xAAAAAA, true) := by decide +kernel
-- V-BUF-1
theorem test_setChan_refuses_40 : answer State.reset 0x11000028 = err 0x03 := by decide +kernel
-- V-WH-4: SET_CHAN leaves WH
theorem test_setChan_0 : after (exec (.setChan 0) State.reset) (fun t => (t.chan, t.wh)) = some (0, 0x53) := by
  decide +kernel
-- V-BUF-2: the 43rd push succeeds, the 44th raises
theorem test_pushInfo_43rd : after (exec (.pushInfo 0x2A) (packet (rising 42)))
    (fun t => (t.numInfoByte, t.info.read 42, t.rsp)) = some (43, some 0x2A, some ⟨0, 0⟩) := by decide +kernel
theorem test_pushInfo_44th : after (exec (.pushInfo 0x2B) (packet (rising 43))) (fun t => (t.numInfoByte, t.rsp, t.status)) =
    some (43, some ⟨0x02, 0xFFFFFFFF⟩, 0x201) := by decide +kernel
-- V-BUF-2
theorem test_rdInfo_last : answer (packet (rising 43)) 0x1300002A = ok 0x2A := by decide +kernel
theorem test_rdInfo_beyond : answer (packet (rising 43)) 0x1300002B = err 0x04 := by decide +kernel
-- program 2: the on-air bytes of program 1's packet
theorem test_rdPhy : answer (onAir [0xAA, 0xD6, 0xBE, 0x89, 0x8E, 0x8F]) 0x14000005 = ok 0x8F := by decide +kernel
theorem test_rdPhy_beyond : answer (onAir [0xAA, 0xD6]) 0x14000002 = err 0x04 := by decide +kernel
-- R127's example
theorem test_rdSample : answer { State.reset with samp := [(6, ⟨127, -2⟩)], numPhySample := 7 } 0x15000006 =
    ok 0xFFFE007F := by decide +kernel
-- V-MOD-6: index 16 of 16 samples
theorem test_rdSample_beyond : answer { State.reset with numPhySample := 16 } 0x15000010 = err 0x04 := by decide +kernel
-- R129's example; V-BUF-1
theorem test_rdReg_wh : answer State.reset 0x16000005 = ok 0x53 := by decide +kernel
theorem test_rdReg_11 : answer State.reset 0x1600000B = err 0x01 := by decide +kernel
-- R130's example
theorem test_clrStatus : after (exec .clrStatus { State.reset with status := 0x2001, lasterr := 6 })
    (fun t => (t.status, t.lasterr)) = some (0, 0) := by decide +kernel
theorem test_clrStatus_keeps_crcApp : after (exec .clrStatus { State.reset with status := 0x0A05, lasterr := 4 })
    (fun t => (t.status, t.lasterr)) = some (4, 0) := by decide +kernel
-- R141
theorem test_crcInit : after (exec (.crcInit 0x123456) State.reset) (fun t => (t.crc, t.crcInit)) =
    some (0x123456, 0x123456) := by decide +kernel
-- V-CRC-3
theorem test_crcInitLfsr : after (exec (.crcInitLfsr 0x123456) State.reset) (fun t => (t.crc, t.crcInit)) =
    some (0x6A2C48, 0x6A2C48) := by decide +kernel
-- V-CRC-1
theorem test_crcBit_1 : answer State.reset 0x22000001 = ok 0x8F3555 := by decide +kernel
theorem test_crcBit_0 : answer { State.reset with crc := 0xFFFFFF } 0x22000000 = ok 0xA59FFF := by decide +kernel
-- V-CRC-2
theorem test_crcByte : answer State.reset 0x23000031 = ok 0xCEFDEA := by decide +kernel
theorem test_crcByte_zero : answer { State.reset with crc := 0x00FFFF } 0x23000000 = ok 0x932CBF := by decide +kernel
-- V-CRC-7
theorem test_crcRun_bitSerial : answer (packet program1Bytes) 0x24000000 = ok 0xE451BA := by decide +kernel
theorem test_crcRun_table : answer (packet program1Bytes) 0x24000001 = ok 0xE451BA := by decide +kernel
-- V-WH-1: channel 10
theorem test_whSeed : answer { State.reset with chan := 10 } 0x30000000 = ok 0x29 := by decide +kernel
-- V-WH-2
theorem test_whBit : after (exec (.whBit true) { State.reset with wh := 0x21 }) (fun t => (t.res, t.wh)) =
    some (1, 0x42) := by decide +kernel
-- V-WH-4
theorem test_whByte : after (exec (.whByte 0x02) State.reset) (fun t => (t.res, t.wh)) = some (0x8F, 0x21) := by
  decide +kernel
-- V-WH-5
theorem test_whTbl37 : answer State.reset 0x33002900 = ok 0x4C := by decide +kernel
theorem test_whTbl37_beyond : answer State.reset 0x33002A00 = err 0x04 := by decide +kernel
-- V-HDR-2, V-HDR-1
theorem test_hdrAdv : answer State.reset 0x40002523 = ok 0x2540 := by decide +kernel
theorem test_hdrAdv_warns : after (exec (.hdrAdv 0 true true 9) State.reset) (fun t => (t.rsp, t.status, t.lasterr)) =
    some (some ⟨0x81, 0x09CF⟩, 0x00010002, 0) := by decide +kernel
-- V-HDR-3
theorem test_hdrData : answer State.reset 0x41001F1D = ok 0x1F1D := by decide +kernel
theorem test_hdrData_32 : answer State.reset 0x41002000 = err 0x02 := by decide +kernel
theorem test_hopSca : answer State.reset 0x420000A9 = ok 0xA9 := by decide +kernel
-- V-HDR-4, V-HDR-5
theorem test_llOpcode : answer State.reset 0x43000018 = ok 0x0D := by decide +kernel
theorem test_llOpcode_strict : after (exec (.llOpcode 0) strict) (fun t => (t.rsp, t.status, t.lasterr, t.res)) =
    some (some ⟨0x82, 0xFFFFFFFF⟩, 0x00020001, 0x82, 0) := by decide +kernel
-- program 1
theorem test_assemble : after (exec (.assemble .bitSerial) (packet program1Bytes))
    (fun t => (t.phy.map Prod.snd, t.info.read 13, t.wh, t.status)) =
    some ([0xAA, 0xD6, 0xBE, 0x89, 0x8E, 0x8F, 0xD4, 0x51, 0xA4, 0x39, 0xA4, 0x64, 0xB1, 0xCF, 0x60, 0xF5],
      some 0xBA, 0x08, 4) := by decide +kernel
-- program 2: the table path leaves WH
theorem test_assemble_table : after (exec (.assemble .table) (packet program1Bytes))
    (fun t => (t.phy.read 15, t.wh, t.numPhyByte)) = some (some 0xF5, 0x53, 16) := by decide +kernel
-- V-MOD-6
theorem test_mod_empty : after (exec .mod State.reset)
    (fun t => (t.samp.read 0, t.samp.read 15, t.samp.read 16, t.numPhySample)) =
    some (some ⟨127, 0⟩, some ⟨127, 0⟩, none, 16) := by decide +kernel
-- V-MOD-5: the byte 0xAA of the air is the bits 0,1,0,1,0,1,0,1; phase 6 is 1022, its sample (127, -2)
theorem test_mod_byte : after (exec .mod (onAir [0xAA]))
    (fun t => (t.samp.read 6, t.samp.read 12, t.numPhySample, t.phase)) =
    some (some ⟨127, -2⟩, some ⟨44, -119⟩, 48, 0) := by decide +kernel
-- V-MOD-1
theorem test_phases_of_1 : phaseSeq Config.default [true] =
    [0, 0, 0, 0, 0, 0, 2, 13, 45, 98, 158, 211, 243, 254, 256, 256, 256, 256, 256, 256] := by decide +kernel
-- V-MOD-7: the other table of R216
theorem test_phases_alternative : phaseSeq { Config.default with gaussCoef := gaussCoefAlternative } [true] =
    [0, 0, 0, 0, 0, 1, 6, 26, 70, 128, 186, 230, 250, 255, 256, 256, 256, 256, 256, 256] := by decide +kernel
-- V-FRQ-1
theorem test_chFreq_36 : answer State.reset 0x70000024 = ok 0x93B34780 := by decide +kernel
theorem test_chFreq_40 : answer State.reset 0x70000028 = err 0x03 := by decide +kernel

-- R102: an idle block waits; `rst` gives R45's registers and keeps what the host presents next
theorem test_step_idle : after (step leadOnly) State.info = some leadOnly.info := by decide +kernel
theorem test_step_reset : after (step { leadOnly with port := [.reset, .command 0], lasterr := 6 })
    (fun t => (t.lasterr, t.numInfoByte, t.info, t.port)) = some (0, 0, [], [.command 0]) := by decide +kernel

/-! ## Witnesses: states and operands that meet the hypotheses of the statements, clause by clause -/

theorem test_witness_SetChan : (39#6).toNat ≤ 39 ∧ 40 ≤ (40#6).toNat := by decide
theorem test_witness_PushInfo :
    (packet (rising 42)).numInfoByte.toNat ≤ 42 ∧ 43 ≤ (packet (rising 43)).numInfoByte.toNat := by decide
/-- Index 42 of 43 bytes, and with `CRCAPP` index 45 of the 46 that then hold values; 43 and 46 raise. -/
theorem test_witness_RdInfo :
    ((packet (rising 43)).numInfoByte.toNat ≤ 43 ∧ (packet (rising 43)).info.read 42 = some 42#8 ∧
      (packet (rising 43)).status.getLsbD 2 = false ∧ (42#6).toNat < 43 + 0 ∧ 43 + 0 ≤ (43#6).toNat) ∧
    (({ packet (rising 46) with numInfoByte := 43, status := 4 } : State).info.read 45 = some 45#8 ∧
      ({ packet (rising 46) with numInfoByte := 43, status := 4 } : State).status.getLsbD 2 = true ∧
      (45#6).toNat < 43 + 3 ∧ 43 + 3 ≤ (46#6).toNat) := by decide +kernel
theorem test_witness_RdPhy : (onAir (rising 46)).numPhyByte.toNat ≤ 46 ∧ (45#6).toNat < (onAir (rising 46)).numPhyByte.toNat ∧
    (onAir (rising 46)).phy.read 45 = some 45#8 ∧ (onAir (rising 46)).numPhyByte.toNat ≤ (46#6).toNat := by decide +kernel
theorem test_witness_RdSample :
    ({ State.reset with samp := [(1519, ⟨1, 0⟩)], numPhySample := 1520 } : State).numPhySample.toNat ≤ 1520 ∧
    (1519#11).toNat < 1520 ∧ 1520 ≤ (1520#11).toNat ∧
    ({ State.reset with samp := [(1519, ⟨1, 0⟩)], numPhySample := 1520 } : State).samp.read 1519 = some ⟨1, 0⟩ := by
  decide +kernel
theorem test_witness_RdReg : (10#4).toNat ≤ 10 ∧ 11 ≤ (11#4).toNat ∧
    (10#4, State.reset.phase) ∈ [(0#4, State.reset.status), (10#4, State.reset.phase)] := by decide

/-- The bytes of a packet are those listed. -/
theorem holds_packet (bytes : List (BitVec 8)) : holds (packet bytes).info 0 bytes := by
  intro k _
  have h := Memory.read_cellsFrom bytes 0 (0 + k)
  rw [if_pos (Nat.zero_le _), Nat.zero_add, Nat.sub_zero] at h
  rw [Nat.zero_add]
  exact h

theorem test_witness_CrcRun : (packet (rising 43)).numInfoByte.toNat ≤ 43 ∧
    ((rising 43).drop 5).length = (packet (rising 43)).numInfoByte.toNat - 5 ∧
    holds (packet (rising 43)).info 5 ((rising 43).drop 5) := by
  refine ⟨by decide, by decide, fun k hk => ?_⟩
  rw [← Nat.zero_add (5 + k), holds_packet (rising 43) (5 + k) (by simp [rising] at hk ⊢; omega)]
  simp
/-- No body: five bytes, the empty list. -/
theorem test_witness_CrcRun_empty : leadOnly.numInfoByte.toNat ≤ 43 ∧ ([] : List (BitVec 8)).length = leadOnly.numInfoByte.toNat - 5 ∧
    holds leadOnly.info 5 [] := ⟨by decide, by decide, fun k hk => by simp at hk⟩

theorem test_witness_WhTbl37 : (41#6).toNat < 42 ∧ whTable37[(41#6).toNat]? = some 0x4C ∧ 42 ≤ (42#6).toNat := by decide
/-- The state `8k` whitener steps after the seed of channel 37. -/
def seededSteps (k : Nat) : State := { State.reset with wh := whStep^[8 * k] (whSeed 37#6) }
theorem test_witness_WhitenerTableAgrees : (41#6).toNat < 42 ∧
    (seededSteps (41#6).toNat).wh = whStep^[8 * (41#6).toNat] (whSeed 37#6) := ⟨by decide, by rw [seededSteps]⟩
theorem test_witness_WhStep : (1#7 ≠ 0) ∧ 0 < 126 ∧ 126 < 127 := by decide
/-- Types 3 (named) and 31 (no name), lengths 43 and 44, both settings of `STRICT_RESERVED`. -/
theorem test_witness_HdrAdv : 44 ≤ (44#8).toNat ∧ (43#8).toNat ≤ 43 ∧ advTypeCode (pktTypeOf 3#5) ≠ 0xF#4 ∧
    advTypeCode (pktTypeOf 31#5) = 0xF#4 ∧ State.reset.cfg.strictReserved = false ∧ strict.cfg.strictReserved = true := by
  decide
theorem test_witness_HdrData : 32 ≤ (32#8).toNat ∧ (31#8).toNat ≤ 31 := by decide
theorem test_witness_LlOpcode : (11 ≤ (11#5).toNat ∧ (11#5).toNat ≤ 24) ∧ (11 ≤ (24#5).toNat ∧ (24#5).toNat ≤ 24) ∧
    (10#5).toNat ≤ 10 ∧ 25 ≤ (25#5).toNat ∧ State.reset.cfg.strictReserved = false ∧ strict.cfg.strictReserved = true := by
  decide
/-! ## R223: rounding; R224: a setting whose tables are the rounded cosine and sine -/

theorem test_rnd_half : rnd (1 / 2 : ℚ) = 1 := by decide +kernel
theorem test_rnd_minus_half : rnd (-1 / 2 : ℚ) = -1 := by decide +kernel
theorem test_rnd_five_halves : rnd (5 / 2 : ℚ) = 3 := by decide +kernel
theorem test_rnd_below : rnd (-37 / 25 : ℚ) = -1 := by decide +kernel

theorem fourPhases_cosTab : isCosTab 127 2 [127, 0, -127, 0] := by
  refine ⟨rfl, fun p hp => ?_⟩
  have hp4 : p < 4 := hp
  interval_cases p
  · have h : ((127 : ℕ) : ℝ) * Real.cos (2 * Real.pi * (0 : ℕ) / 2 ^ 2) = ((127 : Int) : ℝ) := by
      rw [show 2 * Real.pi * ((0 : ℕ) : ℝ) / 2 ^ 2 = 0 by push_cast; ring, Real.cos_zero]; push_cast; ring
    rw [h, rnd_intCast]; rfl
  · have h : ((127 : ℕ) : ℝ) * Real.cos (2 * Real.pi * (1 : ℕ) / 2 ^ 2) = ((0 : Int) : ℝ) := by
      rw [show 2 * Real.pi * ((1 : ℕ) : ℝ) / 2 ^ 2 = Real.pi / 2 by push_cast; ring, Real.cos_pi_div_two]; push_cast; ring
    rw [h, rnd_intCast]; rfl
  · have h : ((127 : ℕ) : ℝ) * Real.cos (2 * Real.pi * (2 : ℕ) / 2 ^ 2) = ((-127 : Int) : ℝ) := by
      rw [show 2 * Real.pi * ((2 : ℕ) : ℝ) / 2 ^ 2 = Real.pi by push_cast; ring, Real.cos_pi]; push_cast; ring
    rw [h, rnd_intCast]; rfl
  · have h : ((127 : ℕ) : ℝ) * Real.cos (2 * Real.pi * (3 : ℕ) / 2 ^ 2) = ((0 : Int) : ℝ) := by
      rw [show 2 * Real.pi * ((3 : ℕ) : ℝ) / 2 ^ 2 = Real.pi / 2 + Real.pi by push_cast; ring, Real.cos_add_pi, Real.cos_pi_div_two]; push_cast; ring
    rw [h, rnd_intCast]; rfl

theorem fourPhases_sinTab : isSinTab 127 2 [0, 127, 0, -127] := by
  refine ⟨rfl, fun p hp => ?_⟩
  have hp4 : p < 4 := hp
  interval_cases p
  · have h : ((127 : ℕ) : ℝ) * Real.sin (2 * Real.pi * (0 : ℕ) / 2 ^ 2) = ((0 : Int) : ℝ) := by
      rw [show 2 * Real.pi * ((0 : ℕ) : ℝ) / 2 ^ 2 = 0 by push_cast; ring, Real.sin_zero]; push_cast; ring
    rw [h, rnd_intCast]; rfl
  · have h : ((127 : ℕ) : ℝ) * Real.sin (2 * Real.pi * (1 : ℕ) / 2 ^ 2) = ((127 : Int) : ℝ) := by
      rw [show 2 * Real.pi * ((1 : ℕ) : ℝ) / 2 ^ 2 = Real.pi / 2 by push_cast; ring, Real.sin_pi_div_two]; push_cast; ring
    rw [h, rnd_intCast]; rfl
  · have h : ((127 : ℕ) : ℝ) * Real.sin (2 * Real.pi * (2 : ℕ) / 2 ^ 2) = ((0 : Int) : ℝ) := by
      rw [show 2 * Real.pi * ((2 : ℕ) : ℝ) / 2 ^ 2 = Real.pi by push_cast; ring, Real.sin_pi]; push_cast; ring
    rw [h, rnd_intCast]; rfl
  · have h : ((127 : ℕ) : ℝ) * Real.sin (2 * Real.pi * (3 : ℕ) / 2 ^ 2) = ((-127 : Int) : ℝ) := by
      rw [show 2 * Real.pi * ((3 : ℕ) : ℝ) / 2 ^ 2 = Real.pi / 2 + Real.pi by push_cast; ring, Real.sin_add_pi, Real.sin_pi_div_two]; push_cast; ring
    rw [h, rnd_intCast]; rfl

theorem fourPhases_wf : ConfigWf fourPhases where
  phaseBitsLe := by decide
  ampPos := by decide
  ampLt := by decide
  sampleBitsLe := by decide
  cosTab := fourPhases_cosTab
  sinTab := fourPhases_sinTab
  llOpcodeLe := by decide
  llOpcodeNodup := by decide

theorem test_witness_HeaderEncoders : (43#8).toNat ≤ 43 ∧ advHeader 6 true false 43 = advHeader 6 true false 43 ∧
    (31#8).toNat ≤ 31 ∧ dataHeader 3 true false true 31 = dataHeader 3 true false true 31 ∧
    hopScaOctet 31 7 = hopScaOctet 31 7 ∧ ConfigWf fourPhases ∧ llOpcodeOf fourPhases 24 = some 0x0D :=
  ⟨by decide, rfl, by decide, rfl, rfl, fourPhases_wf, by decide +kernel⟩

theorem test_witness_AssembleBuilds : (rising 43).length = (packet (rising 43)).numInfoByte.toNat ∧ 5 ≤ (rising 43).length ∧
    (rising 43).length ≤ 43 ∧ holds (packet (rising 43)).info 0 (rising 43) ∧
    (Path.table = .table → (packet (rising 43)).chan = 37#6) :=
  ⟨by decide, by decide, by decide, holds_packet _, fun _ => by decide⟩
theorem test_witness_AssembleBuilds_five : (rising 5).length = (packet (rising 5)).numInfoByte.toNat ∧ 5 ≤ (rising 5).length ∧
    (rising 5).length ≤ 43 ∧ holds (packet (rising 5)).info 0 (rising 5) ∧
    (Path.bitSerial = .table → (packet (rising 5)).chan = 37#6) :=
  ⟨by decide, by decide, by decide, holds_packet _, fun _ => by decide⟩
theorem test_witness_AssembleRefuses : (packet (rising 4)).numInfoByte.toNat ≤ 4 ∧ 5 ≤ (packet (rising 5)).numInfoByte.toNat ∧
    ({ packet (rising 5) with chan := 38 } : State).chan ≠ 37#6 := by decide
/-- Five bytes on channel 37: a state, other than the one after reset, that keeps the invariant. -/
theorem test_witness_Inv : (withFourPhases leadOnly).Inv ∧ 5 ≤ (withFourPhases leadOnly).numInfoByte.toNat ∧
    (withFourPhases leadOnly).chan = 37#6 := by
  refine ⟨?_, by decide, by decide⟩
  constructor
  case cfgWf => exact fourPhases_wf
  case infoFilled =>
    intro idx h
    have h5 : idx < 5 := h
    interval_cases idx <;> exact ⟨_, rfl⟩
  case phyFilled => intro idx h; exact absurd h (Nat.not_lt_zero idx)
  case sampFilled => intro idx h; exact absurd h (Nat.not_lt_zero idx)
  case sampRange => intro c h; exact absurd h (List.not_mem_nil)
  case rspCode => intro r h; cases h
  all_goals decide +kernel
theorem test_witness_AssembleIsIdempotent :
    after (exec (.assemble .bitSerial) (packet program1Bytes)) State.rsp = ok 16 := by decide +kernel

theorem test_witness_Mod : 48 ≤ ({ State.reset with numPhyByte := 48 } : State).numPhyByte.toNat ∧
    ConfigWf (withFourPhases (onAir (rising 47))).cfg ∧
    (rising 47).length = (withFourPhases (onAir (rising 47))).numPhyByte.toNat ∧
    (rising 47).length ≤ 47 ∧ holds (withFourPhases (onAir (rising 47))).phy 0 (rising 47) :=
  ⟨by decide, fourPhases_wf, by decide, by decide, holds_packet (rising 47)⟩
theorem test_witness_Phases : 4 * [true].length + 14 < 4 * [true].length + 15 ∧ 5 < 6 ∧
    (phaseSeq Config.default [true])[8]? = some 45 ∧ (phaseSeq Config.default ([true].map not))[8]? = some 979 := by
  decide +kernel
theorem test_witness_ChFreq : (39#8).toNat ≤ 39 ∧ 40 ≤ (40#8).toNat ∧ 39 < 40 := by decide
theorem test_witness_Warn : State.reset.cfg.strictReserved = false ∧ strict.cfg.strictReserved = true := by decide
theorem test_witness_IllegalWords : (State.reset.presentCommand 0x1600000B#32).port = .command 0x1600000B#32 :: [] ∧
    illegalWord 0x1600000B#32 = true := by decide
theorem test_witness_StepRuns : (State.reset.presentCommand 0x11000026#32).port = .command 0x11000026#32 :: [] ∧
    decode 0x11000026#32 = .ok (.setChan 38) := by decide
theorem test_witness_StepResets : ({ State.reset with port := [.reset] } : State).port = .reset :: [] ∧
    State.reset.port = [] := by decide
/-- A command that completes with a flag set before it: bit 13 of `STATUS`. -/
theorem test_witness_EveryCommand : (Instr.setChan 38) ≠ .clrStatus ∧ 13 ≠ 2 ∧ (0x2001#32).getLsbD 13 = true ∧
    after (exec (.setChan 38) { State.reset with status := 0x2001 }) State.rsp = ok 0 := by decide +kernel
/-- `RD_REG` is in none of the lists of writers, and completes. -/
theorem test_witness_Writers : mnemonicOf (.rdReg 0) ∉ ["PUSH_INFO", "ASSEMBLE"] ∧ mnemonicOf (.rdReg 0) ∉ ["MOD"] ∧
    (Instr.rdReg 0) ≠ .assemble .bitSerial ∧ after (exec (.rdReg 0) State.reset) State.rsp = ok 0 := by decide +kernel
theorem test_witness_DecodeAfterEncode : (Instr.rdReg 10).wellFormed = true := by decide
theorem test_witness_EncodeAfterDecode : decode 0x40002523#32 = .ok (.hdrAdv 3 true false 37) := by decide
/-- A step from a state that keeps the invariant. -/
theorem test_witness_StepKeeps : ∃ t, (withFourPhases leadOnly).Inv ∧ step (withFourPhases leadOnly) = .next t :=
  ⟨_, test_witness_Inv.1, rfl⟩

end Sys2Proof.Tests
end

