-- ==== Sys2Proof/Proofs/BitView.lean ====
section
/-! Packing undoes the bit view (spec/00_scope.md R12, R13, R15): for a number cut to a width, for one byte, and for a
byte list. -/

namespace Sys2Proof.Machine

theorem getD_intToBits (n width k : Nat) :
    (intToBits n width).getD k false = (decide (k < width) && n.testBit k) := by
  by_cases hk : k < width <;> simp [intToBits, hk]

/-- Packing the bits of a number keeps the bits below the width and no others (R12, R13). -/
theorem bitsToNat_intToBits (n width : Nat) : bitsToNat (intToBits n width) = n % 2 ^ width := by
  refine Nat.eq_of_testBit_eq fun k => ?_
  rw [testBit_bitsToNat, getD_intToBits, Nat.testBit_mod_two_pow]

@[simp] theorem bitsToByte_byteToBits (b : BitVec 8) : bitsToByte (byteToBits b) = b := by
  refine BitVec.eq_of_toNat_eq ?_
  rw [bitsToByte, byteToBits, bitsToNat_intToBits, BitVec.toNat_ofNat, Nat.mod_mod, Nat.mod_eq_of_lt b.isLt]

/-- Eight leading bits pack to the first byte, whatever follows them (R13). -/
theorem bitsToBytes_append {bits : List Bool} (hlen : bits.length = 8) (rest : List Bool) :
    bitsToBytes (bits ++ rest) = bitsToByte bits :: bitsToBytes rest := by
  match bits, hlen with
  | [_, _, _, _, _, _, _, _], _ => rfl

/-- Settles O56, by induction on the byte list: its first byte is the first eight bits of the view. -/
theorem bytesSurviveTheBitView : Obligations.BytesSurviveTheBitView := by
  intro x
  induction x with
  | nil => rfl
  | cons b bs ih =>
    rw [bytesToBits_cons, bitsToBytes_append (length_byteToBits b), bitsToByte_byteToBits, ih]

end Sys2Proof.Machine
end

