-- ==== Sys2Proof/Proofs/Flags.lean ====
section
/-! The rules of the `STATUS` flags (spec/10_state.md R25, spec/60_exceptions.md R250): what setting and clearing one bit
does to every bit and under every mask, and which bits an error, a warning and `CLR_STATUS` touch. -/

namespace Sys2Proof.Machine

theorem getLsbD_setBit (v : BitVec 32) (i k : Nat) :
    (setBit v i).getLsbD k = (v.getLsbD k || (decide (i < 32) && decide (i = k))) := by
  rw [setBit, BitVec.getLsbD_or, BitVec.getLsbD_twoPow]

theorem getLsbD_setBit_of_getLsbD {v : BitVec 32} {k : Nat} (h : v.getLsbD k = true) (i : Nat) :
    (setBit v i).getLsbD k = true := by rw [getLsbD_setBit, h, Bool.true_or]

theorem getLsbD_setBit_self (v : BitVec 32) {i : Nat} (h : i < 32) : (setBit v i).getLsbD i = true := by
  simp [getLsbD_setBit, h]

theorem getLsbD_setBit_other (v : BitVec 32) {i k : Nat} (h : i ≠ k) : (setBit v i).getLsbD k = v.getLsbD k := by
  simp [getLsbD_setBit, h]

theorem getLsbD_clearBit_self (v : BitVec 32) (i : Nat) : (clearBit v i).getLsbD i = false := by
  by_cases h : i < 32 <;> simp [clearBit, h]

theorem getLsbD_clearBit_other (v : BitVec 32) {i k : Nat} (h : i ≠ k) : (clearBit v i).getLsbD k = v.getLsbD k := by
  by_cases hk : k < 32
  · simp [clearBit, hk, h.symm]
  · rw [BitVec.getLsbD_of_ge _ _ (by omega), BitVec.getLsbD_of_ge _ _ (by omega)]

/-- A mask sees a bit set exactly when it saw something before or names that bit. -/
theorem setBit_and_eq_zero_iff (v m : BitVec 32) {i : Nat} (h : i < 32) :
    setBit v i &&& m = 0 ↔ v &&& m = 0 ∧ m.getLsbD i = false := by
  have hpow : BitVec.twoPow 32 i ≠ 0 := fun h0 => by
    have := congrArg (·.getLsbD i) h0
    simp [h] at this
  have hor : setBit v i &&& m = (v &&& m) ||| (if m.getLsbD i then BitVec.twoPow 32 i else 0) := by
    rw [setBit, BitVec.and_comm, BitVec.and_or_distrib_left, BitVec.and_comm m v, BitVec.and_twoPow]
    rfl
  rw [hor]
  cases m.getLsbD i <;> simp_all

/-- A mask that does not name a bit does not see it cleared. -/
theorem clearBit_and_of_not_mem {m : BitVec 32} {i : Nat} (h : m.getLsbD i = false) (v : BitVec 32) :
    clearBit v i &&& m = v &&& m := by
  refine BitVec.eq_of_getLsbD_eq fun k hk => ?_
  by_cases hi : i = k
  · subst hi; simp [h]
  · rw [BitVec.getLsbD_and, BitVec.getLsbD_and, getLsbD_clearBit_other v hi]

/-- A mask that does not name a bit does not see it set. -/
theorem setBit_and_of_not_mem {m : BitVec 32} {i : Nat} (h : m.getLsbD i = false) (v : BitVec 32) :
    setBit v i &&& m = v &&& m := by
  refine BitVec.eq_of_getLsbD_eq fun k hk => ?_
  by_cases hi : i = k
  · subst hi; simp [h]
  · rw [BitVec.getLsbD_and, BitVec.getLsbD_and, getLsbD_setBit_other v hi]

theorem getLsbD_clearSticky_two (v : BitVec 32) : (clearSticky v).getLsbD statusCrcApp = v.getLsbD statusCrcApp := by
  rw [clearSticky, BitVec.getLsbD_and, show (4#32).getLsbD statusCrcApp = true by decide, Bool.and_true]

/-- `CLR_STATUS` leaves nothing that a mask without bit 2 sees (R130). -/
theorem clearSticky_and_eq_zero {m : BitVec 32} (h : 4#32 &&& m = 0) (v : BitVec 32) : clearSticky v &&& m = 0 := by
  rw [clearSticky, BitVec.and_assoc, h]; exact BitVec.and_zero

theorem someErrorFlag_setBit (v : BitVec 32) {i : Nat} (h : i < 32) :
    someErrorFlag (setBit v i) = (someErrorFlag v || (0x00003F00#32).getLsbD i) := by
  rw [someErrorFlag, someErrorFlag, Bool.eq_iff_iff]
  simp only [decide_eq_true_eq, Bool.or_eq_true, ne_eq, setBit_and_eq_zero_iff v _ h]
  cases (0x00003F00#32).getLsbD i <;> simp

theorem someWarningFlag_setBit (v : BitVec 32) {i : Nat} (h : i < 32) :
    someWarningFlag (setBit v i) = (someWarningFlag v || (0x00030000#32).getLsbD i) := by
  rw [someWarningFlag, someWarningFlag, Bool.eq_iff_iff]
  simp only [decide_eq_true_eq, Bool.or_eq_true, ne_eq, setBit_and_eq_zero_iff v _ h]
  cases (0x00030000#32).getLsbD i <;> simp

/-- An error's bit is one of `STATUS[13:8]` (R250). -/
theorem errBit_range (e : Err) : 8 ≤ errBit e ∧ errBit e ≤ 13 := by cases e <;> decide

/-- A warning's bit is `STATUS[16]` or `STATUS[17]` (R250). -/
theorem warningBit_range (w : Warning) : 16 ≤ warningBit w ∧ warningBit w ≤ 17 := by cases w <;> decide

theorem errBit_lt (e : Err) : errBit e < 32 := by have := errBit_range e; omega

theorem warningBit_lt (w : Warning) : warningBit w < 32 := by have := warningBit_range w; omega

/-- An error's bit is none of `ERR`, `WARN` and `CRCAPP`. -/
theorem getLsbD_setBit_errBit (v : BitVec 32) (e : Err) {k : Nat} (hk : k < 8) :
    (setBit v (errBit e)).getLsbD k = v.getLsbD k :=
  getLsbD_setBit_other v (by have := errBit_range e; omega)

/-- A warning's bit is none of `ERR`, `WARN` and `CRCAPP`. -/
theorem getLsbD_setBit_warningBit (v : BitVec 32) (w : Warning) {k : Nat} (hk : k < 8) :
    (setBit v (warningBit w)).getLsbD k = v.getLsbD k :=
  getLsbD_setBit_other v (by have := warningBit_range w; omega)

theorem someErrorFlag_setBit_errBit (v : BitVec 32) (e : Err) : someErrorFlag (setBit v (errBit e)) = true := by
  rw [someErrorFlag_setBit v (errBit_lt e), show (0x00003F00#32).getLsbD (errBit e) = true by cases e <;> decide,
    Bool.or_true]

theorem someErrorFlag_setBit_warningBit (v : BitVec 32) (w : Warning) :
    someErrorFlag (setBit v (warningBit w)) = someErrorFlag v := by
  rw [someErrorFlag_setBit v (warningBit_lt w),
    show (0x00003F00#32).getLsbD (warningBit w) = false by cases w <;> decide, Bool.or_false]

theorem someErrorFlag_setBit_warn (v : BitVec 32) : someErrorFlag (setBit v statusWarn) = someErrorFlag v := by
  rw [someErrorFlag_setBit v (by decide), show (0x00003F00#32).getLsbD statusWarn = false by decide, Bool.or_false]

theorem someWarningFlag_setBit_errBit (v : BitVec 32) (e : Err) :
    someWarningFlag (setBit v (errBit e)) = someWarningFlag v := by
  rw [someWarningFlag_setBit v (errBit_lt e), show (0x00030000#32).getLsbD (errBit e) = false by cases e <;> decide,
    Bool.or_false]

theorem someWarningFlag_setBit_warningBit (v : BitVec 32) (w : Warning) :
    someWarningFlag (setBit v (warningBit w)) = true := by
  rw [someWarningFlag_setBit v (warningBit_lt w),
    show (0x00030000#32).getLsbD (warningBit w) = true by cases w <;> decide, Bool.or_true]

theorem someWarningFlag_setBit_err (v : BitVec 32) : someWarningFlag (setBit v statusErr) = someWarningFlag v := by
  rw [someWarningFlag_setBit v (by decide), show (0x00030000#32).getLsbD statusErr = false by decide, Bool.or_false]

theorem errCode_ne_zero (e : Err) : errCode e ≠ 0 := by cases e <;> decide

theorem warningCode_ne_zero (w : Warning) : warningCode w ≠ 0 := by cases w <;> decide

theorem errCode_mem_responseCodes (e : Err) : errCode e ∈ responseCodes := by cases e <;> decide

theorem warningCode_mem_responseCodes (w : Warning) : warningCode w ∈ responseCodes := by cases w <;> decide

end Sys2Proof.Machine
end

