-- ==== Sys2Proof/Proofs/Effect.lean ====
section
/-! What any command can do to the state, said once: `exec_effect` says that whatever next state a command answers is one
of the few kinds of update that `Effect` lists. A claim over all commands is then a case split over these kinds. -/

namespace Sys2Proof.Machine

/-- `PKT_CLR` before its response (R121). -/
def State.freshPacket (s : State) : State :=
  { s with numInfoByte := 0, numPhyByte := 0, numPhySample := 0, status := clearBit s.status statusCrcApp }

/-- `PUSH_INFO` before its response, the count below its bound (R123). -/
def State.pushed (byte : Byte) (s : State) : State :=
  { s with
    info := s.info.write s.numInfoByte.toNat [byte]
    numInfoByte := s.numInfoByte + 1
    status := clearBit s.status statusCrcApp }

/-- `ASSEMBLE` before its response, for the packet bytes read and their CRC (R200). -/
def State.assembled (path : Path) (bytes : List (BitVec 8)) (crc : BitVec 24) (s : State) : State :=
  { s with
    crc := crc
    wh := (whitenRegion path s (bytes.drop 5 ++ crcToBytes crc)).2
    info := s.info.write s.numInfoByte.toNat (crcToBytes crc)
    phy := s.phy.write 0 (bytes.take 5 ++ (whitenRegion path s (bytes.drop 5 ++ crcToBytes crc)).1)
    numPhyByte := s.numInfoByte + 3
    status := setBit s.status statusCrcApp }

/-- `MOD` before its response, for the bytes read and their samples (R220). -/
def State.modulated (bytes : List (BitVec 8)) (xs : List Sample) (s : State) : State :=
  { s with
    samp := s.samp.write 0 xs
    phase := BitVec.ofNat 32 ((phaseSeq s.cfg (bytesToBits bytes)).getLastD 0)
    numPhySample := BitVec.ofNat 11 (32 * s.numPhyByte.toNat + 16) }

/-- The writers of `RES` (R23). -/
def resWriters : List String :=
  ["WH_BIT", "WH_BYTE", "WH_TBL37", "HDR_ADV", "HDR_DATA", "HOP_SCA", "LL_OPCODE", "CH_FREQ"]

/-- The kinds of update by which a command `i` goes from `s` to `t`, each with the facts that a claim over all commands
needs: who the writer is, and what was checked or read. Which value a command computes is left to its own statement. -/
inductive Effect (s : State) : Instr → State → Prop
  /-- an error (R255) -/
  | raised (i : Instr) (e : Err) : Effect s i (s.raise e)
  /-- a warning's rejection (R258) -/
  | rejected (i : Instr) (w : Warning) (strict : s.cfg.strictReserved = true) :
      Effect s i (s.abandon (warningCode w) (warningBit w))
  /-- a warning (R256) -/
  | recorded (i : Instr) (w : Warning) (r : BitVec 32) (lenient : s.cfg.strictReserved = false)
      (writer : mnemonicOf i ∈ resWriters) : Effect s i (s.recordWarning w r)
  /-- a response and nothing else, as the read commands give it (R125 to R129) -/
  | answered (i : Instr) (d : BitVec 32) : Effect s i (s.respond d)
  /-- a command whose only effect is `RES` (R27) -/
  | computed (i : Instr) (r : BitVec 32) (writer : mnemonicOf i ∈ resWriters) : Effect s i (s.result r)
  | cleared : Effect s .pktClr (s.freshPacket.respond 0)
  | tuned (ch : BitVec 6) (legal : ch.toNat ≤ 39) : Effect s (.setChan ch) (({ s with chan := ch } : State).respond 0)
  | pushed (byte : Byte) (room : s.numInfoByte.toNat < 43) : Effect s (.pushInfo byte) ((s.pushed byte).respond 0)
  | acknowledged : Effect s .clrStatus (s.acknowledge.respond 0)
  /-- `CRC_INIT` and `CRC_INIT_LFSR` (R141, R142) -/
  | crcLoaded (i : Instr) (c : BitVec 24) (writer : mnemonicOf i ∈ ["CRC_INIT", "CRC_INIT_LFSR"]) :
      Effect s i (({ s with crcInit := c, crc := c } : State).respond 0)
  /-- `CRC_BIT`, `CRC_BYTE` and `CRC_RUN` (R143, R146, R151) -/
  | crcAdvanced (i : Instr) (c : BitVec 24) (writer : mnemonicOf i ∈ ["CRC_BIT", "CRC_BYTE", "CRC_RUN"]) :
      Effect s i (({ s with crc := c } : State).respond (zext32 c))
  | seeded : Effect s .whSeed (({ s with wh := whSeed s.chan } : State).respond (zext32 (whSeed s.chan)))
  /-- `WH_BIT` and `WH_BYTE`: steps of the LFSR (R162, R164) -/
  | whitened (i : Instr) (steps : Nat) (r : BitVec 32) (writer : mnemonicOf i ∈ ["WH_BIT", "WH_BYTE"]) :
      Effect s i (({ s with wh := whStep^[steps] s.wh } : State).result r)
  | assembled (path : Path) (bytes : List (BitVec 8)) (crc : BitVec 24) (long : 5 ≤ s.numInfoByte.toNat)
      (read : loadRange .info s.info 0 s.numInfoByte.toNat = .ok bytes) :
      Effect s (.assemble path) ((s.assembled path bytes crc).respond (zext32 (s.numInfoByte + 3)))
  | modulated (bytes : List (BitVec 8)) (xs : List Sample)
      (read : loadRange .phy s.phy 0 s.numPhyByte.toNat = .ok bytes)
      (samples : samplesOf s.cfg (phaseSeq s.cfg (bytesToBits bytes)) = .ok xs) :
      Effect s .mod ((s.modulated bytes xs).respond (BitVec.ofNat 32 (32 * s.numPhyByte.toNat + 16)))

/-- A warning is a rejection or a record, by the setting (R258). -/
theorem Effect.warned {i : Instr} (s : State) (w : Warning) (r : BitVec 32) (writer : mnemonicOf i ∈ resWriters) :
    Effect s i (s.warn w r) := by
  rcases s.warn_cases w r with ⟨hs, ht⟩ | ⟨hs, ht⟩ <;> rw [ht]
  · exact .rejected i w hs
  · exact .recorded i w r hs writer

/-- The whitener's state after a byte is eight steps on (R164). -/
theorem whitenByte_state (w : BitVec 7) (x : BitVec 8) : (whitenByte w x).2 = whStep^[8] w := by
  rw [whitenByte, whitenBits_state, length_byteToBits]

/-- A command answers no next state but those of `Effect`. -/
theorem exec_effect {i : Instr} {s t : State} (h : exec i s = .next t) : Effect s i t := by
  cases i with
  | pktClr => cases h; exact .cleared
  | setChan ch =>
    rcases execSetChan_cases h with ⟨-, rfl⟩ | ⟨hch, rfl⟩
    · exact .raised _ _
    · exact .tuned ch hch
  | pushInfo byte =>
    rcases execPushInfo_cases h with ⟨-, rfl⟩ | ⟨hn, rfl⟩
    · exact .raised _ _
    · exact .pushed byte hn
  | rdInfo idx =>
    rcases execRdInfo_cases h with ⟨-, rfl⟩ | ⟨b, -, -, rfl⟩
    · exact .raised _ _
    · exact .answered _ _
  | rdPhy idx =>
    rcases execRdPhy_cases h with ⟨-, rfl⟩ | ⟨b, -, -, rfl⟩
    · exact .raised _ _
    · exact .answered _ _
  | rdSample idx =>
    rcases execRdSample_cases h with ⟨-, rfl⟩ | ⟨x, -, -, rfl⟩
    · exact .raised _ _
    · exact .answered _ _
  | rdReg n =>
    rcases execRdReg_cases h with ⟨-, rfl⟩ | ⟨v, -, rfl⟩
    · exact .raised _ _
    · exact .answered _ _
  | clrStatus => cases h; exact .acknowledged
  | crcInit v => cases h; exact .crcLoaded _ v (by simp [mnemonicOf])
  | crcInitLfsr w => cases h; exact .crcLoaded _ (rev24 w) (by simp [mnemonicOf])
  | crcBit b => cases h; exact .crcAdvanced _ _ (by simp [mnemonicOf])
  | crcByte byte => cases h; exact .crcAdvanced _ _ (by simp [mnemonicOf])
  | crcRun path =>
    obtain ⟨body, -, rfl⟩ := execCrcRun_cases h
    exact .crcAdvanced _ _ (by simp [mnemonicOf])
  | whSeed => cases h; exact .seeded
  | whBit b => cases h; exact .whitened _ 1 _ (by simp [mnemonicOf])
  | whByte byte =>
    cases h
    rw [whitenByte_state]
    exact .whitened _ 8 _ (by simp [mnemonicOf])
  | whTbl37 idx byte =>
    rcases execWhTbl37_cases h with ⟨-, rfl⟩ | ⟨k, -, rfl⟩
    · exact .raised _ _
    · exact .computed _ _ (by simp [mnemonicOf, resWriters])
  | hdrAdv ty tx rx len =>
    rcases execHdrAdv_cases h with ⟨-, rfl⟩ | ⟨-, -, rfl⟩ | ⟨-, -, rfl⟩
    · exact .raised _ _
    · exact .warned s _ _ (by simp [mnemonicOf, resWriters])
    · exact .computed _ _ (by simp [mnemonicOf, resWriters])
  | hdrData llid nesn sn md len =>
    rcases execHdrData_cases h with ⟨-, rfl⟩ | ⟨-, rfl⟩
    · exact .raised _ _
    · exact .computed _ _ (by simp [mnemonicOf, resWriters])
  | hopSca hop sca => cases h; exact .computed _ _ (by simp [mnemonicOf, resWriters])
  | llOpcode ty =>
    rcases execLlOpcode_cases h with ⟨-, rfl⟩ | ⟨o, -, rfl⟩
    · exact .warned s _ _ (by simp [mnemonicOf, resWriters])
    · exact .computed _ _ (by simp [mnemonicOf, resWriters])
  | assemble path =>
    rcases execAssemble_cases h with ⟨-, rfl⟩ | ⟨-, -, -, rfl⟩ | ⟨hn, -, bytes, crc, region, hb, -, rfl, -, -, rfl⟩
    · exact .raised _ _
    · exact .raised _ _
    · exact .assembled path bytes crc hn hb
  | mod =>
    rcases execMod_cases h with ⟨-, rfl⟩ | ⟨-, bytes, xs, hb, hx, -, rfl⟩
    · exact .raised _ _
    · exact .modulated bytes xs hb hx
  | chFreq ch =>
    rcases execChFreq_cases h with ⟨-, rfl⟩ | ⟨f, -, rfl⟩
    · exact .raised _ _
    · exact .computed _ _ (by simp [mnemonicOf, resWriters])

end Sys2Proof.Machine
end

