-- ==== Sys2Proof/Proofs/Writers.lean ====
section
/-! Who writes what (spec/10_state.md R23, R25, R34): one frame lemma per register and per buffer, each a case split on
`Effect` in which the listed writers are the only effects that change it. -/

namespace Sys2Proof.Machine

section Frames

variable {i : Instr} {s t : State}

/-! ## Registers -/

theorem Effect.res_eq (h : Effect s i t) (hi : mnemonicOf i ∉ resWriters) : t.res = s.res := by
  cases h with
  | recorded _ w r _ writer => exact absurd writer hi
  | computed _ r writer => exact absurd writer hi
  | whitened _ n r writer => exact absurd (List.mem_append_left _ writer) hi
  | _ => rfl

theorem Effect.crc_eq (h : Effect s i t)
    (hi : mnemonicOf i ∉ ["CRC_INIT", "CRC_INIT_LFSR", "CRC_BIT", "CRC_BYTE", "CRC_RUN", "ASSEMBLE"]) :
    t.crc = s.crc := by
  cases h with
  | crcLoaded _ c writer => exact absurd (List.mem_append_left _ writer) hi
  | crcAdvanced _ c writer =>
    exact absurd (List.mem_append_right ["CRC_INIT", "CRC_INIT_LFSR"] (List.mem_append_left ["ASSEMBLE"] writer)) hi
  | assembled path bytes crc => simp [mnemonicOf] at hi
  | _ => rfl

theorem Effect.crcInit_eq (h : Effect s i t) (hi : mnemonicOf i ∉ ["CRC_INIT", "CRC_INIT_LFSR"]) :
    t.crcInit = s.crcInit := by
  cases h with
  | crcLoaded _ c writer => exact absurd writer hi
  | _ => rfl

/-- The table path of `ASSEMBLE` leaves `WH` alone (R205). -/
theorem Effect.wh_eq (h : Effect s i t) (hi : mnemonicOf i ∉ ["WH_SEED", "WH_BIT", "WH_BYTE"])
    (hserial : i ≠ .assemble .bitSerial) : t.wh = s.wh := by
  cases h with
  | seeded => simp [mnemonicOf] at hi
  | whitened _ n r writer => exact absurd (List.mem_cons_of_mem _ writer) hi
  | assembled path bytes crc =>
    cases path with
    | bitSerial => exact absurd rfl hserial
    | table => rfl
  | _ => rfl

theorem Effect.chan_eq (h : Effect s i t) (hi : mnemonicOf i ∉ ["SET_CHAN"]) : t.chan = s.chan := by
  cases h with
  | tuned ch => simp [mnemonicOf] at hi
  | _ => rfl

theorem Effect.numInfoByte_eq (h : Effect s i t) (hi : mnemonicOf i ∉ ["PKT_CLR", "PUSH_INFO"]) :
    t.numInfoByte = s.numInfoByte := by
  cases h with
  | cleared => simp [mnemonicOf] at hi
  | pushed byte => simp [mnemonicOf] at hi
  | _ => rfl

theorem Effect.numPhyByte_eq (h : Effect s i t) (hi : mnemonicOf i ∉ ["PKT_CLR", "ASSEMBLE"]) :
    t.numPhyByte = s.numPhyByte := by
  cases h with
  | cleared => simp [mnemonicOf] at hi
  | assembled path bytes crc => simp [mnemonicOf] at hi
  | _ => rfl

theorem Effect.numPhySample_eq (h : Effect s i t) (hi : mnemonicOf i ∉ ["PKT_CLR", "MOD"]) :
    t.numPhySample = s.numPhySample := by
  cases h with
  | cleared => simp [mnemonicOf] at hi
  | modulated bytes xs => simp [mnemonicOf] at hi
  | _ => rfl

theorem Effect.phase_eq (h : Effect s i t) (hi : mnemonicOf i ∉ ["MOD"]) : t.phase = s.phase := by
  cases h with
  | modulated bytes xs => simp [mnemonicOf] at hi
  | _ => rfl

/-- The parameters are written by no command (R17). -/
theorem Effect.cfg_eq (h : Effect s i t) : t.cfg = s.cfg := by cases h <;> rfl

/-- What the host presents next is the host's (R21). -/
theorem Effect.port_eq (h : Effect s i t) : t.port = s.port := by cases h <;> rfl

/-! ## `STATUS` -/

/-- No error's bit is `CRCAPP` (R25). -/
theorem State.raise_crcApp (e : Err) (s : State) : (s.raise e).crcApp = s.crcApp := by
  rw [State.crcApp, State.raise_status, getLsbD_setBit_errBit _ e (by decide), getLsbD_setBit_other _ (by decide),
    State.crcApp]

/-- No warning's bit is `CRCAPP` (R25), whether `ERR` or `WARN` is set with it. -/
theorem getLsbD_setBit_warningBit_crcApp (v : BitVec 32) (w : Warning) {flag : Nat} (hflag : flag ≠ statusCrcApp) :
    (setBit (setBit v flag) (warningBit w)).getLsbD statusCrcApp = v.getLsbD statusCrcApp := by
  rw [getLsbD_setBit_warningBit _ w (by decide), getLsbD_setBit_other _ hflag]

theorem Effect.crcApp_eq (h : Effect s i t) (hi : mnemonicOf i ∉ ["PKT_CLR", "PUSH_INFO", "ASSEMBLE"]) :
    t.crcApp = s.crcApp := by
  cases h with
  | raised _ e => exact s.raise_crcApp e
  | rejected _ w => exact getLsbD_setBit_warningBit_crcApp s.status w (by decide)
  | recorded _ w r => exact getLsbD_setBit_warningBit_crcApp s.status w (by decide)
  | cleared => simp [mnemonicOf] at hi
  | pushed byte => simp [mnemonicOf] at hi
  | acknowledged => exact getLsbD_clearSticky_two s.status
  | assembled path bytes crc => simp [mnemonicOf] at hi
  | _ => rfl

/-- Only `CLR_STATUS` clears a flag other than `CRCAPP` (R25, R263). -/
theorem Effect.flag_stays (h : Effect s i t) (hi : i ≠ .clrStatus) {b : Nat} (hb : b ≠ statusCrcApp)
    (hset : s.status.getLsbD b = true) : t.status.getLsbD b = true := by
  cases h with
  | raised _ e => exact getLsbD_setBit_of_getLsbD (getLsbD_setBit_of_getLsbD hset _) _
  | rejected _ w => exact getLsbD_setBit_of_getLsbD (getLsbD_setBit_of_getLsbD hset _) _
  | recorded _ w r => exact getLsbD_setBit_of_getLsbD (getLsbD_setBit_of_getLsbD hset _) _
  | cleared => exact (getLsbD_clearBit_other _ hb.symm).trans hset
  | pushed byte => exact (getLsbD_clearBit_other _ hb.symm).trans hset
  | acknowledged => exact absurd rfl hi
  | assembled path bytes crc => exact getLsbD_setBit_of_getLsbD hset _
  | _ => exact hset

/-! ## Buffers -/

theorem Effect.info_eq (h : Effect s i t) (hi : mnemonicOf i ∉ ["PUSH_INFO", "ASSEMBLE"]) : t.info = s.info := by
  cases h with
  | pushed byte => simp [mnemonicOf] at hi
  | assembled path bytes crc => simp [mnemonicOf] at hi
  | _ => rfl

theorem Effect.phy_eq (h : Effect s i t) (hi : mnemonicOf i ∉ ["ASSEMBLE"]) : t.phy = s.phy := by
  cases h with
  | assembled path bytes crc => simp [mnemonicOf] at hi
  | _ => rfl

theorem Effect.samp_eq (h : Effect s i t) (hi : mnemonicOf i ∉ ["MOD"]) : t.samp = s.samp := by
  cases h with
  | modulated bytes xs => simp [mnemonicOf] at hi
  | _ => rfl

end Frames

/-! ## The statements -/

/-- Settles O50: the effects that touch `STATUS` set bits or clear `CRCAPP`, `CLR_STATUS` apart. -/
theorem flagsAreSticky : Obligations.FlagsAreSticky :=
  fun _ _ _ _ h hi hb hset => (exec_effect h).flag_stays hi hb hset

/-- Settles O51, register by register. -/
theorem registersHaveTheListedWriters : Obligations.RegistersHaveTheListedWriters := by
  intro i s t h
  have he := exec_effect h
  exact ⟨he.res_eq, he.crc_eq, he.crcInit_eq, he.wh_eq, he.chan_eq, he.numInfoByte_eq, he.numPhyByte_eq,
    he.numPhySample_eq, he.phase_eq, he.crcApp_eq, he.cfg_eq, he.port_eq⟩

/-- Settles O52: a command outside a buffer's list leaves the whole buffer, so every index reads as before. -/
theorem buffersHaveTheListedWriters : Obligations.BuffersHaveTheListedWriters := by
  intro i s t h
  have he := exec_effect h
  exact ⟨fun hi a => by rw [he.info_eq hi], fun hi a => by rw [he.phy_eq hi], fun hi a => by rw [he.samp_eq hi]⟩

end Sys2Proof.Machine
end

