-- ==== Sys2Proof/Proofs/Samples.lean ====
section
/-! What a legal setting gives the modulator (spec/45_gfsk.md R218, R221 to R225): the number of samples, the range of the
phases and of the samples, and that the default setting is legal. -/

namespace Sys2Proof.Machine

/-! ## Phases and samples -/

/-- `4N + 16` phases (R218, R221). -/
@[simp] theorem length_phaseSeq (cfg : Config) (bits : List Bool) :
    (phaseSeq cfg bits).length = 4 * bits.length + 16 := by
  rw [phaseSeq, length_phasesFrom, phaseIncrements, length_slidingDot]

theorem lt_of_mem_phaseSeq {cfg : Config} {bits : List Bool} {p : Nat} (h : p ∈ phaseSeq cfg bits) :
    p < 2 ^ cfg.phaseBits :=
  lt_of_mem_phasesFrom (Nat.two_pow_pos _) (Nat.two_pow_pos _) p h

/-- The phase `MOD` leaves is one of the sequence (R41). -/
theorem getLastD_phaseSeq_lt (cfg : Config) (bits : List Bool) : (phaseSeq cfg bits).getLastD 0 < 2 ^ cfg.phaseBits := by
  rcases List.mem_cons.mp (List.getLastD_mem_cons (l := phaseSeq cfg bits) (a := 0)) with h | h
  · rw [h]; exact Nat.two_pow_pos _
  · exact lt_of_mem_phaseSeq h

/-- One sample per phase (R225). -/
theorem length_samplesOf {cfg : Config} {ps : List Nat} {xs : List Sample} (h : samplesOf cfg ps = .ok xs) :
    xs.length = ps.length := (samplesOf_eq_ok.mp h).length_eq.symm

/-- `32 * NUM_PHY_BYTE + 16` samples (R221). -/
theorem length_samples {cfg : Config} {n : Nat} {bytes : List (BitVec 8)} {xs : List Sample} (hn : bytes.length = n)
    (h : samplesOf cfg (phaseSeq cfg (bytesToBits bytes)) = .ok xs) : xs.length = 32 * n + 16 := by
  rw [length_samplesOf h, length_phaseSeq, length_bytesToBits]; omega

/-- Scaling a value of at most 1 by `AMP`, rounding and narrowing stays in the range of a sample (R223). -/
theorem natAbs_narrow_rnd_le {cfg : Config} (hw : ConfigWf cfg) {v : ℝ} (hv : |v| ≤ 1) :
    (narrow cfg (rnd (cfg.amp * v))).natAbs ≤ cfg.amp := by
  have hr : (rnd (cfg.amp * v)).natAbs ≤ cfg.amp := natAbs_rnd_le (by
    rw [abs_mul, Nat.abs_cast]
    exact mul_le_of_le_one_right (Nat.cast_nonneg _) hv)
  rwa [narrow_eq hw.ampPos hw.ampLt hr]

/-- A sample of a legal setting lies in `-AMP` to `AMP` (R132 (f)). -/
theorem sampleAt_range {cfg : Config} (hw : ConfigWf cfg) {p : Nat} {x : Sample} (h : sampleAt cfg p = .ok x) :
    x.i.natAbs ≤ cfg.amp ∧ x.q.natAbs ≤ cfg.amp := by
  obtain ⟨c, d, hc, hd, rfl⟩ := sampleAt_eq_ok.mp h
  obtain ⟨hlen, hcos⟩ := hw.cosTab
  obtain ⟨-, hsin⟩ := hw.sinTab
  have hp : p < 2 ^ cfg.phaseBits := hlen ▸ (List.getElem?_eq_some_iff.mp hc).1
  obtain rfl := Option.some.inj (hc.symm.trans (hcos p hp))
  obtain rfl := Option.some.inj (hd.symm.trans (hsin p hp))
  exact ⟨natAbs_narrow_rnd_le hw (Real.abs_cos_le_one _), natAbs_narrow_rnd_le hw (Real.abs_sin_le_one _)⟩

theorem samplesOf_range {cfg : Config} (hw : ConfigWf cfg) {ps : List Nat} {xs : List Sample}
    (h : samplesOf cfg ps = .ok xs) : ∀ x ∈ xs, x.i.natAbs ≤ cfg.amp ∧ x.q.natAbs ≤ cfg.amp := by
  have hall := samplesOf_eq_ok.mp h
  clear h
  induction hall with
  | nil => exact fun x hx => absurd hx List.not_mem_nil
  | cons hx _ ih => exact List.forall_mem_cons.mpr ⟨sampleAt_range hw hx, ih⟩

/-! ## The default setting -/

theorem isCosTab_default : isCosTab 127 10 cosTabDefault := by
  refine ⟨by decide +kernel, fun p hp => ?_⟩
  obtain ⟨c, d, hc, -, hcos, -⟩ := defaultTables_close p hp
  rw [hc, show (2 : ℝ) ^ 10 = 1024 by norm_num, Nat.cast_ofNat, rnd_eq hcos]

theorem isSinTab_default : isSinTab 127 10 sinTabDefault := by
  refine ⟨by decide +kernel, fun p hp => ?_⟩
  obtain ⟨c, d, -, hd, -, hsin⟩ := defaultTables_close p hp
  rw [hd, show (2 : ℝ) ^ 10 = 1024 by norm_num, Nat.cast_ofNat, rnd_eq hsin]

/-- The defaults of the parameters are a legal setting. -/
theorem configWf_default : ConfigWf Config.default where
  phaseBitsLe := by decide
  ampPos := by decide
  ampLt := by decide
  sampleBitsLe := by decide
  cosTab := isCosTab_default
  sinTab := isSinTab_default
  llOpcodeLe := by decide
  llOpcodeNodup := by decide

end Sys2Proof.Machine
end

