-- ==== Sys2Proof/Proofs/Whitening.lean ====
section
/-! `WH` is never 0 (spec/10_state.md R32), and whitening a packet's region keeps its length (spec/44_assembler.md R200). -/

namespace Sys2Proof.Machine

/-- A seed's bit 0 is 1 (R160). -/
theorem whSeed_ne_zero (ch : BitVec 6) : whSeed ch ≠ 0 := fun h => by
  have hbit : (whSeed ch).getLsbD 0 = true := by rw [whSeed, BitVec.getLsbD_ofBoolListLE]; rfl
  rw [h] at hbit
  cases hbit

/-- The step of the LFSR loses no bit, so only 0 goes to 0 (R161). -/
theorem whStep_ne_zero {w : BitVec 7} : w ≠ 0 → whStep w ≠ 0 := by
  revert w
  decide

theorem iterate_whStep_ne_zero {w : BitVec 7} (h : w ≠ 0) (n : Nat) : whStep^[n] w ≠ 0 := by
  induction n with
  | zero => exact h
  | succ n ih => rw [Function.iterate_succ_apply']; exact whStep_ne_zero ih

theorem whitenBytes_ne_zero {w : BitVec 7} (h : w ≠ 0) (xs : List (BitVec 8)) : (whitenBytes w xs).2 ≠ 0 := by
  induction xs generalizing w with
  | nil => exact h
  | cons x xs ih => exact ih (by rw [whitenByte_state]; exact iterate_whStep_ne_zero h 8)

theorem whitenRegion_wh_ne_zero (path : Path) {s : State} (h : s.wh ≠ 0) (xs : List (BitVec 8)) :
    (whitenRegion path s xs).2 ≠ 0 := by
  cases path with
  | bitSerial => exact whitenBytes_ne_zero (whSeed_ne_zero s.chan) xs
  | table => exact h

/-- Either path whitens every byte of a region the channel-37 table reaches (R167). -/
theorem length_whitenRegion (path : Path) (s : State) {xs : List (BitVec 8)} (h : xs.length ≤ 42) :
    (whitenRegion path s xs).1.length = xs.length := by
  cases path with
  | bitSerial => exact length_whitenBytes _ xs
  | table => exact (length_whitenBytesTable xs).trans (Nat.min_eq_left h)

/-- The on-air packet is the packet and its CRC (R203). -/
theorem length_onAir (path : Path) (s : State) {bytes : List (BitVec 8)} (h5 : 5 ≤ bytes.length)
    (h43 : bytes.length ≤ 43) (crc : BitVec 24) :
    (bytes.take 5 ++ (whitenRegion path s (bytes.drop 5 ++ crcToBytes crc)).1).length = bytes.length + 3 := by
  have hlen : (bytes.drop 5 ++ crcToBytes crc).length = bytes.length - 5 + 3 := by simp
  rw [List.length_append, length_whitenRegion path s (by omega), hlen, List.length_take]
  omega

end Sys2Proof.Machine
end

