-- ==== Sys2Proof/Proofs/Filled.lean ====
section
/-! The filled range of a buffer (spec/10_state.md R36, R38, R40, R44): what a write adds to it, and the valid range of
`INFO` by `CRCAPP` (R125). -/

namespace Sys2Proof.Machine

theorem filledTo_zero {α : Type} (m : Memory α) : filledTo m 0 := fun _ h => absurd h (Nat.not_lt_zero _)

theorem filledTo_mono {α : Type} {m : Memory α} {a b : Nat} (h : filledTo m b) (hab : a ≤ b) : filledTo m a :=
  fun idx hi => h idx (Nat.lt_of_lt_of_le hi hab)

/-- A write at the end of a filled range, or inside it, fills the range up to its own end. -/
theorem filledTo_write {α : Type} {m : Memory α} {base n : Nat} {vs : List α} (h : filledTo m base)
    (hn : n = base + vs.length) : filledTo (m.write base vs) n := by
  subst hn
  intro idx hi
  by_cases hb : idx < base
  · rw [Memory.read_write_other _ _ _ _ (.inl hb)]
    exact h idx hb
  · rw [Memory.read_write, if_pos ⟨by omega, hi⟩]
    exact ⟨_, List.getElem?_eq_getElem (by omega)⟩

/-- A filled range within the capacity can be loaded, from any index of it. -/
theorem filledTo.loadRange {α : Type} {b : BufferId} {m : Memory α} {base n k : Nat} (h : filledTo m n)
    (hk : base + k ≤ n) (hn : n ≤ capacity b) : ∃ vs, loadRange b m base k = .ok vs :=
  loadRange_ok_of_filled (by omega) fun j hj => h (base + j) (by omega)

theorem filledTo.load {α : Type} {b : BufferId} {m : Memory α} {n idx : Nat} (h : filledTo m n) (hi : idx < n)
    (hn : n ≤ capacity b) : ∃ v, load b m idx = .ok v := by
  obtain ⟨v, hv⟩ := h idx hi
  exact ⟨v, load_eq_ok.mpr ⟨by omega, hv⟩⟩

theorem infoLimit_of_crcApp {s : State} (h : s.crcApp = true) : infoLimit s = s.numInfoByte.toNat + 3 := by
  rw [infoLimit, h]; rfl

theorem infoLimit_of_not_crcApp {s : State} (h : s.crcApp = false) : infoLimit s = s.numInfoByte.toNat := by
  rw [infoLimit, h]; rfl

theorem le_infoLimit (s : State) : s.numInfoByte.toNat ≤ infoLimit s := Nat.le_add_right _ _

theorem infoLimit_le (s : State) : infoLimit s ≤ s.numInfoByte.toNat + 3 := by
  rw [infoLimit]; split <;> omega

end Sys2Proof.Machine
end

