-- ==== Sys2Proof/Proofs/Invariant.lean ====
section
/-! The invariant of the block's states (`State.Inv`): it holds after reset, and every step keeps it. First the part that
speaks of `STATUS` and `LASTERR` alone, rule by rule; then one lemma per update of the state. -/

namespace Sys2Proof.Machine

/-! ## `STATUS` and `LASTERR` -/

/-- The part of the invariant that speaks of the flags and `LASTERR` alone (R23 to R25, R258), its fields named as in
`State.Inv`. -/
structure FlagsOk (strict : Bool) (status : BitVec 32) (lasterr : BitVec 8) : Prop where
  statusReserved : status &&& ~~~statusNamedBits = 0
  errFlag : status.getLsbD statusErr = (someErrorFlag status || (strict && someWarningFlag status))
  warnFlag : status.getLsbD statusWarn = (!strict && someWarningFlag status)
  lasterrZero : lasterr = 0 ↔ status.getLsbD statusErr = false

theorem State.Inv.flagsOk {s : State} (h : s.Inv) : FlagsOk s.cfg.strictReserved s.status s.lasterr := { h with }

section FlagsOk

variable {strict : Bool} {status : BitVec 32} {lasterr : BitVec 8}

/-- Setting a bit of `STATUS` that R25 names keeps the unnamed ones 0 (R24). -/
theorem statusReserved_setBit (h : status &&& ~~~statusNamedBits = 0) {i : Nat}
    (hi : (~~~statusNamedBits).getLsbD i = false) (h32 : i < 32) : setBit status i &&& ~~~statusNamedBits = 0 :=
  (setBit_and_eq_zero_iff status _ h32).mpr ⟨h, hi⟩

/-- An error's flags (R255). -/
theorem FlagsOk.raise (h : FlagsOk strict status lasterr) (e : Err) :
    FlagsOk strict (setBit (setBit status statusErr) (errBit e)) (errCode e) := by
  have herr : (setBit (setBit status statusErr) (errBit e)).getLsbD statusErr = true :=
    getLsbD_setBit_of_getLsbD (getLsbD_setBit_self _ (by decide)) _
  exact {
    statusReserved := statusReserved_setBit (statusReserved_setBit h.statusReserved (by decide) (by decide))
      (by cases e <;> decide) (errBit_lt e)
    errFlag := by rw [herr, someErrorFlag_setBit_errBit, Bool.true_or]
    warnFlag := by
      rw [getLsbD_setBit_errBit _ e (by decide), getLsbD_setBit_other _ (by decide), someWarningFlag_setBit_errBit,
        someWarningFlag_setBit_err]
      exact h.warnFlag
    lasterrZero := iff_of_false (errCode_ne_zero e) (by rw [herr]; decide) }

/-- The flags of a warning that `STRICT_RESERVED` rejects (R258). -/
theorem FlagsOk.reject (h : FlagsOk true status lasterr) (w : Warning) :
    FlagsOk true (setBit (setBit status statusErr) (warningBit w)) (warningCode w) := by
  have herr : (setBit (setBit status statusErr) (warningBit w)).getLsbD statusErr = true :=
    getLsbD_setBit_of_getLsbD (getLsbD_setBit_self _ (by decide)) _
  exact {
    statusReserved := statusReserved_setBit (statusReserved_setBit h.statusReserved (by decide) (by decide))
      (by cases w <;> decide) (warningBit_lt w)
    errFlag := by rw [herr, someWarningFlag_setBit_warningBit, Bool.and_true, Bool.or_true]
    warnFlag := by
      rw [getLsbD_setBit_warningBit _ w (by decide), getLsbD_setBit_other _ (by decide)]
      exact h.warnFlag
    lasterrZero := iff_of_false (warningCode_ne_zero w) (by rw [herr]; decide) }

/-- The flags of a warning recorded (R256): `ERR` and `LASTERR` stay. -/
theorem FlagsOk.record (h : FlagsOk false status lasterr) (w : Warning) :
    FlagsOk false (setBit (setBit status statusWarn) (warningBit w)) lasterr := by
  have herr : (setBit (setBit status statusWarn) (warningBit w)).getLsbD statusErr = status.getLsbD statusErr := by
    rw [getLsbD_setBit_warningBit _ w (by decide), getLsbD_setBit_other _ (by decide)]
  exact {
    statusReserved := statusReserved_setBit (statusReserved_setBit h.statusReserved (by decide) (by decide))
      (by cases w <;> decide) (warningBit_lt w)
    errFlag := by
      rw [herr, someErrorFlag_setBit_warningBit, someErrorFlag_setBit_warn]
      exact h.errFlag
    warnFlag := by
      rw [someWarningFlag_setBit_warningBit, getLsbD_setBit_of_getLsbD (getLsbD_setBit_self _ (by decide))]
      rfl
    lasterrZero := by rw [herr]; exact h.lasterrZero }

/-- A change that every flag and mask but `CRCAPP` ignores keeps the flags' consistency. -/
theorem FlagsOk.congr {status' : BitVec 32} (h : FlagsOk strict status lasterr)
    (hmask : ∀ m : BitVec 32, m.getLsbD statusCrcApp = false → status' &&& m = status &&& m)
    (hbit : ∀ k, k ≠ statusCrcApp → status'.getLsbD k = status.getLsbD k) : FlagsOk strict status' lasterr where
  statusReserved := by rw [hmask _ (by decide)]; exact h.statusReserved
  errFlag := by
    rw [hbit _ (by decide), someErrorFlag, someWarningFlag, hmask _ (by decide), hmask _ (by decide)]
    exact h.errFlag
  warnFlag := by
    rw [hbit _ (by decide), someWarningFlag, hmask _ (by decide)]
    exact h.warnFlag
  lasterrZero := by rw [hbit _ (by decide)]; exact h.lasterrZero

/-- `CRCAPP` cleared (R121, R123). -/
theorem FlagsOk.clearCrcApp (h : FlagsOk strict status lasterr) :
    FlagsOk strict (clearBit status statusCrcApp) lasterr :=
  h.congr (fun _ hm => clearBit_and_of_not_mem hm status) (fun _ hk => getLsbD_clearBit_other status hk.symm)

/-- `CRCAPP` set (R200). -/
theorem FlagsOk.setCrcApp (h : FlagsOk strict status lasterr) :
    FlagsOk strict (setBit status statusCrcApp) lasterr :=
  h.congr (fun _ hm => setBit_and_of_not_mem hm status) (fun _ hk => getLsbD_setBit_other status hk.symm)

/-- The flags after `CLR_STATUS` (R130). -/
theorem FlagsOk.acknowledge : FlagsOk strict (clearSticky status) 0 := by
  have herr : (clearSticky status).getLsbD statusErr = false := by simp [clearSticky, statusErr]
  have herror : someErrorFlag (clearSticky status) = false := by
    rw [someErrorFlag, clearSticky_and_eq_zero (by decide)]; rfl
  have hwarning : someWarningFlag (clearSticky status) = false := by
    rw [someWarningFlag, clearSticky_and_eq_zero (by decide)]; rfl
  exact {
    statusReserved := clearSticky_and_eq_zero (by decide) status
    errFlag := by rw [herr, herror, hwarning, Bool.and_false, Bool.or_false]
    warnFlag := by
      rw [hwarning, Bool.and_false]
      simp [clearSticky, statusWarn]
    lasterrZero := iff_of_true rfl herr }

/-- The flags after reset (R45). -/
theorem FlagsOk.zero (strict : Bool) : FlagsOk strict 0 0 := FlagsOk.acknowledge (status := 0)

end FlagsOk

/-! ## Updates of the state -/

section Updates

variable {s : State}

/-- An update of the flags, `LASTERR`, `RES` and the response that is consistent and keeps `CRCAPP`. -/
theorem State.Inv.withFlags (h : s.Inv) {status : BitVec 32} {lasterr : BitVec 8} (res : BitVec 32) {r : Response}
    (hf : FlagsOk s.cfg.strictReserved status lasterr)
    (happ : status.getLsbD statusCrcApp = s.status.getLsbD statusCrcApp) (hr : r.code ∈ responseCodes) :
    ({ s with status := status, lasterr := lasterr, res := res, rsp := some r } : State).Inv :=
  have hcrc : ({ s with status := status, lasterr := lasterr, res := res, rsp := some r } : State).crcApp = s.crcApp :=
    happ
  { hf, h with
    infoFilled := by rw [infoLimit, hcrc]; exact h.infoFilled
    crcAppLength := fun happ' => h.crcAppLength (hcrc ▸ happ')
    rspCode := fun _ h' => Option.some.inj h' ▸ hr }

theorem State.Inv.result (h : s.Inv) (r : BitVec 32) : (s.result r).Inv :=
  h.withFlags r h.flagsOk rfl (show 0#8 ∈ responseCodes by decide)

theorem State.Inv.respond (h : s.Inv) (d : BitVec 32) : (s.respond d).Inv :=
  h.withFlags s.res h.flagsOk rfl (show 0#8 ∈ responseCodes by decide)

theorem State.Inv.raise (h : s.Inv) (e : Err) : (s.raise e).Inv :=
  h.withFlags s.res (h.flagsOk.raise e) (s.raise_crcApp e) (errCode_mem_responseCodes e)

theorem State.Inv.reject (h : s.Inv) (w : Warning) (hs : s.cfg.strictReserved = true) :
    (s.abandon (warningCode w) (warningBit w)).Inv :=
  h.withFlags s.res (hs ▸ (hs ▸ h.flagsOk).reject w) (getLsbD_setBit_warningBit_crcApp s.status w (by decide))
    (warningCode_mem_responseCodes w)

theorem State.Inv.recordWarning (h : s.Inv) (w : Warning) (r : BitVec 32) (hs : s.cfg.strictReserved = false) :
    (s.recordWarning w r).Inv :=
  h.withFlags r (hs ▸ (hs ▸ h.flagsOk).record w) (getLsbD_setBit_warningBit_crcApp s.status w (by decide))
    (warningCode_mem_responseCodes w)

/-- `CLR_STATUS` (R130). -/
theorem State.Inv.acknowledge (h : s.Inv) : (s.acknowledge.respond 0).Inv :=
  h.withFlags s.res .acknowledge (getLsbD_clearSticky_two s.status) (show 0#8 ∈ responseCodes by decide)

/-- What the host presents is no part of the invariant. -/
theorem State.Inv.withPort (h : s.Inv) (port : List PortEvent) : ({ s with port := port } : State).Inv := { h with }

theorem State.Inv.withChan (h : s.Inv) {ch : BitVec 6} (legal : ch.toNat ≤ 39) :
    ({ s with chan := ch } : State).Inv := { h with chanBound := legal }

/-- The CRC registers hold any value. -/
theorem State.Inv.withCrc (h : s.Inv) (init c : BitVec 24) : ({ s with crcInit := init, crc := c } : State).Inv :=
  { h with }

theorem State.Inv.withWh (h : s.Inv) {w : BitVec 7} (hw : w ≠ 0) : ({ s with wh := w } : State).Inv :=
  { h with whNonzero := hw }

/-- `PKT_CLR` empties the three valid ranges (R121). -/
theorem State.Inv.freshPacket (h : s.Inv) : s.freshPacket.Inv :=
  have hcrc : s.freshPacket.crcApp = false := getLsbD_clearBit_self _ _
  { h.flagsOk.clearCrcApp, h with
    infoBound := Nat.zero_le _
    phyBound := Nat.zero_le _
    sampBound := Nat.zero_le _
    infoFilled := by rw [infoLimit_of_not_crcApp hcrc]; exact filledTo_zero _
    phyFilled := filledTo_zero _
    sampFilled := filledTo_zero _
    crcAppLength := fun happ => absurd (hcrc.symm.trans happ) Bool.false_ne_true }

/-- `PUSH_INFO` extends the valid range of `INFO` by the byte it writes (R123). -/
theorem State.Inv.pushed (h : s.Inv) (byte : Byte) (room : s.numInfoByte.toNat < 43) : (s.pushed byte).Inv :=
  have hcrc : (s.pushed byte).crcApp = false := getLsbD_clearBit_self _ _
  have hcount : (s.pushed byte).numInfoByte.toNat = s.numInfoByte.toNat + 1 := by
    show (s.numInfoByte + 1).toNat = _
    rw [BitVec.toNat_add]
    exact Nat.mod_eq_of_lt (show s.numInfoByte.toNat + 1 < 64 by omega)
  { h.flagsOk.clearCrcApp, h with
    infoWf := Memory.wf_write h.infoWf _ _
    infoWithin := Memory.within_write h.infoWithin (show s.numInfoByte.toNat + 1 ≤ 46 by omega)
    infoBound := by omega
    infoFilled := by
      rw [infoLimit_of_not_crcApp hcrc, hcount]
      exact filledTo_write (filledTo_mono h.infoFilled (le_infoLimit s)) rfl
    crcAppLength := fun happ => absurd (hcrc.symm.trans happ) Bool.false_ne_true }

/-- `ASSEMBLE` puts the CRC behind the packet and the whole of both into `PHY` (R200, R203). -/
theorem State.Inv.assembled (h : s.Inv) (path : Path) {bytes : List (BitVec 8)} (crc : BitVec 24)
    (long : 5 ≤ s.numInfoByte.toNat) (hlen : bytes.length = s.numInfoByte.toNat) : (s.assembled path bytes crc).Inv :=
  have hbound := h.infoBound
  have hcrc : (s.assembled path bytes crc).crcApp = true := getLsbD_setBit_self _ (by decide)
  have hcount : (s.numInfoByte + 3).toNat = s.numInfoByte.toNat + 3 := by
    rw [BitVec.toNat_add]
    exact Nat.mod_eq_of_lt (show s.numInfoByte.toNat + 3 < 64 by omega)
  have hphy := length_onAir path s (hlen ▸ long) (hlen ▸ hbound) crc
  { h.flagsOk.setCrcApp, h with
    infoWf := Memory.wf_write h.infoWf _ _
    phyWf := Memory.wf_write h.phyWf _ _
    infoWithin := Memory.within_write h.infoWithin (show s.numInfoByte.toNat + 3 ≤ 46 by omega)
    phyWithin := Memory.within_write h.phyWithin (by rw [hphy, hlen]; show _ ≤ 47; omega)
    phyBound := by show (s.numInfoByte + 3).toNat ≤ 46; omega
    infoFilled := by
      rw [infoLimit_of_crcApp hcrc]
      exact filledTo_write (filledTo_mono h.infoFilled (le_infoLimit s)) rfl
    phyFilled := filledTo_write (filledTo_zero _) (by rw [hphy, hlen, Nat.zero_add]; exact hcount)
    whNonzero := whitenRegion_wh_ne_zero path h.whNonzero _
    crcAppLength := fun _ => long }

/-- `MOD` fills `SAMP` with one sample per phase (R220, R221). -/
theorem State.Inv.modulated (h : s.Inv) {bytes : List (BitVec 8)} {xs : List Sample}
    (hlen : bytes.length = s.numPhyByte.toNat)
    (samples : samplesOf s.cfg (phaseSeq s.cfg (bytesToBits bytes)) = .ok xs) : (s.modulated bytes xs).Inv :=
  have hbound := h.phyBound
  have hxs : xs.length = 32 * s.numPhyByte.toNat + 16 := length_samples hlen samples
  have hcount : (s.modulated bytes xs).numPhySample.toNat = 32 * s.numPhyByte.toNat + 16 := by
    show (BitVec.ofNat 11 _).toNat = _
    rw [BitVec.toNat_ofNat]
    exact Nat.mod_eq_of_lt (show _ < 2048 by omega)
  { h with
    sampWf := Memory.wf_write h.sampWf _ _
    sampWithin := Memory.within_write h.sampWithin (by rw [hxs]; show _ ≤ 1520; omega)
    sampBound := by omega
    sampFilled := filledTo_write (filledTo_zero _) (by rw [hcount, hxs, Nat.zero_add])
    sampRange := fun c hc => by
      rcases Memory.mem_write hc with ⟨hx, -, -⟩ | hm
      · exact samplesOf_range h.cfgWf samples c.2 hx
      · exact h.sampRange c hm
    phaseBound := by
      show (BitVec.ofNat 32 _).toNat < _
      rw [BitVec.toNat_ofNat]
      exact Nat.lt_of_le_of_lt (Nat.mod_le _ _) (getLastD_phaseSeq_lt s.cfg _) }

end Updates

/-! ## Commands, steps, reset -/

/-- Every command keeps the invariant. -/
theorem Effect.inv {i : Instr} {s t : State} (he : Effect s i t) (h : s.Inv) : t.Inv := by
  cases he with
  | raised _ e => exact h.raise e
  | rejected _ w strict => exact h.reject w strict
  | recorded _ w r lenient => exact h.recordWarning w r lenient
  | answered _ d => exact h.respond d
  | computed _ r => exact h.result r
  | cleared => exact h.freshPacket.respond 0
  | tuned ch legal => exact (h.withChan legal).respond 0
  | pushed byte room => exact (h.pushed byte room).respond 0
  | acknowledged => exact h.acknowledge
  | crcLoaded _ c => exact (h.withCrc c c).respond 0
  | crcAdvanced _ c => exact (h.withCrc s.crcInit c).respond _
  | seeded => exact (h.withWh (whSeed_ne_zero s.chan)).respond _
  | whitened _ n r => exact (h.withWh (iterate_whStep_ne_zero h.whNonzero n)).result r
  | assembled path bytes crc long read => exact (h.assembled path crc long (loadRange_eq_ok.mp read).1).respond _
  | modulated bytes xs read samples => exact (h.modulated (loadRange_eq_ok.mp read).1 samples).respond _

/-- The state of R45 keeps the invariant under every legal setting, whatever the host presents next. -/
theorem State.reset_inv {cfg : Config} (hw : ConfigWf cfg) (port : List PortEvent) :
    ({ State.reset with cfg := cfg, port := port } : State).Inv :=
  have hcrc : ({ State.reset with cfg := cfg, port := port } : State).crcApp = false :=
    show (0#32).getLsbD statusCrcApp = false by decide
  { FlagsOk.zero cfg.strictReserved with
    cfgWf := hw
    infoWf := rfl
    phyWf := rfl
    sampWf := rfl
    infoWithin := rfl
    phyWithin := rfl
    sampWithin := rfl
    infoBound := Nat.zero_le _
    phyBound := Nat.zero_le _
    sampBound := Nat.zero_le _
    infoFilled := by rw [infoLimit_of_not_crcApp hcrc]; exact filledTo_zero _
    phyFilled := filledTo_zero _
    sampFilled := filledTo_zero _
    sampRange := fun _ hc => absurd hc List.not_mem_nil
    chanBound := show (37#6).toNat ≤ 39 by decide
    whNonzero := show 0x53#7 ≠ 0 by decide
    phaseBound := Nat.two_pow_pos _
    crcAppLength := fun happ => absurd (hcrc.symm.trans happ) Bool.false_ne_true
    rspCode := nofun }

/-- Settles O58: the state of R45 under the default setting, which is legal. -/
theorem resetKeepsTheInvariant : Obligations.ResetKeepsTheInvariant :=
  State.reset_inv configWf_default []

/-- Settles O59, over everything a step can do: wait, reset, run a command, refuse a word. -/
theorem stepKeepsTheInvariant : Obligations.StepKeepsTheInvariant := by
  intro s t hs h
  rcases step_cases s with ⟨-, hw⟩ | ⟨rest, -, hr⟩ | ⟨w, rest, i, -, -, hx⟩ | ⟨w, rest, e, -, -, hx⟩
  · cases hw.symm.trans h; exact hs
  · cases hr.symm.trans h; exact State.reset_inv hs.cfgWf rest
  · exact (exec_effect (hx.symm.trans h)).inv (hs.withPort rest)
  · cases hx.symm.trans h; exact (hs.withPort rest).raise .illegalCommand

end Sys2Proof.Machine
end

