-- ==== Sys2Proof/Proofs/Progress.lean ====
section
/-! No command stops in a state that keeps the invariant (spec/10_state.md R44, spec/60_exceptions.md R266): every element
it reads lies in a filled range, and everything it writes fits the capacity of its buffer. -/

namespace Sys2Proof.Machine

section Progress

variable {s : State}

/-- A load in the filled range lets the command go on. -/
theorem orStop_load {α : Type} {b : BufferId} {m : Memory α} {n idx : Nat} (h : filledTo m n) (hi : idx < n)
    (hn : n ≤ capacity b) (k : α → State) : ∃ t, orStop (load b m idx) (fun v => .next (k v)) = .next t := by
  obtain ⟨v, hv⟩ := h.load hi hn
  exact ⟨k v, by rw [hv, orStop_ok]⟩

theorem State.Inv.infoLimit_le_capacity (h : s.Inv) : infoLimit s ≤ capacity .info := by
  have hn := h.infoBound
  have hl := infoLimit_le s
  show infoLimit s ≤ 46
  omega

theorem State.Inv.phy_le_capacity (h : s.Inv) : s.numPhyByte.toNat ≤ capacity .phy :=
  h.phyBound.trans (by decide)

theorem State.Inv.samp_le_capacity (h : s.Inv) : s.numPhySample.toNat ≤ capacity .samp :=
  h.sampBound.trans (by decide)

theorem execPushInfo_next (byte : Byte) : ∃ t, execPushInfo byte s = .next t := by
  unfold execPushInfo
  split
  · exact ⟨_, rfl⟩
  · next hn =>
    have hs : store .info s.info s.numInfoByte.toNat [byte] = .ok (s.info.write s.numInfoByte.toNat [byte]) :=
      store_eq_ok.mpr ⟨by simp only [maxInfoByte] at hn; show s.numInfoByte.toNat + 1 ≤ 46; omega, rfl⟩
    rw [hs]
    exact ⟨_, rfl⟩

theorem State.Inv.execRdInfo_next (h : s.Inv) (idx : BitVec 6) : ∃ t, execRdInfo idx s = .next t := by
  unfold execRdInfo
  split
  · exact ⟨_, rfl⟩
  · exact orStop_load h.infoFilled (by omega) h.infoLimit_le_capacity _

theorem State.Inv.execRdPhy_next (h : s.Inv) (idx : BitVec 6) : ∃ t, execRdPhy idx s = .next t := by
  unfold execRdPhy
  split
  · exact ⟨_, rfl⟩
  · exact orStop_load h.phyFilled (by omega) h.phy_le_capacity _

theorem State.Inv.execRdSample_next (h : s.Inv) (idx : BitVec 11) : ∃ t, execRdSample idx s = .next t := by
  unfold execRdSample
  split
  · exact ⟨_, rfl⟩
  · exact orStop_load h.sampFilled (by omega) h.samp_le_capacity _

/-- With fewer than five bytes there is no body to read (R151). -/
theorem State.Inv.execCrcRun_next (h : s.Inv) (path : Path) : ∃ t, execCrcRun path s = .next t := by
  obtain ⟨body, hb⟩ : ∃ body, loadRange .info s.info leadBytes (s.numInfoByte.toNat - leadBytes) = .ok body := by
    by_cases h5 : leadBytes ≤ s.numInfoByte.toNat
    · exact (filledTo_mono h.infoFilled (le_infoLimit s)).loadRange (by omega)
        ((le_infoLimit s).trans h.infoLimit_le_capacity)
    · rw [Nat.sub_eq_zero_of_le (by omega)]
      exact ⟨[], rfl⟩
  exact ⟨_, by rw [execCrcRun, hb, orStop_ok]⟩

theorem State.Inv.execAssemble_next (h : s.Inv) (path : Path) : ∃ t, execAssemble path s = .next t := by
  unfold execAssemble
  split
  · exact ⟨_, rfl⟩
  · next h5 =>
    split
    · exact ⟨_, rfl⟩
    · have hbound := h.infoBound
      obtain ⟨bytes, hb⟩ : ∃ bytes, loadRange .info s.info 0 s.numInfoByte.toNat = .ok bytes :=
        h.infoFilled.loadRange (by have := le_infoLimit s; omega) h.infoLimit_le_capacity
      have hlen : bytes.length = s.numInfoByte.toNat := (loadRange_eq_ok.mp hb).1
      have hinfo (crc : BitVec 24) : store .info s.info s.numInfoByte.toNat (crcToBytes crc) =
          .ok (s.info.write s.numInfoByte.toNat (crcToBytes crc)) :=
        store_eq_ok.mpr ⟨show s.numInfoByte.toNat + 3 ≤ 46 by omega, rfl⟩
      have hphy (crc : BitVec 24) :
          store .phy s.phy 0 (bytes.take 5 ++ (whitenRegion path s (bytes.drop 5 ++ crcToBytes crc)).1) =
            .ok (s.phy.write 0 (bytes.take 5 ++ (whitenRegion path s (bytes.drop 5 ++ crcToBytes crc)).1)) :=
        store_eq_ok.mpr ⟨by
          rw [length_onAir path s (by simp only [leadBytes] at h5; omega) (by omega), hlen]
          show 0 + (s.numInfoByte.toNat + 3) ≤ 47
          omega, rfl⟩
      simp only [hb, orStop_ok, hinfo, leadBytes, hphy]
      exact ⟨_, rfl⟩

theorem State.Inv.execMod_next (h : s.Inv) : ∃ t, execMod s = .next t := by
  unfold execMod
  split
  · exact ⟨_, rfl⟩
  · have hbound := h.phyBound
    obtain ⟨bytes, hb⟩ : ∃ bytes, loadRange .phy s.phy 0 s.numPhyByte.toNat = .ok bytes :=
      h.phyFilled.loadRange (by omega) h.phy_le_capacity
    obtain ⟨xs, hx⟩ : ∃ xs, samplesOf s.cfg (phaseSeq s.cfg (bytesToBits bytes)) = .ok xs :=
      samplesOf_ok (fun p hp => h.cfgWf.cosTab.1 ▸ lt_of_mem_phaseSeq hp)
        (fun p hp => h.cfgWf.sinTab.1 ▸ lt_of_mem_phaseSeq hp)
    have hsamp : store .samp s.samp 0 xs = .ok (s.samp.write 0 xs) :=
      store_eq_ok.mpr ⟨by
        rw [length_samples (loadRange_eq_ok.mp hb).1 hx]
        show 0 + (32 * s.numPhyByte.toNat + 16) ≤ 1520
        omega, rfl⟩
    simp only [hb, orStop_ok, hx, hsamp]
    exact ⟨_, rfl⟩

theorem execSetChan_next (ch : BitVec 6) : ∃ t, execSetChan ch s = .next t := by
  unfold execSetChan; split <;> exact ⟨_, rfl⟩

theorem execRdReg_next (n : BitVec 4) : ∃ t, execRdReg n s = .next t := by
  unfold execRdReg; split <;> exact ⟨_, rfl⟩

theorem execWhTbl37_next (idx : BitVec 6) (byte : Byte) : ∃ t, execWhTbl37 idx byte s = .next t := by
  unfold execWhTbl37; split <;> exact ⟨_, rfl⟩

theorem execHdrAdv_next (ty : BitVec 5) (tx rx : Bool) (len : BitVec 8) : ∃ t, execHdrAdv ty tx rx len s = .next t := by
  unfold execHdrAdv
  split
  · exact ⟨_, rfl⟩
  · split <;> exact ⟨_, rfl⟩

theorem execHdrData_next (llid : BitVec 2) (nesn sn md : Bool) (len : BitVec 8) :
    ∃ t, execHdrData llid nesn sn md len s = .next t := by
  unfold execHdrData; split <;> exact ⟨_, rfl⟩

theorem execLlOpcode_next (ty : BitVec 5) : ∃ t, execLlOpcode ty s = .next t := by
  unfold execLlOpcode; split <;> exact ⟨_, rfl⟩

theorem execChFreq_next (ch : BitVec 8) : ∃ t, execChFreq ch s = .next t := by
  unfold execChFreq; split <;> exact ⟨_, rfl⟩

/-- Every command answers in a state that keeps the invariant (R266). -/
theorem State.Inv.exec_next (h : s.Inv) (i : Instr) : ∃ t, exec i s = .next t := by
  cases i with
  | setChan ch => exact execSetChan_next ch
  | pushInfo byte => exact execPushInfo_next byte
  | rdInfo idx => exact h.execRdInfo_next idx
  | rdPhy idx => exact h.execRdPhy_next idx
  | rdSample idx => exact h.execRdSample_next idx
  | rdReg n => exact execRdReg_next n
  | crcRun path => exact h.execCrcRun_next path
  | whTbl37 idx byte => exact execWhTbl37_next idx byte
  | hdrAdv ty tx rx len => exact execHdrAdv_next ty tx rx len
  | hdrData llid nesn sn md len => exact execHdrData_next llid nesn sn md len
  | llOpcode ty => exact execLlOpcode_next ty
  | assemble path => exact h.execAssemble_next path
  | mod => exact h.execMod_next
  | chFreq ch => exact execChFreq_next ch
  | _ => exact ⟨_, rfl⟩

end Progress

/-- Settles O60: a step waits, resets, raises or runs a command, and no command stops. -/
theorem noStepStops : Obligations.NoStepStops := by
  intro s hs
  rcases step_cases s with ⟨-, h⟩ | ⟨rest, -, h⟩ | ⟨w, rest, i, -, -, h⟩ | ⟨w, rest, e, -, -, h⟩
  · exact ⟨_, h⟩
  · exact ⟨_, h⟩
  · rw [h]; exact (hs.withPort rest).exec_next i
  · exact ⟨_, h⟩

end Sys2Proof.Machine
end

