-- ==== Sys2Proof/Proofs/StepAndReset.lean ====
section
/-! The step's decoded command (spec/30_encoding.md R102) and the state after reset (spec/10_state.md R45). -/

namespace Sys2Proof.Machine

/-- Settles O46: the oldest event is the command word, and decoding it gives `i`. -/
theorem stepRunsTheDecodedCommand : Obligations.StepRunsTheDecodedCommand := by
  intro s w rest i hport hdecode
  have htake : s.takeEvent = some (.command w, { s with port := rest }) := by rw [State.takeEvent, hport]
  simp [step, htake, hdecode]

/-- An index at or beyond the limit is out of range (R125). -/
theorem execRdInfo_beyond {s : State} {idx : BitVec 6} (h : infoLimit s ≤ idx.toNat) :
    execRdInfo idx s = .next (s.raise .indexOutOfRange) := if_pos h

/-- An index at or beyond the count is out of range (R126). -/
theorem execRdPhy_beyond {s : State} {idx : BitVec 6} (h : s.numPhyByte.toNat ≤ idx.toNat) :
    execRdPhy idx s = .next (s.raise .indexOutOfRange) := if_pos h

/-- An index at or beyond the count is out of range (R127). -/
theorem execRdSample_beyond {s : State} {idx : BitVec 11} (h : s.numPhySample.toNat ≤ idx.toNat) :
    execRdSample idx s = .next (s.raise .indexOutOfRange) := if_pos h

/-- Settles O48: the registers are read off the state, and with every count 0 no index is in range. -/
theorem resetLeavesTheRegisters : Obligations.ResetLeavesTheRegisters := by
  refine ⟨rfl, rfl, rfl, rfl, rfl, rfl, rfl, by decide, rfl, rfl, rfl, rfl, fun idx => ?_, fun idx => ?_, fun idx => ?_⟩
  · exact execRdInfo_beyond (Nat.zero_le _)
  · exact execRdPhy_beyond (Nat.zero_le _)
  · exact execRdSample_beyond (Nat.zero_le _)

end Sys2Proof.Machine
end

