-- ==== Sys2Proof/Proofs/CrcOnAir.lean ====
section
/-! The CRC on air (spec/10_state.md R28, R29): the bits of a number cut into runs, and the bits of one byte of a word. -/

namespace Sys2Proof.Machine

/-- The bits of a number are its low bits followed by those of the number shifted (R12). -/
theorem intToBits_add (n k m : Nat) : intToBits n (k + m) = intToBits n k ++ intToBits (n >>> k) m := by
  simp only [intToBits, List.range_add, List.map_append, List.map_map]
  congr 1
  exact List.map_congr_left fun j _ => (Nat.testBit_shiftRight n).symm

/-- Bits at and above the width are dropped (R12). -/
theorem intToBits_mod (n width : Nat) : intToBits (n % 2 ^ width) width = intToBits n width :=
  List.map_congr_left fun j hj => by simp [Nat.testBit_mod_two_pow, List.mem_range.mp hj]

/-- The bits of the byte at bit `lo` of a word (R13). -/
theorem byteToBits_extractLsb' {w : Nat} (c : BitVec w) (lo : Nat) :
    byteToBits (c.extractLsb' lo 8) = intToBits (c.toNat >>> lo) 8 := by
  rw [byteToBits, BitVec.extractLsb'_toNat, intToBits_mod]

/-- Settles O57: the three bytes are the three runs of eight of the 24 bits. -/
theorem crcBytesGoOnAirLeastBitFirst : Obligations.CrcBytesGoOnAirLeastBitFirst := by
  intro c
  refine ⟨fun i hi => ⟨?_, ?_⟩, ?_, ?_⟩
  · simp [intToBits, hi, BitVec.testBit_toNat]
  · rw [lfsrState, Nat.sub_sub_self (by omega)]
  · simp [crcToBytes, BitVec.extractLsb'_toNat, Nat.shiftRight_eq_div_pow]
  · calc bytesToBits (crcToBytes c)
        = intToBits (c.toNat >>> 0) 8 ++ (intToBits (c.toNat >>> 8) 8 ++ intToBits (c.toNat >>> 16) 8) := by
          simp only [crcToBytes, bytesToBits_cons, byteToBits_extractLsb']
          simp [bytesToBits]
      _ = intToBits c.toNat (8 + (8 + 8)) := by
          rw [intToBits_add, intToBits_add, ← Nat.shiftRight_add, Nat.shiftRight_zero]

end Sys2Proof.Machine
end

