-- ==== Sys2Proof/Proofs/Layout.lean ====
section
/-! The layout of a command word (spec/30_encoding.md R90, R92, R100): its fields, the reserved ones included, each with the
value the command gives it. The decoder reads exactly the words laid out so, the encoder lays them out so, and the fields
tile the word, so that the two are inverse. -/

namespace Sys2Proof

/-! ## Fields -/

/-- A field of a command word, from bit `lo` up, and its value. -/
structure WordField where
  lo : Nat
  width : Nat
  value : BitVec width

/-- The word has the field's value in the field. -/
@[simp] def WordField.heldBy (f : WordField) (w : BitVec 32) : Prop := cmdField w f.lo f.width = f.value

/-- The fields, listed downwards, leave no bit below `top` out. -/
def tiles : List WordField → Nat → Bool
  | [], top => decide (top = 0)
  | f :: fs, top => decide (f.lo + f.width = top) && tiles fs f.lo

theorem getLsbD_eq_of_heldBy {f : WordField} {v w : BitVec 32} (hv : f.heldBy v) (hw : f.heldBy w) {k : Nat}
    (hlo : f.lo ≤ k) (hhi : k < f.lo + f.width) : v.getLsbD k = w.getLsbD k := by
  have h : (cmdField v f.lo f.width).getLsbD (k - f.lo) = (cmdField w f.lo f.width).getLsbD (k - f.lo) := by
    rw [hv, hw]
  rwa [getLsbD_cmdField _ _ _ _ (by omega), getLsbD_cmdField _ _ _ _ (by omega), Nat.add_sub_cancel' hlo] at h

/-- Two words with the same fields agree on every bit the fields tile. -/
theorem getLsbD_eq_of_tiles {fs : List WordField} {top : Nat} {v w : BitVec 32} (ht : tiles fs top = true)
    (hv : ∀ f ∈ fs, f.heldBy v) (hw : ∀ f ∈ fs, f.heldBy w) {k : Nat} (hk : k < top) : v.getLsbD k = w.getLsbD k := by
  induction fs generalizing top with
  | nil => simp [tiles] at ht; omega
  | cons f fs ih =>
    simp only [tiles, Bool.and_eq_true, decide_eq_true_eq] at ht
    obtain ⟨rfl, ht⟩ := ht
    obtain ⟨hv, hvs⟩ := List.forall_mem_cons.mp hv
    obtain ⟨hw, hws⟩ := List.forall_mem_cons.mp hw
    by_cases hlo : f.lo ≤ k
    · exact getLsbD_eq_of_heldBy hv hw hlo hk
    · exact ih ht hvs hws (by omega)

/-- A field of one bit (R92). -/
theorem cmdField_one_eq_ofBool (w : BitVec 32) (k : Nat) (b : Bool) :
    cmdField w k 1 = BitVec.ofBool b ↔ w.getLsbD k = b := by
  have h : cmdField w k 1 = BitVec.ofBool (w.getLsbD k) := by
    refine BitVec.eq_of_getLsbD_eq fun j hj => ?_
    obtain rfl : j = 0 := by omega
    rw [getLsbD_cmdField _ _ _ _ hj]
    simp
  rw [h]
  cases w.getLsbD k <;> cases b <;> decide

theorem cmdField_one_eq_zero (w : BitVec 32) (k : Nat) : cmdField w k 1 = 0#1 ↔ w.getLsbD k = false :=
  cmdField_one_eq_ofBool w k false

/-! ## Layouts -/

/-- The operand fields and the reserved fields of a command, downwards from bit 23 (R92). -/
@[simp] def Instr.operandFields : Instr → List WordField
  | .pktClr | .clrStatus | .whSeed | .mod => [⟨0, 24, 0⟩]
  | .setChan x | .rdInfo x | .rdPhy x => [⟨6, 18, 0⟩, ⟨0, 6, x⟩]
  | .pushInfo x | .crcByte x | .whByte x | .chFreq x => [⟨8, 16, 0⟩, ⟨0, 8, x⟩]
  | .rdSample idx => [⟨11, 13, 0⟩, ⟨0, 11, idx⟩]
  | .rdReg n => [⟨4, 20, 0⟩, ⟨0, 4, n⟩]
  | .crcInit v | .crcInitLfsr v => [⟨0, 24, v⟩]
  | .crcBit b | .whBit b => [⟨1, 23, 0⟩, ⟨0, 1, BitVec.ofBool b⟩]
  | .crcRun path | .assemble path => [⟨1, 23, 0⟩, ⟨0, 1, BitVec.ofBool path.toBit⟩]
  | .whTbl37 idx byte => [⟨14, 10, 0⟩, ⟨8, 6, idx⟩, ⟨0, 8, byte⟩]
  | .hdrAdv pktType txAdd rxAdd len =>
    [⟨16, 8, 0⟩, ⟨8, 8, len⟩, ⟨7, 1, 0⟩, ⟨6, 1, BitVec.ofBool rxAdd⟩, ⟨5, 1, BitVec.ofBool txAdd⟩, ⟨0, 5, pktType⟩]
  | .hdrData llid nesn sn md len =>
    [⟨16, 8, 0⟩, ⟨8, 8, len⟩, ⟨5, 3, 0⟩, ⟨4, 1, BitVec.ofBool md⟩, ⟨3, 1, BitVec.ofBool sn⟩,
      ⟨2, 1, BitVec.ofBool nesn⟩, ⟨0, 2, llid⟩]
  | .hopSca hop sca => [⟨8, 16, 0⟩, ⟨5, 3, sca⟩, ⟨0, 5, hop⟩]
  | .llOpcode pktType => [⟨5, 19, 0⟩, ⟨0, 5, pktType⟩]

/-- Every field of a command's word: the opcode over the operands (R90). -/
def Instr.layout (i : Instr) : List WordField := ⟨24, 8, i.opcode⟩ :: i.operandFields

theorem layout_tiles (i : Instr) : tiles i.layout 32 = true := by cases i <;> rfl

/-- A command's layout determines its word. -/
theorem eq_of_layout {i : Instr} {v w : BitVec 32} (hv : ∀ f ∈ i.layout, f.heldBy v)
    (hw : ∀ f ∈ i.layout, f.heldBy w) : v = w :=
  BitVec.eq_of_getLsbD_eq fun _ hk => getLsbD_eq_of_tiles (layout_tiles i) hv hw hk

theorem forall_mem_layout {i : Instr} {w : BitVec 32} :
    (∀ f ∈ i.layout, f.heldBy w) ↔ cmdField w 24 8 = i.opcode ∧ ∀ f ∈ i.operandFields, f.heldBy w :=
  List.forall_mem_cons

/-- Below the opcode, the encoder writes each field at its place and leaves the reserved ones 0 (R92). -/
theorem operandFields_heldBy_encode (i : Instr) : ∀ f ∈ i.operandFields, f.heldBy (encode i) := by
  cases i <;> simp [cmdField_encode, Instr.operandArea, cmdField_placeField, cmdField_placeField_other]

theorem layout_heldBy_encode (i : Instr) : ∀ f ∈ i.layout, f.heldBy (encode i) :=
  forall_mem_layout.mpr ⟨cmdField_encode_opcode i, operandFields_heldBy_encode i⟩

/-! ## The decoder -/

/-- The decoder reads a well-formed command from every word laid out as the command's. -/
theorem decode_of_layout {i : Instr} {w : BitVec 32} (hwf : i.wellFormed = true)
    (h : ∀ f ∈ i.layout, f.heldBy w) : decode w = .ok i := by
  obtain ⟨hop, hfields⟩ := forall_mem_layout.mp h
  clear h
  cases i <;>
    simp_all [Instr.opcode, Instr.wellFormed, decode, ifReservedZero, cmdField_one_eq_ofBool, cmdField_one_eq_zero]

/-- A check that refuses when it fails. -/
theorem ite_error_eq_ok {c : Prop} [Decidable c] {x : Except DecodeError Instr} {e : DecodeError} {i : Instr} :
    (if c then x else .error e) = .ok i ↔ c ∧ x = .ok i := by split <;> simp_all

/-- A word the decoder accepts is laid out as the command's it reads, which is well-formed. -/
theorem layout_of_decode {i : Instr} {w : BitVec 32} (h : decode w = .ok i) :
    i.wellFormed = true ∧ ∀ f ∈ i.layout, f.heldBy w := by
  rw [forall_mem_layout]
  unfold decode at h
  split at h
  case h_7 hop => -- `RD_REG`: the register exists (R95 (c))
    obtain ⟨hres, h⟩ := ite_error_eq_ok.mp h
    obtain ⟨hreg, h⟩ := ite_error_eq_ok.mp h
    cases h
    exact ⟨decide_eq_true hreg, hop, by simp [hres]⟩
  case h_9 hop | h_10 hop => -- `CRC_INIT` and `CRC_INIT_LFSR`: no reserved bit
    cases h
    exact ⟨rfl, hop, by simp⟩
  case h_18 hop => -- `HDR_ADV`: a reserved bit inside its operands
    split at h
    · cases h
    · next hbit =>
      obtain ⟨hres, rfl⟩ := ifReservedZero_eq_ok.mp h
      exact ⟨rfl, hop, by simpa [hres, cmdField_one_eq_ofBool, cmdField_one_eq_zero] using hbit⟩
  case h_19 hop => -- `HDR_DATA`: three reserved bits inside its operands
    obtain ⟨hbits, h⟩ := ite_error_eq_ok.mp h
    obtain ⟨hres, rfl⟩ := ifReservedZero_eq_ok.mp h
    exact ⟨rfl, hop, by simp [hres, hbits, cmdField_one_eq_ofBool]⟩
  case h_25 => cases h
  all_goals
    obtain ⟨hres, rfl⟩ := ifReservedZero_eq_ok.mp h
    exact ⟨rfl, ‹_›, by simp [hres, cmdField_one_eq_ofBool]⟩

/-- Settles O53: the encoder lays out the command, and the decoder reads every word so laid out. -/
theorem decodeAfterEncodeIsIdentity : Obligations.DecodeAfterEncodeIsIdentity :=
  fun i hwf => decode_of_layout hwf (layout_heldBy_encode i)

/-- Settles O54: the word and the command's encoding have one layout, which determines the word. -/
theorem encodeAfterDecodeIsIdentity : Obligations.EncodeAfterDecodeIsIdentity := by
  intro w i h
  obtain ⟨hwf, hw⟩ := layout_of_decode h
  exact ⟨eq_of_layout (layout_heldBy_encode i) hw, hwf⟩

/-- Settles O55: the decoder evaluated on each word. -/
theorem vectorWordsDecode : Obligations.VectorWordsDecode :=
  ⟨rfl, rfl, rfl, rfl, rfl, rfl, rfl, rfl, rfl, rfl, rfl, rfl, rfl, rfl⟩

end Sys2Proof
end

