-- ==== Sys2Proof/Proofs/IllegalWords.lean ====
section
/-! Which words are illegal (spec/30_encoding.md R95): the rows of the opcode table against the decoder; and the steps
that run no command, on a word the decoder refuses, on `rst` and with nothing presented. -/

namespace Sys2Proof.Machine

open Sys2Proof.Laws

/-! ## A word under a mask -/

/-- A field that the mask covers is fixed by the masked word. -/
theorem cmdField_of_masked {w mask fixed : BitVec 32} (h : w &&& mask = fixed) {lo n : Nat}
    (hmask : cmdField mask lo n = BitVec.allOnes n) : cmdField w lo n = fixed.extractLsb' lo n := by
  have hand : cmdField (w &&& mask) lo n = cmdField w lo n &&& cmdField mask lo n := by
    simp only [cmdField, BitVec.extractLsb'_and]
  rw [← h, ← cmdField, hand, hmask, BitVec.and_allOnes]

/-- A bit that the mask covers is fixed by the masked word. -/
theorem getElem_of_masked {w mask fixed : BitVec 32} (h : w &&& mask = fixed) {k : Nat} (hk : k < 32)
    (hmask : mask[k] = true) : w[k] = fixed[k] := by
  simp [← h, hmask]

/-- The number of the register as R95 (c) reads it from the word. -/
theorem toNat_and_0xF (w : BitVec 32) : (w &&& 0xF#32).toNat = (cmdField w 0 4).toNat := by
  rw [BitVec.toNat_and, cmdField, BitVec.extractLsb'_toNat]
  exact Nat.and_two_pow_sub_one_eq_mod _ 4

/-! ## The rows of the opcode table -/

/-- Every command's word is the one its row of the table describes (R94). -/
theorem tableRow (i : Instr) : TableRow.Statement i := by
  cases i with
  | pktClr => exact TableRow.pktClr
  | setChan ch => exact TableRow.setChan ch
  | pushInfo byte => exact TableRow.pushInfo byte
  | rdInfo idx => exact TableRow.rdInfo idx
  | rdPhy idx => exact TableRow.rdPhy idx
  | rdSample idx => exact TableRow.rdSample idx
  | rdReg n => exact TableRow.rdReg n
  | clrStatus => exact TableRow.clrStatus
  | crcInit v => exact TableRow.crcInit v
  | crcInitLfsr w => exact TableRow.crcInitLfsr w
  | crcBit b => exact TableRow.crcBit b
  | crcByte byte => exact TableRow.crcByte byte
  | crcRun path => exact TableRow.crcRun path
  | whSeed => exact TableRow.whSeed
  | whBit b => exact TableRow.whBit b
  | whByte byte => exact TableRow.whByte byte
  | whTbl37 idx byte => exact TableRow.whTbl37 idx byte
  | hdrAdv pktType txAdd rxAdd len => exact TableRow.hdrAdv pktType txAdd rxAdd len
  | hdrData llid nesn sn md len => exact TableRow.hdrData llid nesn sn md len
  | hopSca hop sca => exact TableRow.hopSca hop sca
  | llOpcode pktType => exact TableRow.llOpcode pktType
  | assemble path => exact TableRow.assemble path
  | mod => exact TableRow.mod
  | chFreq ch => exact TableRow.chFreq ch

theorem inOpcodeMap_encode (i : Instr) : inOpcodeMap (encode i) = true := by
  obtain ⟨r, hr, -, hmatch⟩ := tableRow i
  exact List.any_eq_true.mpr ⟨r, hr, decide_eq_true hmatch⟩

/-- A word of the row `RD_REG` is accepted exactly when its register exists (R95 (c)). -/
theorem decode_rdReg_row {w : BitVec 32} (h : w &&& 0xFFFFFFF0#32 = 0x16000000#32) :
    decode w = if (w &&& 0xF#32).toNat ≤ 10 then .ok (.rdReg (cmdField w 0 4))
      else .error (.noSuchRegister (cmdField w 0 4)) := by
  have hop : cmdField w 24 8 = 0x16#8 := cmdField_of_masked h (by decide)
  have hres : cmdField w 4 20 = 0#20 := cmdField_of_masked h (by decide)
  rw [toNat_and_0xF]
  simp [decode, hop, hres]

/-- The decoder accepts every word that matches a row of the table, but for `RD_REG` of 11 to 15 (R94, R95). -/
theorem decode_of_row {w : BitVec 32} {r : OpcodeRow} (hr : r ∈ opcodeRows) (hmatch : w &&& r.mask = r.fixed)
    (hreg : w &&& 0xFFFFFFF0#32 = 0x16000000#32 → (w &&& 0xF#32).toNat ≤ 10) : ∃ i, decode w = .ok i := by
  by_cases hrd : w &&& 0xFFFFFFF0#32 = 0x16000000#32
  · exact ⟨_, by rw [decode_rdReg_row hrd, if_pos (hreg hrd)]⟩
  · simp only [opcodeRows, List.mem_cons, List.not_mem_nil, or_false] at hr
    rcases hr with rfl | rfl | rfl | rfl | rfl | rfl | rfl | rfl | rfl | rfl | rfl | rfl | rfl | rfl | rfl | rfl | rfl |
      rfl | rfl | rfl | rfl | rfl | rfl | rfl
    on_goal 7 => exact absurd hmatch hrd -- the row `RD_REG`
    all_goals simp (disch := decide) [decode, ifReservedZero, cmdField_of_masked hmatch, getElem_of_masked hmatch]

/-- A word is legal when some row matches it and, in the row `RD_REG`, its register exists (R95). -/
theorem illegalWord_eq_false_iff {w : BitVec 32} : illegalWord w = false ↔
    inOpcodeMap w = true ∧ (w &&& 0xFFFFFFF0#32 = 0x16000000#32 → (w &&& 0xF#32).toNat ≤ 10) := by
  simp only [illegalWord, Bool.or_eq_false_iff, Bool.not_eq_false', Bool.and_eq_false_imp, decide_eq_true_eq,
    decide_eq_false_iff_not, Nat.not_le, Nat.lt_succ_iff]

/-- A word is legal exactly when the decoder accepts it (R95). -/
theorem illegalWord_eq_false_iff_decode {w : BitVec 32} : illegalWord w = false ↔ ∃ i, decode w = .ok i := by
  rw [illegalWord_eq_false_iff]
  constructor
  · rintro ⟨hmap, hreg⟩
    obtain ⟨r, hr, hmatch⟩ := List.any_eq_true.mp hmap
    exact decode_of_row hr (of_decide_eq_true hmatch) hreg
  · rintro ⟨i, hi⟩
    refine ⟨?_, fun hrow => ?_⟩
    · rw [← (encodeAfterDecodeIsIdentity w i hi).1]
      exact inOpcodeMap_encode i
    · rw [decode_rdReg_row hrow, ite_error_eq_ok] at hi
      exact hi.1

/-! ## The step -/

/-- The oldest event of the port is the one taken (R102). -/
theorem takeEvent_of_port {s : State} {e : PortEvent} {rest : List PortEvent} (h : s.port = e :: rest) :
    s.takeEvent = some (e, { s with port := rest }) := by
  rw [State.takeEvent, h]

/-- A step on a word the decoder refuses raises `IllegalCommand` (R95, R251). -/
theorem step_of_decode_error {s : State} {w : BitVec 32} {rest : List PortEvent} {e : DecodeError}
    (hport : s.port = .command w :: rest) (hdecode : decode w = .error e) :
    step s = .next (({ s with port := rest } : State).raise .illegalCommand) := by
  simp [step, takeEvent_of_port hport, hdecode]

/-- Settles O45: the legal words are those the decoder accepts, and of its two answers the other is the refusal. -/
theorem illegalWordsRaiseIllegalCommand : Obligations.IllegalWordsRaiseIllegalCommand := by
  have hiff (w : BitVec 32) : illegalWord w = true ↔ ∃ e, decode w = .error e := by
    rw [← not_iff_not, Bool.not_eq_true, illegalWord_eq_false_iff_decode]
    cases decode w <;> simp
  refine ⟨hiff, fun s w rest hport hill => ?_⟩
  obtain ⟨e, he⟩ := (hiff w).mp hill
  exact step_of_decode_error hport he

/-- Settles O47: both answers are read off the event taken. -/
theorem stepResetsOrWaits : Obligations.StepResetsOrWaits := by
  refine fun s => ⟨fun rest hport => ?_, fun hport => ?_⟩
  · simp [step, takeEvent_of_port hport, State.applyReset]
  · simp [step, State.takeEvent, hport]

end Sys2Proof.Machine
end

