-- ==== Sys2Proof/Proofs/Outcomes.lean ====
section
/-! The outcomes of a command, by the kinds of its effect (spec/30_encoding.md R91, spec/60_exceptions.md R257). -/

namespace Sys2Proof.Machine

/-- Settles O49, a case split over the kinds of effect: of those that complete, three touch `STATUS`, at `CRCAPP` alone. -/
theorem everyCommandCompletesRaisesOrWarns : Obligations.EveryCommandCompletesRaisesOrWarns := by
  intro i s t h
  cases exec_effect h with
  | raised _ e => exact .inr (.inl ⟨e, rfl⟩)
  | rejected _ w strict => exact .inr (.inr (.inr ⟨w, strict, rfl⟩))
  | recorded _ w r lenient => exact .inr (.inr (.inl ⟨w, r, lenient, rfl⟩))
  | cleared => exact .inl ⟨⟨_, rfl⟩, fun _ => ⟨rfl, clearBit_and_of_not_mem (by decide) s.status⟩⟩
  | pushed byte => exact .inl ⟨⟨_, rfl⟩, fun _ => ⟨rfl, clearBit_and_of_not_mem (by decide) s.status⟩⟩
  | assembled path bytes crc => exact .inl ⟨⟨_, rfl⟩, fun _ => ⟨rfl, setBit_and_of_not_mem (by decide) s.status⟩⟩
  | acknowledged => exact .inl ⟨⟨_, rfl⟩, fun hi => absurd rfl hi⟩
  | _ => exact .inl ⟨⟨_, rfl⟩, fun _ => ⟨rfl, rfl⟩⟩

end Sys2Proof.Machine
end

