-- ==== Sys2Proof/Proofs/OperandWord.lean ====
section
/-! The word of a command with one operand, as the statements write it: the opcode in the top byte, the operand joined to
it from bit 0 up (spec/30_encoding.md R92, R100). -/

namespace Sys2Proof

theorem placeField_zero {n : Nat} (v : BitVec n) : placeField v 0 = v.setWidth 32 := BitVec.shiftLeft_zero _

/-- A well-formed command with one operand, at bit 0, is read back from its opcode joined to that operand. -/
theorem decode_or_operand {i : Instr} {n : Nat} {v : BitVec n} {top : BitVec 32} (op : BitVec 8)
    (htop : placeField op 24 = top) (hop : i.opcode = op) (harea : i.operandArea = placeField v 0)
    (hwf : i.wellFormed = true) : decode (top ||| v.setWidth 32) = .ok i := by
  have hword : top ||| v.setWidth 32 = encode i := by rw [encode, hop, htop, harea, placeField_zero]
  rw [hword]
  exact decodeAfterEncodeIsIdentity i hwf

end Sys2Proof
end

