-- ==== Sys2Proof/Proofs/BufferCommands.lean ====
section
/-! The packet buffer and register commands (spec/40_buffer_commands.md): for each, what it answers when its check passes
and when it fails. What they read comes from the laws of the buffers. -/

namespace Sys2Proof.Machine

/-! ## Rules of the shared operations -/

/-- The mask that clears `CRCAPP` (R121, R123). -/
theorem clearBit_statusCrcApp (v : BitVec 32) : clearBit v statusCrcApp = v &&& 0xFFFFFFFB#32 := rfl

/-- A load of an element that exists and has a value lets the command go on with the value. -/
theorem orStop_load_of_read {α : Type} {b : BufferId} {m : Memory α} {idx : Nat} {v : α} (hidx : idx < capacity b)
    (hread : m.read idx = some v) (k : α → Host.Outcome State Fault Refusal) : orStop (load b m idx) k = k v := by
  rw [load_eq_ok.mpr ⟨hidx, hread⟩, orStop_ok]

/-- Writing one value changes the one index (R71). -/
theorem Memory.read_write_one {α : Type} (m : Memory α) (base : Nat) (v : α) (a : Nat) :
    (m.write base [v]).read a = if a = base then some v else m.read a := by
  rw [Memory.read_write]
  by_cases h : a = base
  · subst h; simp
  · rw [if_neg h, if_neg (by simp; omega)]

/-! ## `PKT_CLR`, `SET_CHAN`, `CLR_STATUS` -/

/-- Settles O1: the fresh packet, its flag cleared by the mask. -/
theorem pktClrStartsAFreshPacket : Obligations.PktClrStartsAFreshPacket := by
  refine ⟨rfl, fun s => ?_⟩
  rw [← clearBit_statusCrcApp]
  rfl

/-- Settles O2: the two branches of the channel check. -/
theorem setChanWritesChanUpTo39 : Obligations.SetChanWritesChanUpTo39 :=
  fun ch => ⟨decode_or_operand 0x11 (by decide) rfl rfl rfl, fun _ =>
    ⟨fun legal => if_neg (Nat.not_lt.mpr legal), fun above => if_pos above⟩⟩

/-- Settles O8: `CLR_STATUS` is the acknowledgement, whose mask keeps `CRCAPP`. -/
theorem clrStatusKeepsOnlyCrcApp : Obligations.ClrStatusKeepsOnlyCrcApp := ⟨rfl, fun _ => rfl⟩

/-! ## `PUSH_INFO` -/

/-- Below the bound the byte is stored: the capacity of `INFO` leaves room for it (R123). -/
theorem execPushInfo_of_room {s : State} (byte : Byte) (room : s.numInfoByte.toNat < maxInfoByte) :
    execPushInfo byte s = .next ((s.pushed byte).respond 0) := by
  have hfits : s.numInfoByte.toNat + [byte].length ≤ capacity .info :=
    (Nat.succ_le_of_lt room).trans (by decide)
  rw [execPushInfo, if_neg (Nat.not_le.mpr room), store_eq_ok.mpr ⟨hfits, rfl⟩, orStop_ok]
  rfl

/-- At the bound nothing is stored (R123). -/
theorem execPushInfo_full {s : State} (byte : Byte) (full : maxInfoByte ≤ s.numInfoByte.toNat) :
    execPushInfo byte s = .next (s.raise .payloadTooLarge) := if_pos full

/-- Settles O3: below the bound the next state is `State.pushed`, whose `INFO` is one write of one byte. -/
theorem pushInfoAppendsOneByte : Obligations.PushInfoAppendsOneByte := by
  refine fun byte => ⟨decode_or_operand 0x12 (by decide) rfl rfl rfl, fun s => ⟨fun room => ?_, execPushInfo_full byte⟩⟩
  refine ⟨_, execPushInfo_of_room byte (Nat.lt_succ_of_le room), ?_, fun a ha => ?_, ?_⟩
  · exact (Memory.read_write_one _ _ _ _).trans (if_pos rfl)
  · exact (Memory.read_write_one _ _ _ _).trans (if_neg ha)
  · rw [← clearBit_statusCrcApp]
    rfl

/-! ## `RD_INFO`, `RD_PHY`, `RD_SAMPLE` -/

/-- Below the limit the byte of `INFO` is answered (R125). -/
theorem execRdInfo_of_read {s : State} {idx : BitVec 6} {b : BitVec 8} (hidx : idx.toNat < infoLimit s)
    (hlimit : infoLimit s ≤ capacity .info) (hread : s.info.read idx.toNat = some b) :
    execRdInfo idx s = .next (s.respond (zext32 b)) := by
  rw [execRdInfo, if_neg (Nat.not_le.mpr hidx), orStop_load_of_read (by omega) hread]

/-- Below the count the byte of `PHY` is answered (R126). -/
theorem execRdPhy_of_read {s : State} {idx : BitVec 6} {b : BitVec 8} (hidx : idx.toNat < s.numPhyByte.toNat)
    (hcount : s.numPhyByte.toNat ≤ capacity .phy) (hread : s.phy.read idx.toNat = some b) :
    execRdPhy idx s = .next (s.respond (zext32 b)) := by
  rw [execRdPhy, if_neg (Nat.not_le.mpr hidx), orStop_load_of_read (by omega) hread]

/-- Below the count the pair of `SAMP` is answered (R127). -/
theorem execRdSample_of_read {s : State} {idx : BitVec 11} {x : Sample} (hidx : idx.toNat < s.numPhySample.toNat)
    (hcount : s.numPhySample.toNat ≤ capacity .samp) (hread : s.samp.read idx.toNat = some x) :
    execRdSample idx s = .next (s.respond (packSample x)) := by
  rw [execRdSample, if_neg (Nat.not_le.mpr hidx), orStop_load_of_read (by omega) hread]

/-- Settles O4: 43 bytes and the three of the CRC fill `INFO` up to its capacity. -/
theorem rdInfoAnswersTheByte : Obligations.RdInfoAnswersTheByte := by
  refine fun idx => ⟨decode_or_operand 0x13 (by decide) rfl rfl rfl, fun s =>
    ⟨fun b hcount hidx hread => ?_, execRdInfo_beyond⟩⟩
  have hlimit : infoLimit s ≤ capacity .info := (infoLimit_le s).trans (Nat.add_le_add_right hcount 3)
  exact execRdInfo_of_read hidx hlimit hread

/-- Settles O5: the two sides of the count. -/
theorem rdPhyAnswersTheByte : Obligations.RdPhyAnswersTheByte :=
  fun _ => ⟨decode_or_operand 0x14 (by decide) rfl rfl rfl, fun _ =>
    ⟨fun _ hcount hidx hread => execRdPhy_of_read hidx (Nat.le_succ_of_le hcount) hread, execRdPhy_beyond⟩⟩

/-- Q in the high half-word (R127). -/
theorem packSample_high (x : Sample) : (packSample x).extractLsb' 16 16 = BitVec.ofInt 16 x.q :=
  BitVec.extractLsb'_append_eq_left

/-- I in the low half-word (R127). -/
theorem packSample_low (x : Sample) : (packSample x).extractLsb' 0 16 = BitVec.ofInt 16 x.i :=
  BitVec.extractLsb'_append_eq_right

/-- Settles O6: below the count the data is the packed pair. -/
theorem rdSampleAnswersThePair : Obligations.RdSampleAnswersThePair :=
  fun _ => ⟨decode_or_operand 0x15 (by decide) rfl rfl rfl, fun _ =>
    ⟨fun x hcount hidx hread => ⟨packSample x, execRdSample_of_read hidx hcount hread, packSample_high x, packSample_low x⟩,
      execRdSample_beyond⟩⟩

/-! ## `RD_REG` -/

/-- A register with a number is answered (R129). -/
theorem execRdReg_of_some {s : State} {n : BitVec 4} {v : BitVec 32} (h : s.readReg n = some v) :
    execRdReg n s = .next (s.respond v) := by rw [execRdReg, h]

/-- A number with no register is an illegal command (R129). -/
theorem execRdReg_of_none {s : State} {n : BitVec 4} (h : s.readReg n = none) :
    execRdReg n s = .next (s.raise .illegalCommand) := by rw [execRdReg, h]

/-- The numbers from 11 up name no register (R23). -/
theorem State.readReg_eq_none (s : State) {n : BitVec 4} (h : 11 ≤ n.toNat) : s.readReg n = none :=
  List.getElem?_eq_none h

/-- Settles O7: the statement's list is the table that `State.readReg` indexes, each value with its position as its number,
so what it lists is what is read. -/
theorem rdRegAnswersEachRegister : Obligations.RdRegAnswersEachRegister := by
  refine ⟨fun n hn => decode_or_operand 0x16 (by decide) rfl rfl (decide_eq_true hn), fun s =>
    ⟨fun n v hmem => ?_, fun n hn => ?_⟩⟩
  · have hread : s.readReg n = some v :=
      List.mk_mem_zipIdx_iff_getElem?.mp (List.mem_map_of_mem (f := fun r => (r.2, r.1.toNat)) hmem)
    exact execRdReg_of_some hread
  · exact execRdReg_of_none (s.readReg_eq_none hn)

end Sys2Proof.Machine
end

