-- ==== Sys2Proof/Proofs/CrcShift.lean ====
section
/-! The algebra of the CRC step (spec/41_crc.md R143 to R150): it is linear over xor, so that bits fed one at a time may be
joined to the low end of `CRC` before the LFSR runs alone, and the low byte and the rest of `CRC` go through it apart. -/

namespace Sys2Proof.Machine

/-! ## One step -/

/-- `CRC_BIT 0` (R143): the LFSR run alone. It generates `CRC_TABLE` (R147). -/
def crcShift (c : BitVec 24) : BitVec 24 := crcBit c false

theorem getLsbD_crcBit (c : BitVec 24) (b : Bool) (i : Nat) :
    (crcBit c b).getLsbD i = (c.getLsbD (i + 1) ^^ ((c.getLsbD 0 ^^ b) && crcFeedback.getLsbD i)) := by
  rw [crcBit, BitVec.getLsbD_xor, BitVec.getLsbD_ushiftRight, Nat.add_comm 1 i]
  cases c.getLsbD 0 ^^ b <;> simp

theorem crcShift_eq (c : BitVec 24) : crcShift c = (c >>> 1) ^^^ (if c.getLsbD 0 then crcFeedback else 0) := by
  rw [crcShift, crcBit, Bool.xor_false]

/-- The step is linear over xor, in the register and the bit together. -/
theorem crcBit_xor (c d : BitVec 24) (p q : Bool) : crcBit (c ^^^ d) (p ^^ q) = crcBit c p ^^^ crcBit d q := by
  refine BitVec.eq_of_getLsbD_eq fun i _ => ?_
  simp only [BitVec.getLsbD_xor, getLsbD_crcBit]
  cases crcFeedback.getLsbD i
  · simp only [Bool.and_false, Bool.xor_false]
  · simp only [Bool.and_true, Bool.xor_assoc, Bool.xor_left_comm]

theorem crcShift_xor (c d : BitVec 24) : crcShift (c ^^^ d) = crcShift c ^^^ crcShift d := crcBit_xor c d false false

/-- A bit fed to the step may be joined to bit 0 of the register first. -/
theorem crcBit_eq_crcShift (c : BitVec 24) (b : Bool) : crcBit c b = crcShift (c ^^^ (BitVec.ofBool b).setWidth 24) := by
  have hb : crcBit 0 b = crcBit ((BitVec.ofBool b).setWidth 24) false := by cases b <;> rfl
  calc crcBit c b
    _ = crcBit (c ^^^ 0#24) (false ^^ b) := by rw [BitVec.xor_zero, Bool.false_xor]
    _ = crcBit c false ^^^ crcBit 0 b := crcBit_xor c 0 false b
    _ = crcShift (c ^^^ (BitVec.ofBool b).setWidth 24) := by rw [hb, ← crcShift, ← crcShift, crcShift_xor]

/-- With bit 0 clear there is no feedback. -/
theorem crcShift_of_clear {c : BitVec 24} (h : c.getLsbD 0 = false) : crcShift c = c >>> 1 := by
  rw [crcShift_eq, h]
  exact BitVec.xor_zero

/-! ## Several steps -/

theorem iterate_crcShift_xor (n : Nat) (c d : BitVec 24) :
    crcShift^[n] (c ^^^ d) = crcShift^[n] c ^^^ crcShift^[n] d :=
  (show Function.Semiconj₂ crcShift (· ^^^ ·) (· ^^^ ·) from crcShift_xor).iterate n c d

/-- As many low bits as are clear are shifted out with no feedback. -/
theorem iterate_crcShift_of_clear {n : Nat} {c : BitVec 24} (h : ∀ i, i < n → c.getLsbD i = false) :
    crcShift^[n] c = c >>> n := by
  induction n generalizing c with
  | zero => rfl
  | succ n ih =>
    have hrest : ∀ i, i < n → (c >>> 1).getLsbD i = false := fun i hi => by
      rw [BitVec.getLsbD_ushiftRight]
      exact h (1 + i) (by omega)
    rw [Function.iterate_succ_apply, crcShift_of_clear (h 0 n.succ_pos), ih hrest, ← BitVec.shiftRight_add,
      Nat.add_comm]

/-- Bit `i` of a packed sequence, as far as the register has room (R13). -/
theorem getLsbD_ofNat_bitsToNat (bits : List Bool) (i : Nat) :
    (BitVec.ofNat 24 (bitsToNat bits)).getLsbD i = (decide (i < 24) && bits.getD i false) := by
  rw [BitVec.getLsbD_ofNat, testBit_bitsToNat]

/-- The first bit of a sequence stands at bit 0, the others above it (R13). -/
theorem ofNat_bitsToNat_cons (b : Bool) (bits : List Bool) :
    BitVec.ofNat 24 (bitsToNat (b :: bits)) =
      (BitVec.ofBool b).setWidth 24 ^^^ (BitVec.ofNat 24 (bitsToNat bits) <<< 1) := by
  refine BitVec.eq_of_getLsbD_eq fun i hi => ?_
  rw [getLsbD_ofNat_bitsToNat, BitVec.getLsbD_xor, BitVec.getLsbD_shiftLeft, getLsbD_ofNat_bitsToNat]
  cases i with
  | zero => simp
  | succ i => simp [hi, show i < 24 by omega]

/-- A sequence with room above it is shifted back down whole. -/
theorem ofNat_bitsToNat_shiftLeft_ushiftRight {bits : List Bool} (h : bits.length < 24) :
    BitVec.ofNat 24 (bitsToNat bits) <<< 1 >>> 1 = BitVec.ofNat 24 (bitsToNat bits) := by
  refine BitVec.eq_of_getLsbD_eq fun i hi => ?_
  rw [BitVec.getLsbD_ushiftRight, BitVec.getLsbD_shiftLeft, getLsbD_ofNat_bitsToNat, getLsbD_ofNat_bitsToNat]
  by_cases hlast : i < 23
  · simp [hi, show 1 + i < 24 by omega]
  · simp [show bits.length ≤ i by omega]

/-- Bits fed one at a time may all be joined to the low end of the register first, as many as it has room for. -/
theorem foldl_crcBit {bits : List Bool} (h : bits.length ≤ 24) (c : BitVec 24) :
    bits.foldl crcBit c = crcShift^[bits.length] (c ^^^ BitVec.ofNat 24 (bitsToNat bits)) := by
  induction bits generalizing c with
  | nil => exact (BitVec.xor_zero).symm
  | cons b bits ih =>
    have hstep : crcShift (c ^^^ BitVec.ofNat 24 (bitsToNat (b :: bits))) =
        crcBit c b ^^^ BitVec.ofNat 24 (bitsToNat bits) := by
      rw [ofNat_bitsToNat_cons, ← BitVec.xor_assoc, crcShift_xor, ← crcBit_eq_crcShift, crcShift_of_clear (by simp),
        ofNat_bitsToNat_shiftLeft_ushiftRight h]
    rw [List.foldl_cons, ih (Nat.le_of_succ_le h), List.length_cons, Function.iterate_succ_apply, hstep]

/-! ## One byte -/

/-- A byte through the bit-serial path: joined to the low byte of the register, then eight steps of the LFSR. -/
theorem crcByteSerial_eq (c : BitVec 24) (x : BitVec 8) : crcByteSerial c x = crcShift^[8] (c ^^^ x.setWidth 24) := by
  have hpack : BitVec.ofNat 24 (bitsToNat (byteToBits x)) = x.setWidth 24 := by
    rw [byteToBits, bitsToNat_intToBits, Nat.mod_eq_of_lt x.isLt, BitVec.ofNat_toNat]
  rw [crcByteSerial, foldl_crcBit (by simp), length_byteToBits, hpack]

/-- `CRC_TABLE` is what eight steps of the LFSR make of each byte (R147). -/
theorem crcTable_eq : crcTable = (List.range 256).map fun n => crcShift^[8] (BitVec.ofNat 24 n) := by
  decide +kernel

theorem getElem?_crcTable (i : BitVec 8) : crcTable[i.toNat]? = some (crcShift^[8] (i.setWidth 24)) := by
  rw [crcTable_eq, List.getElem?_map, List.getElem?_range i.isLt, Option.map_some, BitVec.ofNat_toNat]

theorem getElem?_crcTable_entry (i : BitVec 8) : crcTable[i.toNat]? = some (crcTableEntry i) := by
  rw [crcTableEntry, List.getD_eq_getElem?_getD, getElem?_crcTable, Option.getD_some]

theorem crcTableEntry_eq (i : BitVec 8) : crcTableEntry i = crcShift^[8] (i.setWidth 24) :=
  Option.some.inj ((getElem?_crcTable_entry i).symm.trans (getElem?_crcTable i))

/-- The mask of R146 changes nothing. -/
theorem crcByte_eq (c : BitVec 24) (x : BitVec 8) :
    crcByte c x = crcTableEntry (c.setWidth 8 ^^^ x) ^^^ (c >>> 8) :=
  BitVec.and_allOnes

/-- A register is its low byte and the rest, which has its low byte clear. -/
theorem xor_setWidth_split (c : BitVec 24) (x : BitVec 8) :
    c ^^^ x.setWidth 24 = (c.setWidth 8 ^^^ x).setWidth 24 ^^^ (c >>> 8 <<< 8) := by
  refine BitVec.eq_of_getLsbD_eq fun i hi => ?_
  by_cases hlow : i < 8
  · simp [hlow, hi]
  · simp [hlow, hi, show 8 + (i - 8) = i by omega, Bool.xor_comm]

/-- The two paths agree on one byte (R150): the low byte becomes its table entry, the rest is shifted down. -/
theorem crcByte_eq_crcByteSerial (c : BitVec 24) (x : BitVec 8) : crcByte c x = crcByteSerial c x := by
  have hhigh : crcShift^[8] (c >>> 8 <<< 8) = c >>> 8 := by
    rw [iterate_crcShift_of_clear fun i hi => by simp [hi]]
    refine BitVec.eq_of_getLsbD_eq fun i _ => ?_
    by_cases hlast : 8 + i < 24
    · simp [hlast]
    · simp [show 24 ≤ 8 + i by omega]
  rw [crcByte_eq, crcByteSerial_eq, xor_setWidth_split, iterate_crcShift_xor, ← crcTableEntry_eq, hhigh]

end Sys2Proof.Machine
end

