-- ==== Sys2Proof/Proofs/CrcCommands.lean ====
section
/-! The CRC-24 engine (spec/41_crc.md): its commands, its table and the agreement of its two paths. -/

namespace Sys2Proof.Machine

/-! ## `CRC_INIT`, `CRC_INIT_LFSR` -/

/-- Settles O9: the command loads its 24-bit operand as it stands. -/
theorem crcInitLoadsBothRegisters : Obligations.CrcInitLoadsBothRegisters :=
  fun _ => ⟨decode_or_operand 0x20 (by decide) rfl rfl rfl, fun _ => rfl⟩

theorem getLsbD_rev24 (w : BitVec 24) {k : Nat} (hk : k < 24) : (rev24 w).getLsbD k = w.getLsbD (23 - k) := by
  rw [rev24, BitVec.getLsbD_reverse, BitVec.getMsbD, decide_eq_true hk, Bool.true_and]

/-- The reversal is the LFSR view (R28). -/
theorem lfsrState_rev24 (w : BitVec 24) {p : Nat} (hp : p < 24) : lfsrState (rev24 w) p = w.getLsbD p := by
  rw [lfsrState, getLsbD_rev24 w (by omega), Nat.sub_sub_self (by omega)]

/-- Settles O10: the value loaded is the reversal. -/
theorem crcInitLfsrLoadsTheReversal : Obligations.CrcInitLfsrLoadsTheReversal :=
  fun w => ⟨decode_or_operand 0x21 (by decide) rfl rfl rfl, rev24 w, fun _ => getLsbD_rev24 w,
    fun _ => lfsrState_rev24 w, fun _ => rfl⟩

/-! ## `CRC_BIT` -/

/-- Position 0 has no predecessor (R143). -/
theorem lfsrState_crcBit_zero (c : BitVec 24) (b : Bool) : lfsrState (crcBit c b) 0 = (lfsrState c 23 ^^ b) := by
  have hnone : c.getLsbD 24 = false := BitVec.getLsbD_of_ge c 24 le_rfl
  have htap : crcFeedback.getLsbD 23 = true := by decide
  rw [lfsrState, getLsbD_crcBit, hnone, htap, Bool.and_true, Bool.false_xor, lfsrState]

/-- Every other position takes its predecessor, joined with the new bit at the taps (R143). -/
theorem lfsrState_crcBit {k : Nat} (hpos : 1 ≤ k) (hk : k ≤ 23) (c : BitVec 24) (b : Bool) :
    lfsrState (crcBit c b) k = (lfsrState c (k - 1) ^^ ((lfsrState c 23 ^^ b) && lfsrState crcFeedback k)) := by
  have hpred : 23 - k + 1 = 23 - (k - 1) := by omega
  rw [lfsrState, getLsbD_crcBit, hpred]
  rfl

/-- The positions above 0 that the feedback reaches (R143). -/
theorem lfsrState_crcFeedback {k : Nat} (hpos : 1 ≤ k) (hk : k ≤ 23) :
    lfsrState crcFeedback k = decide (k ∈ [1, 3, 4, 6, 9, 10]) := by
  interval_cases k <;> rfl

theorem lfsrState_crcBit_of_tap {k : Nat} (htap : k ∈ [1, 3, 4, 6, 9, 10]) (c : BitVec 24) (b : Bool) :
    lfsrState (crcBit c b) k = (lfsrState c (k - 1) ^^ (lfsrState c 23 ^^ b)) := by
  have hrange : 1 ≤ k ∧ k ≤ 23 := by simp at htap; omega
  rw [lfsrState_crcBit hrange.1 hrange.2, lfsrState_crcFeedback hrange.1 hrange.2, decide_eq_true htap, Bool.and_true]

theorem lfsrState_crcBit_of_no_tap {k : Nat} (hpos : 1 ≤ k) (hk : k ≤ 23) (htap : k ∉ [1, 3, 4, 6, 9, 10])
    (c : BitVec 24) (b : Bool) : lfsrState (crcBit c b) k = lfsrState c (k - 1) := by
  rw [lfsrState_crcBit hpos hk, lfsrState_crcFeedback hpos hk, decide_eq_false htap, Bool.and_false, Bool.xor_false]

/-- Settles O11: position 0, the six other taps, and the positions the feedback does not reach. -/
theorem crcBitIsTheLfsrStep : Obligations.CrcBitIsTheLfsrStep := by
  refine fun b => ⟨by cases b <;> rfl, fun s => ⟨crcBit s.crc b, rfl, lfsrState_crcBit_zero _ _,
    fun k htap => lfsrState_crcBit_of_tap htap _ _, fun k hmem => ?_, fun k hlo hhi => ?_⟩⟩
  · simp only [List.mem_cons, List.not_mem_nil, or_false] at hmem
    exact lfsrState_crcBit_of_no_tap (by omega) (by omega) (by simp; omega) _ _
  · exact lfsrState_crcBit_of_no_tap (by omega) hhi (by simp; omega) _ _

/-! ## `CRC_BYTE` and `CRC_TABLE` -/

/-- The table index of R146. -/
theorem toNat_setWidth_xor (c : BitVec 24) (x : BitVec 8) :
    (c.setWidth 8 ^^^ x).toNat = (c ^^^ x.setWidth 24).toNat % 256 := by
  have h : c.setWidth 8 ^^^ x = (c ^^^ x.setWidth 24).setWidth 8 := by
    rw [BitVec.setWidth_xor, BitVec.setWidth_setWidth_of_le _ (by decide), BitVec.setWidth_eq]
  rw [h, BitVec.toNat_setWidth]

/-- Settles O12: the entry is that of the low byte, and the mask changes nothing. -/
theorem crcByteIsTheTableStep : Obligations.CrcByteIsTheTableStep := by
  refine fun byte => ⟨decode_or_operand 0x23 (by decide) rfl rfl rfl, fun s =>
    ⟨crcTableEntry (s.crc.setWidth 8 ^^^ byte), crcByte s.crc byte, ?_, crcByte_eq _ _, rfl⟩⟩
  rw [← toNat_setWidth_xor, getElem?_crcTable_entry]

/-- Settles O13: the generator is `CRC_BIT 0`. -/
theorem crcTableIsGenerated : Obligations.CrcTableIsGenerated := by
  have hgen : crcShift = fun c : BitVec 24 => (c >>> 1) ^^^ (if c.getLsbD 0 then 0xDA6000#24 else 0#24) :=
    funext crcShift_eq
  refine ⟨by rw [crcTable_eq, List.length_map, List.length_range], fun i => ?_⟩
  rw [getElem?_crcTable, hgen]

/-- Settles O14: each entry is eight linear steps of its index; the low bits are read off the 256 entries. -/
theorem crcTableIsLinear : Obligations.CrcTableIsLinear := by
  refine ⟨rfl, rfl, rfl, fun a b => ?_, ?_⟩
  · rw [crcTableEntry_eq, crcTableEntry_eq, crcTableEntry_eq, BitVec.setWidth_xor, iterate_crcShift_xor]
  · decide +kernel

/-! ## The two paths -/

theorem crcStep_eq (path : Path) : crcStep path = crcByteSerial := by
  cases path with
  | bitSerial => rfl
  | table => exact funext₂ crcByte_eq_crcByteSerial

/-- Both paths compute one CRC. -/
theorem crcOver_eq (path : Path) (c : BitVec 24) (body : List (BitVec 8)) :
    crcOver path c body = body.foldl crcByteSerial c := by rw [crcOver, crcStep_eq]

/-- Settles O15: a byte of the bit-serial path is eight steps. -/
theorem crcPathsAgree : Obligations.CrcPathsAgree :=
  ⟨crcByte_eq_crcByteSerial, fun c body => (crcOver_eq .table c body).trans (crcOver_eq .bitSerial c body).symm,
    fun _ _ => rfl⟩

/-! ## `CRC_RUN` -/

/-- On a listed body `CRC_RUN` answers the body's CRC from `CRCINIT` (R151). -/
theorem execCrcRun_of_body {s : State} {body : List (BitVec 8)} (path : Path) (hcount : s.numInfoByte.toNat ≤ 43)
    (hlen : body.length = s.numInfoByte.toNat - 5) (hbody : holds s.info 5 body) :
    execCrcRun path s = .next
      (({ s with crc := crcOver path s.crcInit body } : State).respond (zext32 (crcOver path s.crcInit body))) := by
  have hread : loadRange .info s.info leadBytes (s.numInfoByte.toNat - leadBytes) = .ok body :=
    loadRange_eq_ok.mpr ⟨hlen, fun k (hk : k < s.numInfoByte.toNat - 5) =>
      ⟨show 5 + k < 46 by omega, hbody k (hlen ▸ hk)⟩⟩
  rw [execCrcRun, hread, orStop_ok]

/-- Settles O16: the CRC of either path is the bit-serial one, and the table path folds the byte step. -/
theorem crcRunCoversTheBody : Obligations.CrcRunCoversTheBody := by
  refine ⟨rfl, rfl, fun s body hcount hlen hbody => ⟨crcOver .table s.crcInit body, ?_, rfl, fun path => ?_⟩⟩
  · have hbits : (fun r x => (bytesToBits [x]).foldl crcBit r) = crcByteSerial := by
      funext r x
      rw [bytesToBits, List.flatMap_singleton, crcByteSerial]
    rw [hbits, crcOver_eq]
  · rw [crcOver_eq, ← crcOver_eq path]
    exact execCrcRun_of_body path hcount hlen hbody

end Sys2Proof.Machine
end

