-- ==== Sys2Proof/Proofs/Keystream.lean ====
section
/-! The keystream of the whitener (spec/42_whitener.md R161 to R170): what the seed and the step do bit by bit, one byte
and a byte sequence as their xor with the keystream, and the keystream of channel 37 as the table. -/

namespace Sys2Proof.Machine

/-! ## The state -/

theorem getLsbD_whSeed_zero (ch : BitVec 6) : (whSeed ch).getLsbD 0 = true := BitVec.getLsbD_ofBoolListLE

/-- Above bit 0 a seed is the channel, its highest bit first (R160). -/
theorem getLsbD_whSeed (ch : BitVec 6) {p : Nat} (hpos : 1 ≤ p) (hp : p ≤ 6) :
    (whSeed ch).getLsbD p = ch.getLsbD (6 - p) := by
  rw [whSeed, BitVec.getLsbD_ofBoolListLE]
  interval_cases p <;> rfl

theorem getLsbD_whStep (w : BitVec 7) (p : Nat) :
    (whStep w).getLsbD p =
      [w.getLsbD 6, w.getLsbD 0, w.getLsbD 1, w.getLsbD 2, (w.getLsbD 3 ^^ w.getLsbD 6), w.getLsbD 4,
        w.getLsbD 5].getD p false :=
  BitVec.getLsbD_ofBoolListLE

/-! ## Bit sequences -/

/-- Each bit meets the same keystream bit twice: the state never depends on the data (R170, R171). -/
theorem whitenBits_whitenBits (w : BitVec 7) (x : List Bool) : (whitenBits w (whitenBits w x).1).1 = x := by
  induction x generalizing w with
  | nil => rfl
  | cons b bs ih => simp [whitenBits, whOut, ih]

/-! ## Bytes -/

theorem getLsbD_bitsToByte (bits : List Bool) {n : Nat} (hn : n < 8) :
    (bitsToByte bits).getLsbD n = bits.getD n false := by
  rw [bitsToByte, BitVec.getLsbD_ofNat, testBit_bitsToNat, decide_eq_true hn, Bool.true_and]

theorem getElem?_byteToBits (x : BitVec 8) {n : Nat} (hn : n < 8) : (byteToBits x)[n]? = some (x.getLsbD n) := by
  rw [byteToBits, intToBits, List.getElem?_map, List.getElem?_range hn, Option.map_some, BitVec.testBit_toNat]

/-- Bit `n` of a whitened byte meets the keystream after `n` steps (R164). -/
theorem getLsbD_whitenByte (w : BitVec 7) (x : BitVec 8) {n : Nat} (hn : n < 8) :
    (whitenByte w x).1.getLsbD n = ((whStep^[n] w).getLsbD 6 ^^ x.getLsbD n) := by
  rw [whitenByte, getLsbD_bitsToByte _ hn, List.getD_eq_getElem?_getD, getElem?_whitenBits, getElem?_byteToBits x hn]
  rfl

/-- Whitening a byte is joining it to the keystream byte, what the whitener makes of the byte 0. -/
theorem whitenByte_eq_xor (w : BitVec 7) (x : BitVec 8) : (whitenByte w x).1 = x ^^^ (whitenByte w 0).1 := by
  refine BitVec.eq_of_getLsbD_eq fun n hn => ?_
  rw [BitVec.getLsbD_xor, getLsbD_whitenByte w x hn, getLsbD_whitenByte w 0 hn, BitVec.ofNat_eq_ofNat,
    BitVec.getLsbD_zero, Bool.xor_false, Bool.xor_comm]

/-- Byte `j` of a sequence is whitened from the state `8 * j` steps on (R200 step 2). -/
theorem getElem?_whitenBytes (w : BitVec 7) (xs : List (BitVec 8)) (j : Nat) :
    (whitenBytes w xs).1[j]? = xs[j]?.map fun x => (whitenByte (whStep^[8 * j] w) x).1 := by
  induction xs generalizing w j with
  | nil => rfl
  | cons x xs ih =>
    cases j with
    | zero => rfl
    | succ j =>
      rw [whitenBytes, List.getElem?_cons_succ, List.getElem?_cons_succ, ih, whitenByte_state,
        ← Function.iterate_add_apply, ← Nat.mul_succ]

/-! ## The table of channel 37 -/

/-- `WH_TABLE37` is what the whitener makes of 42 zero bytes after the seed of channel 37 (R169). -/
theorem whTable37_eq : whTable37 = (whitenBytes (whSeed 37#6) (List.replicate 42 0)).1 := by
  decide +kernel

theorem getElem?_whTable37 {j : Nat} (hj : j < 42) : whTable37[j]? = some (keystreamByte 37#6 j) := by
  rw [whTable37_eq, getElem?_whitenBytes, List.getElem?_replicate_of_lt hj]
  rfl

end Sys2Proof.Machine
end

