-- ==== Sys2Proof/Proofs/WhitenerPeriod.lean ====
section
/-! The period of the whitener (spec/42_whitener.md R166, spec/10_state.md R32): 127 is a prime, so the state 1 has the
period 127, and its orbit then fills the 127 states that are not 0. -/

namespace Sys2Proof.Machine

open Function (minimalPeriod IsPeriodicPt)

theorem minimalPeriod_whStep_one : minimalPeriod whStep 1 = 127 := by
  have hprime : Fact (Nat.Prime 127) := ⟨by norm_num⟩
  have hperiodic : IsPeriodicPt whStep 127 1 := by decide +kernel
  have hmoves : ¬ Function.IsFixedPt whStep 1 := by decide
  exact Function.minimalPeriod_eq_prime hperiodic hmoves

/-- The first 127 states from 1 on are distinct and not 0, so they are all states but 0. -/
theorem exists_iterate_whStep_one {w : BitVec 7} (h : w ≠ 0) : ∃ k, whStep^[k] 1 = w := by
  have hinj : Set.InjOn (fun k => (whStep^[k] 1).toNat) (Finset.range 127) := fun m hm n hn hmn => by
    rw [Finset.coe_range, ← minimalPeriod_whStep_one] at hm hn
    exact Function.iterate_injOn_Iio_minimalPeriod hm hn (BitVec.eq_of_toNat_eq hmn)
  have hpos : ∀ v : BitVec 7, v ≠ 0 → v.toNat ∈ Finset.Icc 1 127 := fun v hv =>
    Finset.mem_Icc.mpr ⟨Nat.pos_of_ne_zero fun h0 => hv (BitVec.eq_of_toNat_eq h0), Nat.le_of_lt_succ v.isLt⟩
  have hsurj := Finset.surjOn_of_injOn_of_card_le (t := Finset.Icc 1 127) _
    (fun k _ => hpos _ (iterate_whStep_ne_zero (by decide) k)) hinj (by simp)
  obtain ⟨k, -, hk⟩ := hsurj (hpos w h)
  exact ⟨k, BitVec.eq_of_toNat_eq hk⟩

theorem minimalPeriod_whStep {w : BitVec 7} (h : w ≠ 0) : minimalPeriod whStep w = 127 := by
  obtain ⟨k, rfl⟩ := exists_iterate_whStep_one h
  have hone : (1 : BitVec 7) ∈ Function.periodicPts whStep :=
    Function.minimalPeriod_pos_iff_mem_periodicPts.mp (minimalPeriod_whStep_one ▸ Nat.succ_pos _)
  rw [Function.minimalPeriod_apply_iterate hone, minimalPeriod_whStep_one]

/-- Settles O23: the minimal period of every state but 0 is 127. -/
theorem whStepHasPeriod127 : Obligations.WhStepHasPeriod127 := by
  refine fun w h => ⟨whStep_ne_zero h, ?_, fun k hpos hk => ?_⟩
  · exact minimalPeriod_whStep h ▸ Function.isPeriodicPt_minimalPeriod whStep w
  · rw [← minimalPeriod_whStep h] at hk
    exact Function.not_isPeriodicPt_of_pos_of_lt_minimalPeriod hpos.ne' hk

end Sys2Proof.Machine
end

