-- ==== Sys2Proof/Proofs/WhitenerCommands.lean ====
section
/-! The whitener's commands (spec/42_whitener.md): `WH_SEED`, `WH_BIT`, `WH_BYTE` and `WH_TBL37`, the agreement of the
table with the LFSR on channel 37, and whitening twice. -/

namespace Sys2Proof.Machine

/-! ## The bit-serial path -/

/-- Settles O17: the seed's bits. -/
theorem whSeedLoadsTheChannel : Obligations.WhSeedLoadsTheChannel :=
  ⟨rfl, fun s => ⟨whSeed s.chan, rfl, getLsbD_whSeed_zero _, fun _ => getLsbD_whSeed _⟩⟩

/-- Settles O18: the step's bits, and the output bit of the state before it. -/
theorem whBitWhitensOneBit : Obligations.WhBitWhitensOneBit :=
  fun b => ⟨by cases b <;> rfl, fun s =>
    ⟨whStep s.wh, bit32 (whOut s.wh b), rfl, rfl, getLsbD_whStep _ 0, getLsbD_whStep _ 1, getLsbD_whStep _ 2,
      getLsbD_whStep _ 3, getLsbD_whStep _ 4, getLsbD_whStep _ 5, getLsbD_whStep _ 6⟩⟩

/-- `WH_BYTE` leaves the state eight steps on, whatever its byte (R164, R171). -/
theorem execWhByte_eq (byte : Byte) (s : State) :
    execWhByte byte s =
      .next (({ s with wh := whStep^[8] s.wh } : State).result (zext32 (whitenByte s.wh byte).1)) := by
  rw [execWhByte, whitenByte_state]

/-- Settles O19: the whitened byte, bit by bit. -/
theorem whByteIsEightBitSteps : Obligations.WhByteIsEightBitSteps :=
  fun byte => ⟨decode_or_operand 0x32 (by decide) rfl rfl rfl, fun s =>
    ⟨(whitenByte s.wh byte).1, fun _ => getLsbD_whitenByte s.wh byte, execWhByte_eq byte s⟩⟩

/-- Settles O22: from any state whitening is its own inverse, so from every seed. -/
theorem whiteningIsItsOwnInverse : Obligations.WhiteningIsItsOwnInverse :=
  fun ch => whitenBits_whitenBits (whSeed ch)

/-! ## The table path -/

/-- An index with an entry (R168). -/
theorem execWhTbl37_of_some {idx : BitVec 6} {k : BitVec 8} (h : whTable37[idx.toNat]? = some k) (byte : Byte)
    (s : State) : execWhTbl37 idx byte s = .next (s.result (zext32 (byte ^^^ k))) := by rw [execWhTbl37, h]

/-- An index with no entry (R168). -/
theorem execWhTbl37_of_none {idx : BitVec 6} (h : whTable37[idx.toNat]? = none) (byte : Byte) (s : State) :
    execWhTbl37 idx byte s = .next (s.raise .indexOutOfRange) := by rw [execWhTbl37, h]

/-- `WH_TBL37` has two operands, the index above the byte (R92). -/
theorem decode_whTbl37 (idx : BitVec 6) (byte : Byte) :
    decode (0x33000000#32 ||| (idx.setWidth 32 <<< 8) ||| byte.setWidth 32) = .ok (.whTbl37 idx byte) := by
  have htop : placeField 0x33#8 24 = 0x33000000#32 := by decide
  have hword : 0x33000000#32 ||| (idx.setWidth 32 <<< 8) ||| byte.setWidth 32 = encode (.whTbl37 idx byte) := by
    rw [encode, Instr.opcode, Instr.operandArea, htop, placeField_zero, placeField, BitVec.or_assoc]
  rw [hword]
  exact decodeAfterEncodeIsIdentity _ rfl

/-- Settles O20: the table has an entry at exactly the indices below 42. -/
theorem whTbl37UsesTheTable : Obligations.WhTbl37UsesTheTable :=
  fun idx byte => ⟨decode_whTbl37 idx byte, fun s =>
    ⟨fun _ _ hentry => execWhTbl37_of_some hentry byte s, fun hidx => ⟨_, getElem?_whTable37 hidx⟩,
      fun hidx => execWhTbl37_of_none (List.getElem?_eq_none hidx) byte s⟩⟩

/-- Settles O21: both commands join the byte to keystream byte `k` of channel 37. -/
theorem whitenerTableAgreesOnChannel37 : Obligations.WhitenerTableAgreesOnChannel37 := by
  intro k x s hk hwh
  have hbyte : (whitenByte s.wh x).1 = x ^^^ keystreamByte 37#6 k.toNat := by
    rw [whitenByte_eq_xor, hwh, keystreamByte]
  have hsteps : whStep^[8] s.wh = whStep^[8 * (k.toNat + 1)] (whSeed 37#6) := by
    rw [hwh, ← Function.iterate_add_apply, Nat.mul_succ, Nat.add_comm]
  refine ⟨_, _, execWhByte_eq x s, execWhTbl37_of_some (getElem?_whTable37 hk) x s, ?_, ?_, hsteps⟩
  · rw [State.result_rsp, State.result_rsp, hbyte]
  · rw [State.result_res, State.result_res, hbyte]

end Sys2Proof.Machine
end

