-- ==== Sys2Proof/Proofs/PduHeaders.lean ====
section
/-! The PDU header encoders as fields placed side by side (spec/43_pdu_builder.md R180, R184, R187, R189): the number a
header stands for, the fields read back from it, and from these that each encoder is injective (R192). -/

namespace Sys2Proof

/-- A flag placed at bit `lo`. -/
theorem placeField_ofBool (b : Bool) (lo : Nat) :
    placeField (BitVec.ofBool b) lo = if b then 1#32 <<< lo else 0#32 := by
  cases b <;> simp [placeField]

/-- A field placed above the bits of a number adds its shifted value. -/
theorem toNat_or_placeField {v : BitVec 32} {n lo a : Nat} (w : BitVec n) (hv : v.toNat = a) (hbelow : a < 2 ^ lo)
    (hfits : lo + n ≤ 32) : (v ||| placeField w lo).toNat = a + 2 ^ lo * w.toNat := by
  have hplaced : (placeField w lo).toNat = 2 ^ lo * w.toNat := by
    have hlt : w.toNat <<< lo < 2 ^ 32 := calc
      w.toNat <<< lo < 2 ^ (n + lo) := by
        rw [Nat.shiftLeft_eq, Nat.pow_add]
        exact Nat.mul_lt_mul_of_pos_right w.isLt (Nat.two_pow_pos lo)
      _ ≤ 2 ^ 32 := Nat.pow_le_pow_right (by decide) (by omega)
    rw [placeField, BitVec.toNat_shiftLeft, BitVec.toNat_setWidth_of_le (by omega), Nat.mod_eq_of_lt hlt,
      Nat.shiftLeft_eq, Nat.mul_comm]
  rw [BitVec.toNat_or, hv, hplaced, Nat.or_comm, ← Nat.two_pow_add_eq_or_of_lt hbelow, Nat.add_comm]

/-- A flag placed above the bits of a number adds its power of two. -/
theorem toNat_or_placeField_ofBool {v : BitVec 32} {lo a : Nat} (b : Bool) (hv : v.toNat = a) (hbelow : a < 2 ^ lo)
    (hfits : lo < 32) : (v ||| placeField (BitVec.ofBool b) lo).toNat = a + 2 ^ lo * b.toNat := by
  rw [toNat_or_placeField _ hv hbelow hfits, BitVec.toNat_ofBool]

namespace Machine

/-! ## The headers as placed fields -/

theorem bit32_shiftLeft (b : Bool) (lo : Nat) : bit32 b <<< lo = placeField (BitVec.ofBool b) lo := by
  cases b <;> rfl

theorem advHeader_eq_placeField (code : BitVec 4) (tx rx : Bool) (len : BitVec 8) : advHeader code tx rx len =
    placeField code 0 ||| placeField (BitVec.ofBool tx) 6 ||| placeField (BitVec.ofBool rx) 7 ||| placeField len 8 := by
  rw [advHeader, bit32_shiftLeft, bit32_shiftLeft, placeField_zero, placeField]
  rfl

theorem dataHeader_eq_placeField (llid : BitVec 2) (nesn sn md : Bool) (len : BitVec 8) :
    dataHeader llid nesn sn md len = placeField llid 0 ||| placeField (BitVec.ofBool nesn) 2 |||
      placeField (BitVec.ofBool sn) 3 ||| placeField (BitVec.ofBool md) 4 ||| placeField len 8 := by
  rw [dataHeader, bit32_shiftLeft, bit32_shiftLeft, bit32_shiftLeft, placeField_zero, placeField]
  rfl

theorem hopScaOctet_eq_placeField (hop : BitVec 5) (sca : BitVec 3) :
    hopScaOctet hop sca = placeField hop 0 ||| placeField sca 5 := by
  rw [hopScaOctet, placeField_zero, placeField]
  rfl

/-! ## The number a header stands for -/

theorem toNat_placeField_zero {n : Nat} (v : BitVec n) (h : n ≤ 32) : (placeField v 0).toNat = v.toNat := by
  rw [placeField_zero, BitVec.toNat_setWidth_of_le h]

theorem toNat_advHeader (code : BitVec 4) (tx rx : Bool) (len : BitVec 8) :
    (advHeader code tx rx len).toNat = code.toNat + 64 * tx.toNat + 128 * rx.toNat + 256 * len.toNat := by
  have htx := tx.toNat_lt
  have hrx := rx.toNat_lt
  have h0 := toNat_placeField_zero code (by decide)
  have h6 := toNat_or_placeField_ofBool (lo := 6) tx h0 (by omega) (by decide)
  have h7 := toNat_or_placeField_ofBool (lo := 7) rx h6 (by omega) (by decide)
  rw [advHeader_eq_placeField]
  exact toNat_or_placeField (lo := 8) len h7 (by omega) (by decide)

theorem toNat_dataHeader (llid : BitVec 2) (nesn sn md : Bool) (len : BitVec 8) :
    (dataHeader llid nesn sn md len).toNat =
      llid.toNat + 4 * nesn.toNat + 8 * sn.toNat + 16 * md.toNat + 256 * len.toNat := by
  have hnesn := nesn.toNat_lt
  have hsn := sn.toNat_lt
  have hmd := md.toNat_lt
  have h0 := toNat_placeField_zero llid (by decide)
  have h2 := toNat_or_placeField_ofBool (lo := 2) nesn h0 (by omega) (by decide)
  have h3 := toNat_or_placeField_ofBool (lo := 3) sn h2 (by omega) (by decide)
  have h4 := toNat_or_placeField_ofBool (lo := 4) md h3 (by omega) (by decide)
  rw [dataHeader_eq_placeField]
  exact toNat_or_placeField (lo := 8) len h4 (by omega) (by decide)

theorem toNat_hopScaOctet (hop : BitVec 5) (sca : BitVec 3) :
    (hopScaOctet hop sca).toNat = hop.toNat + 32 * sca.toNat := by
  rw [hopScaOctet_eq_placeField]
  exact toNat_or_placeField (lo := 5) sca (toNat_placeField_zero hop (by decide)) hop.isLt (by decide)

/-! ## The fields read back -/

theorem advHeader_fields (code : BitVec 4) (tx rx : Bool) (len : BitVec 8) :
    cmdField (advHeader code tx rx len) 0 4 = code ∧ cmdField (advHeader code tx rx len) 6 1 = BitVec.ofBool tx ∧
      cmdField (advHeader code tx rx len) 7 1 = BitVec.ofBool rx ∧ cmdField (advHeader code tx rx len) 8 8 = len := by
  simp [advHeader_eq_placeField, cmdField_placeField, cmdField_placeField_other]

theorem dataHeader_fields (llid : BitVec 2) (nesn sn md : Bool) (len : BitVec 8) :
    cmdField (dataHeader llid nesn sn md len) 0 2 = llid ∧
      cmdField (dataHeader llid nesn sn md len) 2 1 = BitVec.ofBool nesn ∧
      cmdField (dataHeader llid nesn sn md len) 3 1 = BitVec.ofBool sn ∧
      cmdField (dataHeader llid nesn sn md len) 4 1 = BitVec.ofBool md ∧
      cmdField (dataHeader llid nesn sn md len) 8 8 = len := by
  simp [dataHeader_eq_placeField, cmdField_placeField, cmdField_placeField_other]

theorem hopScaOctet_fields (hop : BitVec 5) (sca : BitVec 3) :
    cmdField (hopScaOctet hop sca) 0 5 = hop ∧ cmdField (hopScaOctet hop sca) 5 3 = sca := by
  simp [hopScaOctet_eq_placeField, cmdField_placeField, cmdField_placeField_other]

/-! ## The link-layer opcodes -/

/-- The codes with an opcode are those from 11 on that the table reaches (R189). -/
theorem llOpcodeOf_eq_some_iff {cfg : Config} {ty : BitVec 5} {o : BitVec 8} : llOpcodeOf cfg ty = some o ↔
    11 ≤ ty.toNat ∧ cfg.llOpcodeTable.toList[ty.toNat - 11]? = some o := by
  rw [llOpcodeOf]
  split <;> simp_all

/-- The table has 14 entries, for the codes up to 24 (R189). -/
theorem getElem?_llOpcodeTable (cfg : Config) {ty : BitVec 5} (h : ty.toNat ≤ 24) :
    ∃ o, cfg.llOpcodeTable.toList[ty.toNat - 11]? = some o :=
  ⟨_, List.getElem?_eq_getElem (by rw [Vector.length_toList]; omega)⟩

/-- No code but a control sub-type's has an opcode (R190). -/
theorem llOpcodeOf_eq_none (cfg : Config) {ty : BitVec 5} (h : ty.toNat ≤ 10 ∨ 25 ≤ ty.toNat) :
    llOpcodeOf cfg ty = none := by
  rw [llOpcodeOf]
  rcases h with below | above
  · rw [if_neg (by omega)]
  · rw [if_pos (by omega)]
    exact List.getElem?_eq_none (by rw [Vector.length_toList]; omega)

/-- In a table without duplicates an opcode belongs to one code (R189). -/
theorem llOpcodeOf_inj {cfg : Config} (hnodup : cfg.llOpcodeTable.toList.Nodup) {ty ty' : BitVec 5} {o : BitVec 8}
    (h : llOpcodeOf cfg ty = some o) (h' : llOpcodeOf cfg ty' = some o) : ty = ty' := by
  obtain ⟨hty, hentry⟩ := llOpcodeOf_eq_some_iff.mp h
  obtain ⟨hty', hentry'⟩ := llOpcodeOf_eq_some_iff.mp h'
  obtain ⟨hlt, -⟩ := List.getElem?_eq_some_iff.mp hentry
  have hidx : ty.toNat - 11 = ty'.toNat - 11 := (List.getElem?_inj hlt hnodup).mp (hentry.trans hentry'.symm)
  exact BitVec.eq_of_toNat_eq (by omega)

/-! ## Injectivity -/

section
variable {code code' : BitVec 4} {llid llid' : BitVec 2} {hop hop' : BitVec 5} {sca sca' : BitVec 3}
  {tx tx' rx rx' nesn nesn' sn sn' md md' : Bool} {len len' : BitVec 8}

theorem advHeader_inj (h : advHeader code tx rx len = advHeader code' tx' rx' len') :
    code = code' ∧ tx = tx' ∧ rx = rx' ∧ len = len' := by
  obtain ⟨hcode, htx, hrx, hlen⟩ := h ▸ advHeader_fields code tx rx len
  obtain ⟨hcode', htx', hrx', hlen'⟩ := advHeader_fields code' tx' rx' len'
  exact ⟨hcode.symm.trans hcode', BitVec.ofBool_eq_iff_eq.mp (htx.symm.trans htx'),
    BitVec.ofBool_eq_iff_eq.mp (hrx.symm.trans hrx'), hlen.symm.trans hlen'⟩

theorem dataHeader_inj (h : dataHeader llid nesn sn md len = dataHeader llid' nesn' sn' md' len') :
    llid = llid' ∧ nesn = nesn' ∧ sn = sn' ∧ md = md' ∧ len = len' := by
  obtain ⟨hllid, hnesn, hsn, hmd, hlen⟩ := h ▸ dataHeader_fields llid nesn sn md len
  obtain ⟨hllid', hnesn', hsn', hmd', hlen'⟩ := dataHeader_fields llid' nesn' sn' md' len'
  exact ⟨hllid.symm.trans hllid', BitVec.ofBool_eq_iff_eq.mp (hnesn.symm.trans hnesn'),
    BitVec.ofBool_eq_iff_eq.mp (hsn.symm.trans hsn'), BitVec.ofBool_eq_iff_eq.mp (hmd.symm.trans hmd'),
    hlen.symm.trans hlen'⟩

theorem hopScaOctet_inj (h : hopScaOctet hop sca = hopScaOctet hop' sca') : hop = hop' ∧ sca = sca' := by
  obtain ⟨hhop, hsca⟩ := h ▸ hopScaOctet_fields hop sca
  obtain ⟨hhop', hsca'⟩ := hopScaOctet_fields hop' sca'
  exact ⟨hhop.symm.trans hhop', hsca.symm.trans hsca'⟩

end

/-- Settles O29: the fields are read back from a header, whatever its length, and the table has no duplicate. -/
theorem headerEncodersAreInjective : Obligations.HeaderEncodersAreInjective :=
  ⟨fun _ _ _ _ _ _ _ _ _ _ => advHeader_inj, fun _ _ _ _ _ _ _ _ _ _ _ _ => dataHeader_inj,
    fun _ _ _ _ => hopScaOctet_inj, fun _ _ _ _ hwf => llOpcodeOf_inj hwf.llOpcodeNodup⟩

end Machine
end Sys2Proof
end

