-- ==== Sys2Proof/Proofs/PduCommands.lean ====
section
/-! The PDU builder's commands (spec/43_pdu_builder.md): `HDR_ADV`, `HDR_DATA`, `HOP_SCA` and `LL_OPCODE`, each with its
word (spec/30_encoding.md R100), and the two warnings with what `STRICT_RESERVED` makes of them. -/

namespace Sys2Proof.Machine

/-! ## The words -/

theorem decode_hdrAdv (ty : BitVec 5) (tx rx : Bool) (len : BitVec 8) :
    decode (0x40000000#32 ||| (len.setWidth 32 <<< 8) ||| (if rx then 0x40#32 else 0#32) |||
      (if tx then 0x20#32 else 0#32) ||| ty.setWidth 32) = .ok (.hdrAdv ty tx rx len) := by
  rw [← decodeAfterEncodeIsIdentity (.hdrAdv ty tx rx len) rfl, encode, Instr.opcode, Instr.operandArea,
    placeField_ofBool, placeField_ofBool, placeField_zero]
  simp only [BitVec.or_assoc]
  rfl

theorem decode_hdrData (llid : BitVec 2) (nesn sn md : Bool) (len : BitVec 8) :
    decode (0x41000000#32 ||| (len.setWidth 32 <<< 8) ||| (if md then 0x10#32 else 0#32) |||
      (if sn then 0x8#32 else 0#32) ||| (if nesn then 0x4#32 else 0#32) ||| llid.setWidth 32) =
      .ok (.hdrData llid nesn sn md len) := by
  rw [← decodeAfterEncodeIsIdentity (.hdrData llid nesn sn md len) rfl, encode, Instr.opcode, Instr.operandArea,
    placeField_ofBool, placeField_ofBool, placeField_ofBool, placeField_zero]
  simp only [BitVec.or_assoc]
  rfl

theorem decode_hopSca (hop : BitVec 5) (sca : BitVec 3) :
    decode (0x42000000#32 ||| (sca.setWidth 32 <<< 5) ||| hop.setWidth 32) = .ok (.hopSca hop sca) := by
  rw [← decodeAfterEncodeIsIdentity (.hopSca hop sca) rfl, encode, Instr.opcode, Instr.operandArea, placeField_zero,
    BitVec.or_assoc]
  rfl

/-! ## A warning under both settings -/

/-- The bits that a warning, or its rejection, sets are joined in one mask. -/
theorem setBit_setBit (v : BitVec 32) {i j : Nat} {mask : BitVec 32}
    (hmask : BitVec.twoPow 32 i ||| BitVec.twoPow 32 j = mask) : setBit (setBit v i) j = v ||| mask := by
  rw [setBit, setBit, BitVec.or_assoc, hmask]

/-- A warning recorded, as one update (R256). -/
theorem State.warn_eq_of_lenient {s : State} (lenient : s.cfg.strictReserved = false) {w : Warning} (r : BitVec 32)
    {mask : BitVec 32} (hmask : BitVec.twoPow 32 statusWarn ||| BitVec.twoPow 32 (warningBit w) = mask) :
    s.warn w r = { s with res := r, status := s.status ||| mask, rsp := some ⟨warningCode w, r⟩ } := by
  rw [State.warn_lenient w r s lenient, State.recordWarning, setBit_setBit _ hmask]

/-- A warning rejected, as one update (R258). -/
theorem State.warn_eq_of_strict {s : State} (strict : s.cfg.strictReserved = true) {w : Warning} (r : BitVec 32)
    {mask : BitVec 32} (hmask : BitVec.twoPow 32 statusErr ||| BitVec.twoPow 32 (warningBit w) = mask) :
    s.warn w r = { s with
      status := s.status ||| mask, lasterr := warningCode w, rsp := some ⟨warningCode w, 0xFFFFFFFF#32⟩ } := by
  rw [State.warn_strict w r s strict, State.abandon, setBit_setBit _ hmask]

/-! ## `HDR_ADV` -/

/-- Settles O25: the map evaluated on the 32 codes. -/
theorem advTypeCodesAreTheMap : Obligations.AdvTypeCodesAreTheMap := by
  unfold Obligations.AdvTypeCodesAreTheMap
  decide

section
variable {ty : BitVec 5} {len : BitVec 8} {s : State}

/-- A length that fits and a type with a code: the header is answered (R181). -/
theorem execHdrAdv_of_type (tx rx : Bool) (fits : len.toNat ≤ maxInfoByte)
    (hcode : advTypeCode (pktTypeOf ty) ≠ 0xF#4) :
    execHdrAdv ty tx rx len s = .next (s.result (advHeader (advTypeCode (pktTypeOf ty)) tx rx len)) := by
  rw [execHdrAdv, if_neg (Nat.not_lt.mpr fits)]
  exact if_neg hcode

/-- A length that fits and a reserved type: the header with the warning (R181). -/
theorem execHdrAdv_of_reserved (tx rx : Bool) (fits : len.toNat ≤ maxInfoByte)
    (hcode : advTypeCode (pktTypeOf ty) = 0xF#4) : execHdrAdv ty tx rx len s =
      .next (s.warn .reservedPduType (advHeader (advTypeCode (pktTypeOf ty)) tx rx len)) := by
  rw [execHdrAdv, if_neg (Nat.not_lt.mpr fits)]
  exact if_pos hcode

end

/-- Settles O24: the length check, then the type's, then the setting of `STRICT_RESERVED`. -/
theorem hdrAdvEncodesTheHeader : Obligations.HdrAdvEncodesTheHeader := by
  refine fun ty tx rx len => ⟨decode_hdrAdv ty tx rx len, fun s => ⟨fun long => if_pos long, fun fits => ?_⟩⟩
  refine ⟨advHeader (advTypeCode (pktTypeOf ty)) tx rx len, toNat_advHeader _ tx rx len,
    execHdrAdv_of_type tx rx fits, fun hcode lenient => ?_, fun hcode strict => ?_⟩
  · rw [exec, execHdrAdv_of_reserved tx rx fits hcode, State.warn_eq_of_lenient lenient _ (mask := 0x00010002#32) rfl]
    rfl
  · rw [exec, execHdrAdv_of_reserved tx rx fits hcode, State.warn_eq_of_strict strict _ (mask := 0x00010001#32) rfl]
    rfl

/-! ## `HDR_DATA` and `HOP_SCA` -/

/-- Settles O26: the two branches of the length check. -/
theorem hdrDataEncodesTheHeader : Obligations.HdrDataEncodesTheHeader :=
  fun llid nesn sn md len => ⟨decode_hdrData llid nesn sn md len, fun _ =>
    ⟨fun long => if_pos long, fun fits =>
      ⟨dataHeader llid nesn sn md len, toNat_dataHeader llid nesn sn md len, if_neg (Nat.not_lt.mpr fits)⟩⟩⟩

/-- Settles O27: no check, so the octet in every state. -/
theorem hopScaEncodesTheOctet : Obligations.HopScaEncodesTheOctet :=
  fun hop sca => ⟨decode_hopSca hop sca, fun _ => ⟨hopScaOctet hop sca, toNat_hopScaOctet hop sca, rfl⟩⟩

/-! ## `LL_OPCODE` -/

/-- A control sub-type: its opcode is answered (R190). -/
theorem execLlOpcode_of_some {s : State} {ty : BitVec 5} {o : BitVec 8} (h : llOpcodeOf s.cfg ty = some o) :
    execLlOpcode ty s = .next (s.result (zext32 o)) := by rw [execLlOpcode, h]

/-- Any other code: 0xFF with the warning (R190). -/
theorem execLlOpcode_of_none {s : State} {ty : BitVec 5} (h : llOpcodeOf s.cfg ty = none) :
    execLlOpcode ty s = .next (s.warn .reservedOpcode 0xFF#32) := by rw [execLlOpcode, h]

/-- Settles O28: the codes 11 to 24 have an entry, and the others answer the warning under both settings. -/
theorem llOpcodeAnswersTheTable : Obligations.LlOpcodeAnswersTheTable := by
  refine fun ty => ⟨decode_or_operand 0x43 (by decide) rfl rfl rfl, fun s =>
    ⟨fun hlow hhigh => ?_, fun hother => ?_⟩⟩
  · obtain ⟨o, hentry⟩ := getElem?_llOpcodeTable s.cfg hhigh
    exact ⟨o, hentry, execLlOpcode_of_some (llOpcodeOf_eq_some_iff.mpr ⟨hlow, hentry⟩)⟩
  · have hwarn := execLlOpcode_of_none (llOpcodeOf_eq_none s.cfg hother)
    refine ⟨fun lenient => ?_, fun strict => ?_⟩
    · rw [exec, hwarn, State.warn_eq_of_lenient lenient _ (mask := 0x00020002#32) rfl]
      rfl
    · rw [exec, hwarn, State.warn_eq_of_strict strict _ (mask := 0x00020001#32) rfl]
      rfl

end Sys2Proof.Machine
end

