-- ==== Sys2Proof/Proofs/PacketRegion.lean ====
section
/-! The region that `ASSEMBLE` whitens (spec/44_assembler.md R200, R204, R205): on either path it is the region joined to
the path's keystream, and on channel 37 the two keystreams are one. -/

namespace Sys2Proof.Machine

/-- The LFSR goes eight steps on for each byte (R164, R205). -/
theorem whitenBytes_state (w : BitVec 7) (xs : List (BitVec 8)) : (whitenBytes w xs).2 = whStep^[8 * xs.length] w := by
  induction xs generalizing w with
  | nil => rfl
  | cons x xs ih =>
    rw [whitenBytes, ih, whitenByte_state, ← Function.iterate_add_apply, List.length_cons, Nat.mul_succ]

/-- The region is the packet without its lead bytes and with the CRC (R200, R205). -/
theorem length_region {bytes : List (BitVec 8)} (long : 5 ≤ bytes.length) (crc : BitVec 24) :
    (bytes.drop 5 ++ crcToBytes crc).length = bytes.length - 2 := by
  rw [List.length_append, List.length_drop, length_crcToBytes]
  omega

/-- Byte `j` of a region the channel-37 table reaches meets entry `j` (R167, R200). -/
theorem getElem?_whitenBytesTable {xs : List (BitVec 8)} (h : xs.length ≤ 42) (j : Nat) :
    (whitenBytesTable xs)[j]? = xs[j]?.map (· ^^^ whTable37.getD j 0) := by
  rw [whitenBytesTable, List.getElem?_zipWith]
  by_cases hj : j < xs.length
  · rw [List.getD_eq_getElem?_getD, getElem?_whTable37 (by omega), List.getElem?_eq_getElem hj]
    rfl
  · rw [List.getElem?_eq_none (Nat.not_lt.mp hj)]
    rfl

/-- Byte `j` of the region meets byte `j` of the path's keystream (R204). -/
theorem getElem?_whitenRegion (path : Path) (s : State) {xs : List (BitVec 8)} (h : xs.length ≤ 42) (j : Nat) :
    (whitenRegion path s xs).1[j]? = xs[j]?.map (· ^^^ pathKeystream path s.chan j) := by
  cases path with
  | bitSerial =>
    rw [whitenRegion, getElem?_whitenBytes]
    exact congrArg (xs[j]?.map ·) (funext fun x => whitenByte_eq_xor _ x)
  | table => exact getElem?_whitenBytesTable h j

/-- On channel 37 both paths have the same keystream, as far as the table reaches (R169). -/
theorem pathKeystream_channel37 (path : Path) {j : Nat} (hj : j < 42) :
    pathKeystream path 37#6 j = keystreamByte 37#6 j := by
  cases path with
  | bitSerial => rfl
  | table => rw [pathKeystream, List.getD_eq_getElem?_getD, getElem?_whTable37 hj, Option.getD_some]

/-- On channel 37 both paths whiten a region to the same bytes (R205). -/
theorem whitenRegion_paths_agree {s : State} (hchan : s.chan = 37#6) {xs : List (BitVec 8)} (h : xs.length ≤ 42) :
    (whitenRegion .table s xs).1 = (whitenRegion .bitSerial s xs).1 := by
  refine List.ext_getElem? fun j => ?_
  rw [getElem?_whitenRegion _ s h, getElem?_whitenRegion _ s h, hchan]
  by_cases hj : j < xs.length
  · rw [pathKeystream_channel37 .table (by omega), pathKeystream_channel37 .bitSerial (by omega)]
  · rw [List.getElem?_eq_none (Nat.not_lt.mp hj), Option.map_none, Option.map_none]

end Sys2Proof.Machine
end

