-- ==== Sys2Proof/Proofs/AssembleCommand.lean ====
section
/-! `ASSEMBLE` (spec/44_assembler.md): its two refusals, the one state it completes with, what the buffers of that state
read, and what a second `ASSEMBLE` finds. -/

namespace Sys2Proof.Machine

/-! ## The refusals -/

/-- With fewer than five bytes there is no packet (R201). -/
theorem execAssemble_of_short {s : State} (path : Path) (short : s.numInfoByte.toNat < leadBytes) :
    execAssemble path s = .next (s.raise .packetTooShort) := if_pos short

/-- The table path whitens for channel 37 alone (R202). -/
theorem execAssemble_of_mismatch {s : State} {path : Path} (long : leadBytes ≤ s.numInfoByte.toNat)
    (mismatch : path = .table ∧ s.chan ≠ 37) : execAssemble path s = .next (s.raise .tableChannelMismatch) := by
  rw [execAssemble, if_neg (Nat.not_lt.mpr long)]
  exact if_pos mismatch

/-- Settles O31: the two refusals, in the order of their checks. -/
theorem assembleRefusesShortOrMismatched : Obligations.AssembleRefusesShortOrMismatched :=
  fun _ => ⟨fun path short => execAssemble_of_short path (Nat.lt_succ_of_le short),
    fun long other => execAssemble_of_mismatch long ⟨rfl, other⟩⟩

/-! ## Completion -/

/-- The state `ASSEMBLE` completes with on the packet read: the CRC of the body from `CRCINIT`, and the count of the on-air
packet as the response (R200). -/
def State.packetAssembled (path : Path) (bytes : List (BitVec 8)) (s : State) : State :=
  (s.assembled path bytes (crcOver path s.crcInit (bytes.drop 5))).respond (zext32 (s.numInfoByte + 3))

/-- A packet of 5 to 43 bytes that can be read is assembled: `INFO` and `PHY` have room for it and its CRC (R200, R203). -/
theorem execAssemble_of_packet {s : State} {path : Path} {bytes : List (BitVec 8)}
    (long : leadBytes ≤ s.numInfoByte.toNat) (fits : s.numInfoByte.toNat ≤ 43) (legal : ¬(path = .table ∧ s.chan ≠ 37))
    (read : loadRange .info s.info 0 s.numInfoByte.toNat = .ok bytes) :
    execAssemble path s = .next (s.packetAssembled path bytes) := by
  have hlen : bytes.length = s.numInfoByte.toNat := (loadRange_eq_ok.mp read).1
  have hinfo (crc : BitVec 24) : store .info s.info s.numInfoByte.toNat (crcToBytes crc) =
      .ok (s.info.write s.numInfoByte.toNat (crcToBytes crc)) :=
    store_eq_ok.mpr ⟨show s.numInfoByte.toNat + 3 ≤ 46 by omega, rfl⟩
  have hphy (crc : BitVec 24) :
      store .phy s.phy 0 (bytes.take leadBytes ++ (whitenRegion path s (bytes.drop leadBytes ++ crcToBytes crc)).1) =
        .ok (s.phy.write 0 (bytes.take 5 ++ (whitenRegion path s (bytes.drop 5 ++ crcToBytes crc)).1)) :=
    store_eq_ok.mpr ⟨by
      rw [length_onAir path s (hlen ▸ long) (hlen ▸ fits), hlen]
      show 0 + (s.numInfoByte.toNat + 3) ≤ 47
      omega, rfl⟩
  rw [execAssemble, if_neg (Nat.not_lt.mpr long), if_neg legal, read, orStop_ok]
  simp only [hinfo, hphy, orStop_ok]
  rfl

/-- Everything `ASSEMBLE` can answer: one of the two refusals, or the packet assembled. -/
theorem execAssemble_eq_next {s t : State} {path : Path} (h : execAssemble path s = .next t) :
    (s.numInfoByte.toNat < leadBytes ∧ t = s.raise .packetTooShort) ∨
      (leadBytes ≤ s.numInfoByte.toNat ∧ (path = .table ∧ s.chan ≠ 37) ∧ t = s.raise .tableChannelMismatch) ∨
      (leadBytes ≤ s.numInfoByte.toNat ∧ s.numInfoByte.toNat ≤ 43 ∧ ¬(path = .table ∧ s.chan ≠ 37) ∧
        ∃ bytes, loadRange .info s.info 0 s.numInfoByte.toNat = .ok bytes ∧ t = s.packetAssembled path bytes) := by
  rcases execAssemble_cases h with hshort | ⟨long, htable, hchan, ht⟩ |
    ⟨long, legal, bytes, crc, region, read, hcrc, hregion, hroom, -, ht⟩
  · exact .inl hshort
  · exact .inr (.inl ⟨long, ⟨htable, hchan⟩, ht⟩)
  · have fits : s.numInfoByte.toNat ≤ 43 := Nat.le_of_add_le_add_right (show s.numInfoByte.toNat + 3 ≤ 43 + 3 from hroom)
    subst hcrc hregion
    exact .inr (.inr ⟨long, fits, legal, bytes, read, ht⟩)

/-! ## What the assembled packet reads -/

section
variable {s : State} {bytes : List (BitVec 8)} (path : Path)

/-- `INFO` reads the packet and its CRC behind it (R203). -/
theorem read_info_packetAssembled (hlen : bytes.length = s.numInfoByte.toNat) (hbytes : holds s.info 0 bytes) {a : Nat}
    (ha : a < bytes.length + 3) : (s.packetAssembled path bytes).info.read a =
      (bytes ++ crcToBytes (crcOver path s.crcInit (bytes.drop 5)))[a]? := by
  change (s.info.write s.numInfoByte.toNat _).read a = _
  rw [← hlen]
  by_cases hin : a < bytes.length
  · rw [Memory.read_write_other _ _ _ _ (.inl hin), List.getElem?_append_left hin]
    simpa using hbytes a hin
  · rw [Memory.read_write, if_pos ⟨Nat.not_lt.mp hin, ha⟩, List.getElem?_append_right (Nat.not_lt.mp hin)]

/-- Outside the three bytes of the CRC `INFO` reads as before (R203). -/
theorem read_info_packetAssembled_other (hlen : bytes.length = s.numInfoByte.toNat) {a : Nat}
    (ha : a < bytes.length ∨ bytes.length + 3 ≤ a) : (s.packetAssembled path bytes).info.read a = s.info.read a :=
  Memory.read_write_other _ _ _ _ (hlen ▸ ha)

variable (long : 5 ≤ bytes.length) (fits : bytes.length ≤ 43)
include long fits

/-- `PHY` reads the lead bytes and the whitened region (R203). -/
theorem read_phy_packetAssembled {m : Nat} (hm : m < bytes.length + 3) : (s.packetAssembled path bytes).phy.read m =
    (bytes.take 5 ++ (whitenRegion path s
      (bytes.drop 5 ++ crcToBytes (crcOver path s.crcInit (bytes.drop 5)))).1)[m]? := by
  refine (Memory.read_write _ _ _ m).trans (if_pos ⟨Nat.zero_le m, ?_⟩)
  rw [length_onAir path s long fits, Nat.zero_add]
  exact hm

theorem read_phy_packetAssembled_lead {m : Nat} (hm : m < 5) :
    (s.packetAssembled path bytes).phy.read m = bytes[m]? := by
  rw [read_phy_packetAssembled path long fits (by omega), List.getElem?_append_left (by simp; omega),
    List.getElem?_take_of_lt hm]

/-- Behind the lead bytes `PHY` reads the bytes of `INFO` under the path's keystream (R204). -/
theorem read_phy_packetAssembled_region {m : Nat} (hlow : 5 ≤ m) (hm : m < bytes.length + 3) :
    (s.packetAssembled path bytes).phy.read m =
      (bytes ++ crcToBytes (crcOver path s.crcInit (bytes.drop 5)))[m]?.map (· ^^^ pathKeystream path s.chan (m - 5)) := by
  have hlead : (bytes.take 5).length = 5 := List.length_take_of_le long
  rw [read_phy_packetAssembled path long fits hm, List.getElem?_append_right (hlead.trans_le hlow), hlead,
    getElem?_whitenRegion path s (by rw [length_region long]; omega), ← List.drop_append_of_le_length long, List.getElem?_drop,
    Nat.add_sub_cancel' hlow]

/-- Behind the on-air packet `PHY` reads as before (R203). -/
theorem read_phy_packetAssembled_other {a : Nat} (ha : bytes.length + 3 ≤ a) :
    (s.packetAssembled path bytes).phy.read a = s.phy.read a :=
  Memory.read_write_other _ _ _ _ (.inr (by rwa [length_onAir path s long fits, Nat.zero_add]))

end

/-- Path 0 leaves `WH` behind the region, eight steps for each of its bytes (R205). -/
theorem packetAssembled_wh_bitSerial {s : State} {bytes : List (BitVec 8)} (long : 5 ≤ bytes.length) :
    (s.packetAssembled .bitSerial bytes).wh = whStep^[8 * (bytes.length - 2)] (whSeed s.chan) := by
  rw [← length_region long]
  exact whitenBytes_state _ _

/-- `ASSEMBLE` as one update of the state (R200, R203). -/
theorem packetAssembled_eq {s : State} {bytes : List (BitVec 8)} (path : Path)
    (hlen : bytes.length = s.numInfoByte.toNat) (fits : bytes.length ≤ 43) : s.packetAssembled path bytes = { s with
      crc := (s.packetAssembled path bytes).crc
      wh := (s.packetAssembled path bytes).wh
      info := (s.packetAssembled path bytes).info
      phy := (s.packetAssembled path bytes).phy
      numPhyByte := s.numInfoByte + 3
      status := s.status ||| 0x00000004#32
      rsp := some ⟨0x00#8, BitVec.ofNat 32 (bytes.length + 3)⟩ } := by
  have hcount : zext32 (s.numInfoByte + 3) = BitVec.ofNat 32 (bytes.length + 3) := by
    rw [hlen, zext32]
    bv_omega
  rw [← hcount]
  rfl

/-- The two words of the command. -/
theorem decode_assemble (path : Path) :
    decode (0x50000000#32 ||| (BitVec.ofBool path.toBit).setWidth 32) = .ok (.assemble path) :=
  decode_or_operand 0x50 (by decide) rfl rfl rfl

/-- Settles O30: the packet read at once, and what the assembled packet reads index by index. -/
theorem assembleBuildsThePacket : Obligations.AssembleBuildsThePacket := by
  refine ⟨decode_assemble .bitSerial, decode_assemble .table, fun path s bytes hlen long fits hbytes hchan => ?_⟩
  have read : loadRange .info s.info 0 s.numInfoByte.toNat = .ok bytes :=
    loadRange_eq_ok.mpr ⟨hlen, fun k hk => ⟨show 0 + k < 46 by omega, hbytes k (hlen ▸ hk)⟩⟩
  have hinfo {a : Nat} := read_info_packetAssembled path hlen hbytes (a := a)
  have hcrc (k : Nat) (hk : k < 3) : (s.packetAssembled path bytes).info.read (bytes.length + k) =
      (crcToBytes (s.packetAssembled path bytes).crc)[k]? := by
    rw [hinfo (by omega), List.getElem?_append_right (by omega), Nat.add_sub_cancel_left]
    rfl
  refine ⟨s.packetAssembled path bytes, execAssemble_of_packet (hlen ▸ long) (hlen ▸ fits) (fun h => h.2 (hchan h.1)) read,
    rfl, hcrc 0 (by decide), hcrc 1 (by decide), hcrc 2 (by decide),
    fun _ => read_info_packetAssembled_other path hlen, fun m hm => ?_, fun m b hlow hm hb => ?_,
    fun _ => read_phy_packetAssembled_other path long fits, ?_, packetAssembled_eq path hlen fits⟩
  · rw [read_phy_packetAssembled_lead path long fits hm, hinfo (by omega), List.getElem?_append_left (by omega)]
  · rw [read_phy_packetAssembled_region path long fits hlow hm, ← hinfo hm, hb, Option.map_some]
  · cases path with
    | bitSerial => exact packetAssembled_wh_bitSerial long
    | table => rfl

/-! ## The two paths -/

/-- On channel 37 the two paths assemble states that differ in `WH` only (R205). -/
theorem packetAssembled_table {s : State} {bytes : List (BitVec 8)} (hchan : s.chan = 37) (long : 5 ≤ bytes.length)
    (fits : bytes.length ≤ 43) :
    s.packetAssembled .table bytes = { s.packetAssembled .bitSerial bytes with wh := s.wh } := by
  have hregion (crc : BitVec 24) : (whitenRegion .table s (bytes.drop 5 ++ crcToBytes crc)).1 =
      (whitenRegion .bitSerial s (bytes.drop 5 ++ crcToBytes crc)).1 :=
    whitenRegion_paths_agree hchan (by rw [length_region long]; omega)
  rw [State.packetAssembled, State.packetAssembled, crcOver_eq, crcOver_eq, State.assembled, hregion]
  rfl

/-- Settles O32: the invariant keeps the packet readable and below 44 bytes, so both paths complete. -/
theorem assemblePathsAgreeOnChannel37 : Obligations.AssemblePathsAgreeOnChannel37 := by
  intro s hinv long hchan
  have fits := hinv.infoBound
  obtain ⟨bytes, read⟩ : ∃ bytes, loadRange .info s.info 0 s.numInfoByte.toNat = .ok bytes :=
    hinv.infoFilled.loadRange ((Nat.zero_add _).trans_le (le_infoLimit s)) hinv.infoLimit_le_capacity
  have hlen : bytes.length = s.numInfoByte.toNat := (loadRange_eq_ok.mp read).1
  have hexec (path : Path) : exec (.assemble path) s = .next (s.packetAssembled path bytes) :=
    execAssemble_of_packet long fits (fun h => h.2 hchan) read
  rw [← hlen] at long ⊢
  refine ⟨s.packetAssembled .bitSerial bytes, hexec .bitSerial, ?_, ?_⟩
  · rw [hexec, packetAssembled_table hchan long (hlen.trans_le fits)]
  · rw [packetAssembled_wh_bitSerial long, hchan]

/-! ## A second `ASSEMBLE` -/

/-- An error raised again finds its flags set (R255). -/
theorem State.raise_raise (e : Err) (s : State) : (s.raise e).raise e = s.raise e := by
  simp only [State.raise, State.abandon, setBit_setBit _ rfl, BitVec.or_assoc, BitVec.or_self]

/-- A write of the same range keeps nothing of the write before it. -/
theorem Memory.write_write {α : Type} (m : Memory α) (base : Nat) {vs ws : List α} (h : vs.length = ws.length) :
    (m.write base vs).write base ws = m.write base ws := by
  have hcellsLow : (Memory.cellsFrom base vs).filter (fun c => decide (c.1 < base)) = [] :=
    List.filter_eq_nil_iff.mpr fun c hc => by simpa using (Memory.mem_cellsFrom hc).1
  have hcellsHigh : (Memory.cellsFrom base vs).filter (fun c => decide (base + ws.length ≤ c.1)) = [] :=
    List.filter_eq_nil_iff.mpr fun c hc => by simpa [h] using (Memory.mem_cellsFrom hc).2.1
  have hhighLow : (m.filter fun c => decide (base + ws.length ≤ c.1)).filter (fun c => decide (c.1 < base)) = [] :=
    List.filter_eq_nil_iff.mpr fun c hc => by grind
  have hlowHigh : (m.filter fun c => decide (c.1 < base)).filter (fun c => decide (base + ws.length ≤ c.1)) = [] :=
    List.filter_eq_nil_iff.mpr fun c hc => by grind
  simp [Memory.write, h, hcellsLow, hcellsHigh, hhighLow, hlowHigh]

/-- A write behind a range leaves what the range reads (R71). -/
theorem loadRange_write_behind {α : Type} {b : BufferId} {m : Memory α} {base n base' : Nat} {xs : List α}
    (h : loadRange b m base n = .ok xs) (behind : base + n ≤ base') (vs : List α) :
    loadRange b (m.write base' vs) base n = .ok xs := by
  obtain ⟨hlen, hread⟩ := loadRange_eq_ok.mp h
  refine loadRange_eq_ok.mpr ⟨hlen, fun k hk => ⟨(hread k hk).1, ?_⟩⟩
  rw [Memory.read_write_other _ _ _ _ (.inl (by omega)), (hread k hk).2]

/-- `ASSEMBLE` leaves what the whitening of its region depends on: `CHAN`, and on path 1 `WH` (R205). -/
theorem whitenRegion_packetAssembled (path : Path) (s : State) (bytes xs : List (BitVec 8)) :
    whitenRegion path (s.packetAssembled path bytes) xs = whitenRegion path s xs := by cases path <;> rfl

/-- Assembling the same packet again writes what stands there (R206). -/
theorem packetAssembled_packetAssembled (path : Path) (s : State) (bytes : List (BitVec 8)) :
    (s.packetAssembled path bytes).packetAssembled path bytes = s.packetAssembled path bytes := by
  have hinfo (crc : BitVec 24) := Memory.write_write s.info s.numInfoByte.toNat (rfl : (crcToBytes crc).length = _)
  have hphy (vs : List (BitVec 8)) := Memory.write_write s.phy 0 (rfl : vs.length = _)
  rw [State.packetAssembled, State.assembled, whitenRegion_packetAssembled]
  simp only [State.packetAssembled, State.assembled, State.respond, hinfo, hphy, setBit, BitVec.or_assoc, BitVec.or_self]

/-- Settles O33: a refusal leaves its own condition standing, and the packet read lies below the write to `INFO`. -/
theorem assembleIsIdempotent : Obligations.AssembleIsIdempotent := by
  intro path s t (h : execAssemble path s = .next t)
  change execAssemble path t = .next t
  rcases execAssemble_eq_next h with ⟨short, rfl⟩ | ⟨long, mismatch, rfl⟩ | ⟨long, fits, legal, bytes, read, rfl⟩
  · rw [execAssemble_of_short (s := s.raise .packetTooShort) path short, State.raise_raise]
  · rw [execAssemble_of_mismatch (s := s.raise .tableChannelMismatch) long mismatch, State.raise_raise]
  · have reread : loadRange .info (s.packetAssembled path bytes).info 0 s.numInfoByte.toNat = .ok bytes :=
      loadRange_write_behind read (Nat.zero_add _).le _
    rw [execAssemble_of_packet (s := s.packetAssembled path bytes) long fits legal reread,
      packetAssembled_packetAssembled]

end Sys2Proof.Machine
end

