-- ==== Sys2Proof/Proofs/ImpulseTrain.lean ====
section
/-! The FIR output of the modulator (spec/45_gfsk.md R212, R213): the impulse train element by element, what its elements
add up to, and the model's increments as the sum that R213 writes out. -/

namespace Sys2Proof.Machine

/-! ## Lists as sums over their indices -/

/-- The elements of a list, 0 beyond its end, add up to its sum. -/
theorem sum_range_getD (l : List Int) : ∑ i ∈ Finset.range l.length, l.getD i 0 = l.sum := by
  rw [Finset.sum_range, ← Fin.sum_univ_getElem]
  exact Finset.sum_congr rfl fun i _ => List.getD_eq_getElem l 0 i.isLt

/-- The sequence may end before the coefficients do: beyond its end it counts as 0. -/
theorem sumOfProducts_eq_sum (c x : List Int) :
    sumOfProducts c x = ∑ k ∈ Finset.range c.length, c.getD k 0 * x.getD k 0 := by
  induction c generalizing x with
  | nil => rfl
  | cons a c ih =>
    rw [List.length_cons, Finset.sum_range_succ']
    cases x with
    | nil => simp [sumOfProducts]
    | cons b x =>
      have hcons : sumOfProducts (a :: c) (b :: x) = a * b + sumOfProducts c x := by simp [sumOfProducts]
      rw [hcons, ih, add_comm]
      rfl

/-! ## The impulse train -/

/-- A bit of 1 counts up, a bit of 0 down (R212). -/
def bitBalance (bits : List Bool) : Int := (bits.count true : Int) - bits.count false

/-- Behind the leading zeros the first bit has its impulse (R212). -/
theorem impulseAt_cons_zero (b : Bool) (bits : List Bool) : impulseAt (b :: bits) 16 = if b then 1 else -1 := by
  cases b <;> rfl

/-- Between two impulses there is nothing (R212). -/
theorem impulseAt_of_mod_ne {bits : List Bool} {i : Nat} (h : (i - 16) % 4 ≠ 0) : impulseAt bits i = 0 :=
  if_neg fun h' => h h'.2

/-- The train of the later bits is the train of all of them, one symbol on (R212). -/
theorem impulseAt_cons_add_four (b : Bool) (bits : List Bool) (i : Nat) :
    impulseAt (b :: bits) (16 + (i + 4)) = impulseAt bits (16 + i) := by
  have hbit : (16 + (i + 4) - 16) / 4 = (16 + i - 16) / 4 + 1 := by omega
  have hplace : (16 ≤ 16 + (i + 4) ∧ (16 + (i + 4) - 16) % 4 = 0) ↔ (16 ≤ 16 + i ∧ (16 + i - 16) % 4 = 0) := by omega
  simp only [impulseAt, hplace, hbit, List.getElem?_cons_succ]

/-- Before the first bit and behind the last impulse the train is 0 (R212). -/
theorem impulseAt_eq_zero {bits : List Bool} {i : Nat} (h : i < 16 ∨ 4 * bits.length + 13 ≤ i) :
    impulseAt bits i = 0 := by
  unfold impulseAt
  split
  · next hplace => rw [List.getElem?_eq_none (by omega)]
  · rfl

/-- Behind the leading zeros the model's train is R212's. -/
theorem getD_symbolImpulses (bits : List Bool) (i : Nat) :
    (bits.flatMap symbolImpulse ++ List.replicate settle 0).getD i 0 = impulseAt bits (16 + i) := by
  induction bits generalizing i with
  | nil =>
    rw [impulseAt_eq_zero (.inr (by simp; omega)), List.flatMap_nil, List.nil_append,
      List.getD_eq_getElem?_getD]
    exact List.getElem?_getD_replicate_default_eq 0 settle i
  | cons b bits ih =>
    match i with
    | 0 => exact (impulseAt_cons_zero b bits).symm
    | 1 | 2 | 3 => exact (impulseAt_of_mod_ne (by decide)).symm
    | i + 4 => exact (ih i).trans (impulseAt_cons_add_four b bits i).symm

/-- The model's impulse train is R212's. -/
theorem getD_impulseTrain (bits : List Bool) (i : Nat) : (impulseTrain bits).getD i 0 = impulseAt bits i := by
  rw [impulseTrain]
  by_cases h : i < 16
  · rw [impulseAt_eq_zero (.inl h), List.getD_append _ _ _ _ (by simpa using h), List.getD_replicate _ h]
  · rw [List.getD_append_right _ _ _ _ (by simpa using h), getD_symbolImpulses, List.length_replicate,
      Nat.add_sub_cancel' (Nat.not_lt.mp h)]

/-- The train adds up to the ones less the zeros. -/
theorem sum_impulseTrain (bits : List Bool) : (impulseTrain bits).sum = bitBalance bits := by
  have hsymbols : (bits.flatMap symbolImpulse).sum = bitBalance bits := by
    induction bits with
    | nil => rfl
    | cons b bits ih =>
      rw [List.flatMap_cons, List.sum_append, ih, bitBalance, bitBalance]
      cases b <;> simp [symbolImpulse] <;> omega
  simp [impulseTrain, hsymbols]

/-- A stretch that begins with the leading zeros at the latest and ends behind the last impulse holds every impulse. -/
theorem sum_impulseAt_window {bits : List Bool} {a n : Nat} (start : a ≤ 16) (stop : 4 * bits.length + 13 ≤ a + n)
    (inside : a + n ≤ 4 * bits.length + 32) : ∑ i ∈ Finset.range n, impulseAt bits (a + i) = bitBalance bits := by
  calc ∑ i ∈ Finset.range n, impulseAt bits (a + i)
      = ∑ i ∈ Finset.Ico a (a + n), impulseAt bits i := by rw [Finset.sum_Ico_eq_sum_range, Nat.add_sub_cancel_left]
    _ = ∑ i ∈ Finset.range (4 * bits.length + 32), impulseAt bits i := by
        refine Finset.sum_subset (fun i hi => ?_) fun i _ hi => impulseAt_eq_zero ?_
        · rw [Finset.mem_Ico] at hi
          rw [Finset.mem_range]
          omega
        · rw [Finset.mem_Ico] at hi
          omega
    _ = bitBalance bits := by
        rw [← sum_impulseTrain, ← sum_range_getD, length_impulseTrain]
        exact Finset.sum_congr rfl fun i _ => (getD_impulseTrain bits i).symm

/-- Inverting every bit negates the train (R226). -/
theorem impulseAt_map_not (bits : List Bool) (i : Nat) : impulseAt (bits.map not) i = -impulseAt bits i := by
  unfold impulseAt
  split
  · rw [List.getElem?_map]
    rcases bits[(i - 16) / 4]? with _ | _ | _ <;> rfl
  · rfl

/-! ## The increments -/

/-- R213's sum, as a sum over the taps. -/
theorem incrementAt_eq_sum (cfg : Config) (bits : List Bool) (i : Nat) : incrementAt cfg bits i =
    ∑ j ∈ Finset.range 16, cfg.gaussCoef.toList.getD j 0 * impulseAt bits (i + 15 - j) := rfl

/-- The taps taken last first, over the train from element `i` on, give R213's sum. -/
theorem sumOfProducts_impulseTrain (cfg : Config) (bits : List Bool) (i : Nat) :
    sumOfProducts cfg.gaussCoef.toList.reverse ((impulseTrain bits).drop i) = incrementAt cfg bits i := by
  have htaps : cfg.gaussCoef.toList.length = 16 := Vector.length_toList
  rw [sumOfProducts_eq_sum, List.length_reverse, htaps, incrementAt_eq_sum, ← Finset.sum_range_reflect]
  refine Finset.sum_congr rfl fun j hj => ?_
  rw [Finset.mem_range] at hj
  rw [List.getD_reverse _ (by omega), htaps, show 16 - 1 - (16 - 1 - j) = j by omega,
    show i + 15 - j = i + (16 - 1 - j) by omega, ← getD_impulseTrain]
  simp only [List.getD_eq_getElem?_getD, List.getElem?_drop]

/-- The model's increments are R213's. -/
theorem getElem?_phaseIncrements (cfg : Config) {bits : List Bool} {i : Nat} (h : i < 4 * bits.length + 15) :
    (phaseIncrements cfg bits)[i]? = some (incrementAt cfg bits i) := by
  rw [phaseIncrements, getElem?_slidingDot _ _ _ _ h, sumOfProducts_impulseTrain]

/-- Inverting every bit negates the increments (R226). -/
theorem incrementAt_map_not (cfg : Config) (bits : List Bool) (i : Nat) :
    incrementAt cfg (bits.map not) i = -incrementAt cfg bits i := by
  simp only [incrementAt_eq_sum, impulseAt_map_not, mul_neg, Finset.sum_neg_distrib]

/-- All increments add up to the taps times the balance of the bits: every impulse passes under every tap once (R219). -/
theorem sum_incrementAt (cfg : Config) (bits : List Bool) :
    ∑ i ∈ Finset.range (4 * bits.length + 15), incrementAt cfg bits i = cfg.gaussCoef.toList.sum * bitBalance bits := by
  have hpass (j : Nat) (hj : j ∈ Finset.range 16) :
      ∑ i ∈ Finset.range (4 * bits.length + 15), impulseAt bits (i + 15 - j) = bitBalance bits := by
    rw [Finset.mem_range] at hj
    rw [← sum_impulseAt_window (a := 15 - j) (n := 4 * bits.length + 15) (by omega) (by omega) (by omega)]
    exact Finset.sum_congr rfl fun i _ => congrArg (impulseAt bits) (by omega)
  calc ∑ i ∈ Finset.range (4 * bits.length + 15), incrementAt cfg bits i
      = ∑ j ∈ Finset.range 16, cfg.gaussCoef.toList.getD j 0 *
          ∑ i ∈ Finset.range (4 * bits.length + 15), impulseAt bits (i + 15 - j) := by
        simp only [incrementAt_eq_sum, Finset.mul_sum]
        exact Finset.sum_comm
    _ = ∑ j ∈ Finset.range 16, cfg.gaussCoef.toList.getD j 0 * bitBalance bits :=
        Finset.sum_congr rfl fun j hj => by rw [hpass j hj]
    _ = cfg.gaussCoef.toList.sum * bitBalance bits := by
        rw [← Finset.sum_mul, ← sum_range_getD, Vector.length_toList]

end Sys2Proof.Machine
end

