-- ==== Sys2Proof/Proofs/Phases.lean ====
section
/-! The phases of the modulator (spec/45_gfsk.md R218, R219, R226): the recurrence, the phase as the sum of the increments
before it, and what follows from that. -/

namespace Sys2Proof.Machine

/-- Settles O36: one phase more than there are increments. -/
theorem sampleCountIsFixed : Obligations.SampleCountIsFixed := length_phaseSeq

/-- The first phase is 0 (R218). -/
theorem getElem?_phaseSeq_zero (cfg : Config) (bits : List Bool) : (phaseSeq cfg bits)[0]? = some 0 :=
  getElem?_phasesFrom_zero _ _ _

/-- Settles O35: the recurrence over the model's increments, which are R213's. -/
theorem phasesFollowTheRecurrence : Obligations.PhasesFollowTheRecurrence := by
  refine fun cfg bits => ⟨getElem?_phaseSeq_zero cfg bits, fun i hi => ?_⟩
  obtain ⟨p, hp, hq⟩ := getElem?_phasesFrom_succ (2 ^ cfg.phaseBits) 0 i _ _ (getElem?_phaseIncrements cfg hi)
  exact ⟨p, _, hp, hq, Int.toNat_of_nonneg (Int.emod_nonneg _ (by positivity))⟩

/-! ## The phase as a sum -/

/-- The increments before sample `i`, added up without the modulus. -/
def incrementSum (cfg : Config) (bits : List Bool) (i : Nat) : Int :=
  ∑ j ∈ Finset.range i, incrementAt cfg bits j

/-- Phase `i` is the sum of the increments before it, reduced once: reducing at every step adds nothing (R218). -/
theorem getElem?_phaseSeq (cfg : Config) {bits : List Bool} {i : Nat} (h : i ≤ 4 * bits.length + 15) :
    (phaseSeq cfg bits)[i]? = some (incrementSum cfg bits i % (2 ^ cfg.phaseBits : Nat)).toNat := by
  induction i with
  | zero => exact getElem?_phaseSeq_zero cfg bits
  | succ i ih =>
    obtain ⟨p, q, hp, hq, hstep⟩ := (phasesFollowTheRecurrence cfg bits).2 i h
    obtain rfl : p = _ := Option.some.inj (hp.symm.trans (ih (Nat.le_of_succ_le h)))
    rw [Int.toNat_of_nonneg (Int.emod_nonneg _ (by positivity)), Int.emod_add_emod] at hstep
    rw [hq, incrementSum, Finset.sum_range_succ, ← incrementSum, ← hstep, Int.toNat_natCast]

/-- The phase `MOD` leaves is the one of the last sample (R41). -/
theorem getLast?_phaseSeq (cfg : Config) (bits : List Bool) :
    (phaseSeq cfg bits).getLast? = (phaseSeq cfg bits)[4 * bits.length + 15]? := by
  rw [List.getLast?_eq_getElem?, length_phaseSeq]
  rfl

/-- Settles O37: the last phase is the sum of all increments, under which every impulse meets every tap once. -/
theorem finalPhaseCountsTheBits : Obligations.FinalPhaseCountsTheBits := by
  refine ⟨fun cfg bits => ?_, by decide, rfl⟩
  rw [getLast?_phaseSeq, getElem?_phaseSeq cfg le_rfl, incrementSum, sum_incrementAt]
  rfl

/-! ## Inverted bits -/

/-- Inverting every bit negates the sums (R226). -/
theorem incrementSum_map_not (cfg : Config) (bits : List Bool) (i : Nat) :
    incrementSum cfg (bits.map not) i = -incrementSum cfg bits i := by
  simp only [incrementSum, incrementAt_map_not, Finset.sum_neg_distrib]

/-- The residue of the opposite is the opposite residue (R9). -/
theorem toNat_neg_emod (S : Int) {P : Nat} (hP : 0 < P) : (-S % P).toNat = (P - (S % P).toNat) % P := by
  have hpos : (0 : Int) < P := Int.natCast_pos.mpr hP
  have hS := Int.toNat_of_nonneg (Int.emod_nonneg S hpos.ne')
  have hneg := Int.toNat_of_nonneg (Int.emod_nonneg (-S) hpos.ne')
  have hle : (S % P).toNat ≤ P := by have := Int.emod_lt_of_pos S hpos; omega
  zify [hle]
  rw [hS, hneg, Int.sub_emod_emod, Int.sub_emod_left]

/-- Settles O38: the sums of the two sequences are opposite, and so are their residues. -/
theorem complementNegatesThePhase : Obligations.ComplementNegatesThePhase := by
  intro cfg bits i p q hp hq
  have hi : i ≤ 4 * bits.length + 15 := by
    have := (List.getElem?_eq_some_iff.mp hp).1
    rw [length_phaseSeq] at this
    omega
  rw [getElem?_phaseSeq cfg hi, Option.some.injEq] at hp
  rw [getElem?_phaseSeq cfg (by rwa [List.length_map]), Option.some.injEq, incrementSum_map_not] at hq
  rw [← hp, ← hq]
  exact toNat_neg_emod _ (Nat.two_pow_pos _)

/-! ## The first phases -/

/-- The default taps begin with four zeros, and behind those only the leading zeros of the train stand in reach of the
first five increments (R214). -/
theorem incrementAt_default_eq_zero (bits : List Bool) {i : Nat} (h : i < 5) :
    incrementAt Config.default bits i = 0 := by
  rw [incrementAt_eq_sum]
  refine Finset.sum_eq_zero fun j _ => ?_
  by_cases hj : j < 4
  · have htap : Config.default.gaussCoef.toList.getD j 0 = 0 := by interval_cases j <;> rfl
    rw [htap, zero_mul]
  · rw [impulseAt_eq_zero (.inl (by omega)), mul_zero]

/-- Settles O39: up to sample 5 there is nothing to add up. -/
theorem firstSixPhasesAreZero : Obligations.FirstSixPhasesAreZero := by
  intro bits i hi
  have hsum : incrementSum Config.default bits i = 0 :=
    Finset.sum_eq_zero fun j hj => incrementAt_default_eq_zero bits (by rw [Finset.mem_range] at hj; omega)
  rw [getElem?_phaseSeq _ (by omega), hsum]
  rfl

end Sys2Proof.Machine
end

