-- ==== Sys2Proof/Proofs/ModCommand.lean ====
section
/-! The tables and the command `MOD` (spec/45_gfsk.md R220 to R225): the rounding, the sample of a phase under a legal
setting, and the one state `MOD` completes with. -/

namespace Sys2Proof.Machine

/-! ## Rounding and the default tables -/

/-- The rounded value is a nearest integer (R223). -/
theorem abs_sub_rnd_le (v : ℝ) : |v - rnd v| ≤ 1 / 2 := by
  rw [abs_le]
  unfold rnd
  split
  · have hle := Int.floor_le (v + 1 / 2)
    have hlt := Int.lt_floor_add_one (v + 1 / 2)
    constructor <;> linarith
  · have hle := Int.floor_le (-v + 1 / 2)
    have hlt := Int.lt_floor_add_one (-v + 1 / 2)
    push_cast
    constructor <;> linarith

/-- A tie above 0 goes up (R223). -/
theorem rnd_add_half (n : ℕ) : rnd ((n : ℝ) + 1 / 2) = n + 1 := by
  rw [rnd, if_pos (by positivity), add_assoc, add_halves, Int.floor_add_one, Int.floor_natCast]

/-- A tie below 0 goes down (R223). -/
theorem rnd_neg_add_half (n : ℕ) : rnd (-((n : ℝ) + 1 / 2)) = -(n + 1 : Int) := by
  have hneg : ¬0 ≤ -((n : ℝ) + 1 / 2) := not_le.mpr (neg_lt_zero.mpr (by positivity))
  rw [rnd, if_neg hneg, neg_neg, add_assoc, add_halves, Int.floor_add_one, Int.floor_natCast]

/-- Settles O40: the rounding, and the default tables as those of `AMP` 127 and 1024 phases. -/
theorem defaultTablesAreTheRoundedCosineAndSine : Obligations.DefaultTablesAreTheRoundedCosineAndSine := by
  obtain ⟨hcosLength, hcos⟩ := isCosTab_default
  obtain ⟨hsinLength, hsin⟩ := isSinTab_default
  have hP : (2 : ℝ) ^ 10 = 1024 := by norm_num
  simp only [hP, Nat.cast_ofNat] at hcos hsin
  exact ⟨abs_sub_rnd_le, fun n => ⟨rnd_add_half n, rnd_neg_add_half n⟩, hcosLength, hsinLength,
    fun p hp => ⟨hcos p hp, hsin p hp⟩⟩

/-! ## Samples -/

/-- Under a legal setting the sample of a phase is the pair of the table entries: both fit `SAMPLE_BITS` (R223, R225). -/
theorem sampleAt_of_tables {cfg : Config} (hw : ConfigWf cfg) {p : Nat} {c d : Int} (hc : cfg.cosTab[p]? = some c)
    (hd : cfg.sinTab[p]? = some d) : sampleAt cfg p = .ok ⟨c, d⟩ := by
  have hcosFits := natAbs_le_of_isCosTab hw.cosTab c (List.mem_of_getElem? hc)
  have hsinFits := natAbs_le_of_isSinTab hw.sinTab d (List.mem_of_getElem? hd)
  rw [sampleAt_eq_ok.mpr ⟨c, d, hc, hd, rfl⟩, narrow_eq hw.ampPos hw.ampLt hcosFits,
    narrow_eq hw.ampPos hw.ampLt hsinFits]

/-- Under a legal setting every phase has its sample (R8, R225). -/
theorem samplesOf_phaseSeq {cfg : Config} (hw : ConfigWf cfg) (bits : List Bool) :
    ∃ xs, samplesOf cfg (phaseSeq cfg bits) = .ok xs :=
  samplesOf_ok (fun _ hp => hw.cosTab.1 ▸ lt_of_mem_phaseSeq hp) fun _ hp => hw.sinTab.1 ▸ lt_of_mem_phaseSeq hp

/-- Sample `i` is the sample of phase `i` (R225). -/
theorem getElem?_samplesOf {cfg : Config} {ps : List Nat} {xs : List Sample} (h : samplesOf cfg ps = .ok xs) {i p : Nat}
    {x : Sample} (hp : ps[i]? = some p) (hx : sampleAt cfg p = .ok x) : xs[i]? = some x := by
  have hall := samplesOf_eq_ok.mp h
  obtain ⟨hi, rfl⟩ := List.getElem?_eq_some_iff.mp hp
  have hi' : i < xs.length := hall.length_eq ▸ hi
  have hsample : sampleAt cfg ps[i] = .ok xs[i] := hall.get hi hi'
  rw [List.getElem?_eq_getElem hi', Except.ok.inj (hsample.symm.trans hx)]

/-! ## `MOD` -/

/-- Beyond the bound nothing is written (R220). -/
theorem execMod_of_large {s : State} (large : 47 < s.numPhyByte.toNat) :
    execMod s = .next (s.raise .payloadTooLarge) := if_pos (Nat.mul_lt_mul_of_pos_left large (by decide))

/-- Up to 47 bytes that can be read are modulated: `SAMP` has room for their samples (R220, R221). -/
theorem execMod_of_bytes {s : State} {bytes : List (BitVec 8)} {xs : List Sample} (fits : s.numPhyByte.toNat ≤ 47)
    (read : loadRange .phy s.phy 0 s.numPhyByte.toNat = .ok bytes)
    (samples : samplesOf s.cfg (phaseSeq s.cfg (bytesToBits bytes)) = .ok xs) :
    execMod s = .next ((s.modulated bytes xs).respond (BitVec.ofNat 32 (32 * s.numPhyByte.toNat + 16))) := by
  have hroom : store .samp s.samp 0 xs = .ok (s.samp.write 0 xs) := store_eq_ok.mpr ⟨by
    rw [length_samples (loadRange_eq_ok.mp read).1 samples]
    show 0 + (32 * s.numPhyByte.toNat + 16) ≤ 1520
    omega, rfl⟩
  rw [execMod, if_neg (Nat.not_lt.mpr (Nat.mul_le_mul_left 8 fits)), read, orStop_ok]
  simp only [samples, hroom, orStop_ok]
  rfl

/-- `PHASE` holds the phase of the last sample in full: a legal `PHASE_BITS` fits its 32 bits (R41). -/
theorem modulated_phase (s : State) (hw : ConfigWf s.cfg) (bytes : List (BitVec 8)) (xs : List Sample) :
    some (s.modulated bytes xs).phase.toNat = (phaseSeq s.cfg (bytesToBits bytes))[32 * bytes.length + 15]? := by
  have hlast : some ((phaseSeq s.cfg (bytesToBits bytes)).getLastD 0) =
      (phaseSeq s.cfg (bytesToBits bytes))[32 * bytes.length + 15]? := by
    rw [List.getLastD_eq_getLast?, getLast?_phaseSeq, length_bytesToBits,
      show 4 * (8 * bytes.length) + 15 = 32 * bytes.length + 15 by omega,
      getElem?_phaseSeq _ (by rw [length_bytesToBits]; omega)]
    rfl
  have hfits := (getLastD_phaseSeq_lt s.cfg (bytesToBits bytes)).trans_le
    (Nat.pow_le_pow_right Nat.two_pos hw.phaseBitsLe)
  rw [← hlast, State.modulated, BitVec.toNat_ofNat, Nat.mod_eq_of_lt hfits]

/-- Settles O34: the bytes read at once, and `SAMP` after one write of the samples of their phases. -/
theorem modWritesTheSamples : Obligations.ModWritesTheSamples := by
  refine ⟨rfl, fun s => ⟨fun large => execMod_of_large large, fun bytes hw hlen fits hbytes => ?_⟩⟩
  have read : loadRange .phy s.phy 0 s.numPhyByte.toNat = .ok bytes :=
    loadRange_eq_ok.mpr ⟨hlen, fun k hk => ⟨show 0 + k < 47 by omega, hbytes k (hlen ▸ hk)⟩⟩
  obtain ⟨xs, samples⟩ := samplesOf_phaseSeq hw (bytesToBits bytes)
  have hcount : xs.length = 32 * bytes.length + 16 := length_samples rfl samples
  refine ⟨_, execMod_of_bytes (hlen ▸ fits) read samples, fun i hi => ?_, fun a ha => ?_, modulated_phase s hw bytes xs,
    by rw [hlen]; rfl⟩
  · obtain ⟨p, hp⟩ : ∃ p, (phaseSeq s.cfg (bytesToBits bytes))[i]? = some p :=
      ⟨_, List.getElem?_eq_getElem (by rw [length_phaseSeq, length_bytesToBits]; omega)⟩
    have hlt : p < 2 ^ s.cfg.phaseBits := lt_of_mem_phaseSeq (List.mem_of_getElem? hp)
    have hcos := hw.cosTab.2 p hlt
    have hsin := hw.sinTab.2 p hlt
    refine ⟨p, _, _, hp, hcos, hsin, ?_, rfl, rfl⟩
    calc (s.samp.write 0 xs).read i
        = xs[i]? := (Memory.read_write _ _ _ _).trans (if_pos ⟨Nat.zero_le i, by omega⟩)
      _ = some _ := getElem?_samplesOf samples hp (sampleAt_of_tables hw hcos hsin)
  · exact Memory.read_write_other _ _ _ _ (.inr (by omega))

end Sys2Proof.Machine
end

