-- ==== Sys2Proof/Proofs/ChannelGrid.lean ====
section
/-! The channel-to-frequency map (spec/46_chan_freq.md R240, R242): the 40 channels take the 40 places of a grid of
2 MHz from 2402 MHz up, and `CH_FREQ` answers the frequency of its operand's place. -/

namespace Sys2Proof.Machine

/-! ## Channels and their places on the grid -/

/-- The place of a channel on the grid (R242): 37, 38 and 39 take 0, 12 and 39, the others the places between them. -/
def gridIndex (ch : Nat) : Nat :=
  if ch = 37 then 0 else if ch = 38 then 12 else if ch = 39 then 39 else if ch ≤ 10 then ch + 1 else ch + 2

/-- The channel at a place of the grid (R242). -/
def channelAt (k : Nat) : Nat :=
  if k = 0 then 37 else if k = 12 then 38 else if k = 39 then 39 else if k ≤ 11 then k - 1 else k - 2

theorem gridIndex_lt {ch : Nat} (h : ch < 40) : gridIndex ch < 40 := by unfold gridIndex; split_ifs <;> omega

theorem channelAt_lt {k : Nat} (h : k < 40) : channelAt k < 40 := by unfold channelAt; split_ifs <;> omega

theorem gridIndex_channelAt {k : Nat} (h : k < 40) : gridIndex (channelAt k) = k := by
  revert k; decide

theorem channelAt_gridIndex {ch : Nat} (h : ch < 40) : channelAt (gridIndex ch) = ch := by
  revert ch; decide

/-! ## The frequencies -/

/-- Every channel has the frequency of its place (R240, R242). -/
theorem chanFreq_of_lt {ch : Nat} (h : ch < 40) : chanFreq ch = some (2402000000 + 2000000 * gridIndex ch) := by
  unfold chanFreq gridIndex
  split_ifs <;> congr 1 <;> omega

/-- No other number has a frequency (R240). -/
theorem chanFreq_eq_none {ch : Nat} (h : 40 ≤ ch) : chanFreq ch = none := by
  rw [chanFreq, if_neg (by omega), if_neg (by omega), if_neg (by omega), if_neg (by omega), if_neg (by omega)]

/-- Different places have different frequencies. -/
theorem chanFreq_eq_grid_iff {ch k : Nat} :
    chanFreq ch = some (2402000000 + 2000000 * k) ↔ ch < 40 ∧ gridIndex ch = k := by
  rcases Nat.lt_or_ge ch 40 with legal | above
  · rw [chanFreq_of_lt legal, Option.some.injEq]
    omega
  · simp [chanFreq_eq_none above, Nat.not_lt.mpr above]

/-- Settles O42: the channels and the places of the grid determine each other. -/
theorem frequenciesAreEachUsedOnce : Obligations.FrequenciesAreEachUsedOnce := by
  intro k hk
  refine ⟨channelAt k, channelAt_lt hk, chanFreq_eq_grid_iff.mpr ⟨channelAt_lt hk, gridIndex_channelAt hk⟩,
    fun ch' hfreq => ?_⟩
  obtain ⟨legal, hplace⟩ := chanFreq_eq_grid_iff.mp hfreq
  rw [← hplace, channelAt_gridIndex legal]

/-! ## `CH_FREQ` -/

/-- A channel with a frequency: the frequency is answered (R240). -/
theorem execChFreq_of_some {ch : BitVec 8} {f : Nat} (h : chanFreq ch.toNat = some f) (s : State) :
    execChFreq ch s = .next (s.result (BitVec.ofNat 32 f)) := by rw [execChFreq, h]

/-- A number without one: the error (R240). -/
theorem execChFreq_of_none {ch : BitVec 8} (h : chanFreq ch.toNat = none) (s : State) :
    execChFreq ch s = .next (s.raise .invalidChannel) := by rw [execChFreq, h]

/-- Settles O41: every frequency of the grid fits `RES`, and the place of a channel is the one its range gives. -/
theorem chFreqAnswersTheFrequency : Obligations.ChFreqAnswersTheFrequency := by
  refine fun ch => ⟨decode_or_operand 0x70 (by decide) rfl rfl rfl, fun s =>
    ⟨fun legal => ?_, fun above => execChFreq_of_none (chanFreq_eq_none above) s⟩⟩
  have hlt : ch.toNat < 40 := Nat.lt_succ_of_le legal
  have hplace := gridIndex_lt hlt
  refine ⟨_, ?_, execChFreq_of_some (chanFreq_of_lt hlt) s⟩
  rw [BitVec.toNat_ofNat, Nat.mod_eq_of_lt (by omega), gridIndex]
  split_ifs <;> omega

end Sys2Proof.Machine
end

