-- ==== Sys2Proof/Proofs/ErrorsAndWarnings.lean ====
section
/-! What `raise` and `warn` do to the whole state (spec/60_exceptions.md R250, R255, R256, R258): the table of codes and
bits row by row, and each of the two as one update. -/

namespace Sys2Proof.Machine

/-! ## The table of R250 -/

/-- The `STATUS` bits that an error sets: `ERR` and its own (R255). -/
def errFlags (e : Err) : BitVec 32 := BitVec.twoPow 32 statusErr ||| BitVec.twoPow 32 (errBit e)

/-- Every error is a row of R250, with its code and its two flags. -/
theorem errCode_errFlags_mem_table (e : Err) :
    (e, errCode e, errFlags e) ∈ [(Err.illegalCommand, 0x01#8, 0x0101#32), (.payloadTooLarge, 0x02#8, 0x0201#32),
      (.invalidChannel, 0x03#8, 0x0401#32), (.indexOutOfRange, 0x04#8, 0x0801#32),
      (.packetTooShort, 0x05#8, 0x1001#32), (.tableChannelMismatch, 0x06#8, 0x2001#32)] := by
  cases e <;> decide

/-- Every warning is a row of R250, with its code and its own flag. -/
theorem warningCode_warningBit_mem_table (w : Warning) :
    (w, warningCode w, BitVec.twoPow 32 (warningBit w)) ∈
      [(Warning.reservedPduType, 0x81#8, 0x10000#32), (.reservedOpcode, 0x82#8, 0x20000#32)] := by
  cases w <;> decide

/-! ## The updates -/

/-- An error as one update (R255). -/
theorem State.raise_eq (e : Err) (s : State) : s.raise e = { s with
    status := s.status ||| errFlags e, lasterr := errCode e, rsp := some ⟨errCode e, 0xFFFFFFFF#32⟩ } := by
  rw [State.raise, State.abandon, setBit_setBit s.status rfl, errFlags]

/-- Settles O43: the error's row of the table, and the update that `raise` is. -/
theorem raiseSetsFlagsAndAnswersAllOnes : Obligations.RaiseSetsFlagsAndAnswersAllOnes :=
  fun e s => ⟨errCode e, errFlags e, errCode_errFlags_mem_table e, s.raise_eq e⟩

/-- Settles O44: the warning's row of the table, then the two settings of `STRICT_RESERVED`. -/
theorem warnCompletesOrRejects : Obligations.WarnCompletesOrRejects := by
  refine fun w r s => ⟨warningCode w, BitVec.twoPow 32 (warningBit w), warningCode_warningBit_mem_table w,
    fun lenient => ?_, fun strict => ?_⟩
  · rw [State.warn_eq_of_lenient lenient r rfl, BitVec.or_assoc]
    rfl
  · rw [State.warn_eq_of_strict strict r rfl, BitVec.or_assoc]
    rfl

end Sys2Proof.Machine
end
